-- ==== Sys2Proof/Word.lean ====
section
/-! DEFINITION. The fixed-width words of the hardware: a byte on the bus, a flash address, the block's 16- and
32-bit registers (00_scope.md R6, R7; 10_state.md R20). -/

namespace Sys2Proof

/-- A byte is 8 bits (R7). -/
abbrev Byte := BitVec 8

/-- A flash address on the wire is 24 bits (R6 `ADDR_BITS`, R42). -/
abbrev Addr := BitVec 24

/-- The width of `deviceId` (R28). -/
abbrev Word16 := BitVec 16

/-- The width of `sectorNumber`, `capacity`, `pageCount`, `blk` and `value` (R20, R36). -/
abbrev Word32 := BitVec 32

/-- The low 24 bits of a natural number as a flash address; every address the block computes is below `2^24`
(R93, R160). -/
abbrev addrOf (n : Nat) : Addr := BitVec.ofNat 24 n

end Sys2Proof
end

