-- ==== Sys2Proof/Config.lean ====
section
/-! DEFINITION. What is fixed for one machine and is not state: the parameters of 00_scope.md R6, and the values the
spec leaves open, as constants without a body. -/

namespace Sys2Proof

/-- The parameters whose basis is not the source (R6: "Every parameter whose basis is not the source is a
configuration field of the model"), with R6's defaults. PRESUMED (log 1): the defaults of the page size, the opcodes, the
identifiers and the erased byte are general knowledge (G1 to G4); DEDUCED (log 2): `sectorSize`. -/
structure Config where
  /-- `PAGE_SIZE` (D1) -/
  pageSize : Nat := 256
  /-- `SECTOR_SIZE` (D2) -/
  sectorSize : Nat := 4096
  opWren : Byte := 0x06
  opPp : Byte := 0x02
  opRead : Byte := 0x03
  opRdsr1 : Byte := 0x05
  opSe4k : Byte := 0x20
  opBe32k : Byte := 0x52
  opBe64k : Byte := 0xD8
  opCe : Byte := 0xC7
  opRdid : Byte := 0x90
  opRduid : Byte := 0x4B
  /-- `ID_A` (D4) -/
  idA : Word16 := 0xEF13
  /-- `ID_B` (D4) -/
  idB : Word16 := 0xEF16
  /-- `DUMMY_OUT` (D10) -/
  dummyOut : Byte := 0x00
  /-- `ERASED_BYTE` (D26), a property of the chip -/
  erasedByte : Byte := 0xFF
  /-- `POLL_LIMIT`: none, a busy-wait is unbounded; `some n` is the optional variant of R204 (log 21) -/
  pollLimit : Option Nat := none
  /-- `BUS_CLOCK_HZ` (D33): open, without a default; no rule depends on it (R233) -/
  busClockHz : Option Nat := none
  /-- the width of a capacity (D5), in bits; no more than the 32 of its register (log 33) -/
  capacityBits : Nat := 32
  /-- `BLKNUM_BITS` (D21), the width of the block number in a request; no more than 32 (log 33) -/
  blkBits : Nat := 32
  /-- `STATUS_SUCCESS` (R102, D20) -/
  statusSuccess : BitVec 1 := 0
  /-- `STATUS_FAILURE` (R102, D20) -/
  statusFailure : BitVec 1 := 1
  -- the host operation codes (R101, D19)
  codeInit : BitVec 4 := 0x0
  codeReadBlock : BitVec 4 := 0x1
  codeWriteBlock : BitVec 4 := 0x2
  codeFlush : BitVec 4 := 0x3
  codeReformat : BitVec 4 := 0x4
  codeBlockCount : BitVec 4 := 0x5
  codeTotalSize : BitVec 4 := 0x6
  codeBlockSize : BitVec 4 := 0x7
  codeSupportsDma : BitVec 4 := 0x8
  codeIsBusy : BitVec 4 := 0x9
  deriving DecidableEq, Repr

namespace Config

/-- Every parameter at the value R6 gives it. -/
def default : Config := {}

/-- `CAP_A`, 1 MiB (R6, R29). -/
def capA : Nat := 1048576

/-- `CAP_B`, 8 MiB (R6, R29). -/
def capB : Nat := 8388608

/-- `ERASE_SIZES` (R6). -/
def eraseSizes : List Nat := [4096, 32768, 65536]

/-- `PAGES_PER_BLOCK` (R6): "this fixed 2:1 ratio is a deliberate constant". -/
def pagesPerBlock : Nat := 2

/-- `CAP_UNKNOWN`, the max-value sentinel of a capacity (R6, R29, D5). -/
def capUnknown (c : Config) : Word32 := BitVec.ofNat 32 (2 ^ c.capacityBits - 1)

/-- `BLOCK_SIZE` is two pages (R5, R188). -/
def blockSize (c : Config) : Nat := pagesPerBlock * c.pageSize

/-- `PAGES_PER_SECTOR` (R6). -/
def pagesPerSector (c : Config) : Nat := c.sectorSize / c.pageSize

/-- `BLOCKS_PER_SECTOR` (R6). -/
def blocksPerSector (c : Config) : Nat := c.sectorSize / c.blockSize

/-- The ten known opcodes, in the order of R97. -/
def opcodes (c : Config) : List Byte :=
  [c.opWren, c.opPp, c.opRead, c.opRdsr1, c.opSe4k, c.opBe32k, c.opBe64k, c.opCe, c.opRdid, c.opRduid]

/-- The ten host operation codes, in the order of R101. -/
def hostCodes (c : Config) : List (BitVec 4) :=
  [c.codeInit, c.codeReadBlock, c.codeWriteBlock, c.codeFlush, c.codeReformat, c.codeBlockCount, c.codeTotalSize,
    c.codeBlockSize, c.codeSupportsDma, c.codeIsBusy]

/-- The codes that name no operation, ascending (R103): 0xA to 0xF with R101's codes. -/
def reservedCodes (c : Config) : List (BitVec 4) :=
  ((List.range 16).map (BitVec.ofNat 4)).filter fun x => x ∉ c.hostCodes

/-- What the spec asks of the parameters: the sector is an integer multiple of the block (R5) and one of the erase
sizes (R98: the flush erases by "granularity matching the sector size"), and the opcodes are pairwise distinct
(R97). DEDUCED (log 1, log 33): the two identifiers differ, since a table with one key twice would hide its second row; a
capacity has room for the 8 MiB and the sentinel; the two statuses differ, and so do the ten host codes. -/
abbrev Valid (c : Config) : Prop :=
  0 < c.pageSize ∧ c.sectorSize ∈ eraseSizes ∧ c.blockSize ∣ c.sectorSize ∧ c.opcodes.Nodup ∧ c.idA ≠ c.idB ∧
    (24 ≤ c.capacityBits ∧ c.capacityBits ≤ 32) ∧ c.blkBits ≤ 32 ∧ c.statusSuccess ≠ c.statusFailure ∧
    c.hostCodes.Nodup

/-! ### Open values

Each is a constant without a body, so nothing can be proved of its value (93_implementation_defined.md Part A; log 7). -/

/-- The `n`-th free byte: a byte the chip returns and the block discards (U9), a byte of a response field that is not
meaningful (U16), the content of a flash byte programmed while not erased (U1) or cut short by a power loss (U20). -/
opaque freeByte : Nat → Byte

/-- The `n`-th free 32-bit value: `pageCount`, BLOCK_COUNT and TOTAL_SIZE without a device (U6), a `value` that is not
meaningful (U16). -/
opaque freeWord : Nat → Word32

/-- The `n`-th free bit: a `status` that is not meaningful (U16). -/
opaque freeStatus : Nat → BitVec 1

/-- The `n`-th free answer of the environment to a transfer whose answer the block keeps: a status byte (U2, U3, U8),
a byte from an absent or foreign chip (U10), a byte read past the end (U19); or to whether a busy time is over when a
command comes, as a status byte (R77, log 30). -/
opaque freeAnswer : Nat → Byte

/-- The `n`-th free condition of the chip: is it busy, is its write-enable latch set, when its power returns (R77: not in
the source); did a command that was cut take effect (log 18); does one at an address the chip does not have act at all
(log 15). -/
opaque freeFlag : Nat → Bool

/-- The `n`-th free place in the chip, which a command at an address the chip does not have acts on (log 15). -/
opaque freeTarget : Nat → Nat

/-- Byte `i` of the chip's unique identifier; R130 gives its length (from general knowledge) and not its value. -/
opaque uniqueId : Nat → Byte

end Config

end Sys2Proof
end

