-- ==== Sys2Proof/Syntax.lean ====
section
/-! DEFINITION. The instructions of the hardware: one constructor per row of `spec/opcode_table.json`, and the frames
that carry them (30_encoding.md R90, R100). -/

namespace Sys2Proof

/-- One constructor per row of the opcode table: ten wire commands (R97), ten host operations (R101), six reserved
host codes (R103). A field the operation ignores (`blk` of eight host operations, R101) is no part of the
instruction. -/
inductive Instr where
  /-- WREN, R121 -/
  | wren
  /-- PP, R122: a page address and `PAGE_SIZE` bytes -/
  | pp (addr : Addr) (data : List Byte)
  /-- READ, R123: an address and a byte count -/
  | read (addr : Addr) (count : Nat)
  /-- RDSR1, R124 -/
  | rdsr1
  /-- SE4K, R125 -/
  | se4k (addr : Addr)
  /-- BE32K, R126 -/
  | be32k (addr : Addr)
  /-- BE64K, R127 -/
  | be64k (addr : Addr)
  /-- CE, R128 -/
  | ce
  /-- RDID, R129 -/
  | rdid
  /-- RDUID, R130 -/
  | rduid
  /-- INITIALIZE, R181 -/
  | init
  /-- READ_BLOCK, R182 -/
  | readBlock (blk : Word32)
  /-- WRITE_BLOCK, R183: a block number and `BLOCK_SIZE` bytes -/
  | writeBlock (blk : Word32) (data : List Byte)
  /-- FLUSH, R184 -/
  | flush
  /-- REFORMAT, R185 -/
  | reformat
  /-- BLOCK_COUNT, R186 -/
  | blockCount
  /-- TOTAL_SIZE, R187 -/
  | totalSize
  /-- BLOCK_SIZE, R188 -/
  | blockSize
  /-- SUPPORTS_DMA, R189 -/
  | supportsDma
  /-- IS_BUSY, R190 -/
  | isBusy
  /-- op 0xA, R103 -/
  | reservedA
  /-- op 0xB, R103 -/
  | reservedB
  /-- op 0xC, R103 -/
  | reservedC
  /-- op 0xD, R103 -/
  | reservedD
  /-- op 0xE, R103 -/
  | reservedE
  /-- op 0xF, R103 -/
  | reservedF
  deriving DecidableEq, Repr

/-- How an instruction is carried: a wire command is the bytes sent between chip-select's assertion and its release
(R90); a host request is a 36-bit word with data bytes after it (R36, R100). -/
inductive Frame where
  | wire (bytes : List Byte)
  | host (word : BitVec 36) (data : List Byte)
  deriving DecidableEq, Repr

/-- Why a frame is no instruction. -/
inductive DecodeError where
  /-- a transaction without a byte: there is no opcode (R90) -/
  | emptyFrame
  /-- a first byte that is none of the ten opcodes (R99) -/
  | unknownOpcode
  /-- a number of bytes that is not the command's (R90), or data that is not `BLOCK_SIZE` bytes (R100) -/
  | wrongLength
  /-- a byte other than `DUMMY_OUT` where the format has `Z`, or a non-zero address byte of RDID (R90, R129) -/
  | wrongFiller
  deriving DecidableEq, Repr

end Sys2Proof
end

