-- ==== Sys2Proof/WellFormed.lean ====
section
/-! DEFINITION. Which instructions are well formed: the operand conditions of 40_wire_commands.md and R36. -/

namespace Sys2Proof

/-- An address is a multiple of `g` (R57). -/
def aligned (g : Nat) (a : Addr) : Bool := a.toNat % g == 0

/-- The operand conditions: PP takes "exactly `PAGE_SIZE` bytes" at "a multiple of `PAGE_SIZE`" (R122), an erase an
address aligned to its size (R125, R126, R127), WRITE_BLOCK `BLOCK_SIZE` bytes (R36). READ takes any address and any
count (R123); block numbers need no alignment (R57), and fit their field (R100). -/
def Instr.wf (c : Config) : Instr → Bool
  | .wren => true
  | .pp a d => aligned c.pageSize a && d.length == c.pageSize
  | .read _ _ => true
  | .rdsr1 => true
  | .se4k a => aligned 4096 a
  | .be32k a => aligned 32768 a
  | .be64k a => aligned 65536 a
  | .ce => true
  | .rdid => true
  | .rduid => true
  | .init => true
  | .readBlock b => b.toNat < 2 ^ c.blkBits
  | .writeBlock b d => b.toNat < 2 ^ c.blkBits && d.length == c.blockSize
  | .flush => true
  | .reformat => true
  | .blockCount => true
  | .totalSize => true
  | .blockSize => true
  | .supportsDma => true
  | .isBusy => true
  | .reservedA => true
  | .reservedB => true
  | .reservedC => true
  | .reservedD => true
  | .reservedE => true
  | .reservedF => true

end Sys2Proof
end

