-- ==== Sys2Proof/Decode.lean ====
section
/-! DEFINITION. Decoding a frame into an instruction, total and rejecting by name, and the encoder written from the
same tables (30_encoding.md R90, R93, R97, R100, R101, R103). -/

namespace Sys2Proof

/-! ### Byte order on the wire -/

/-- `A2`, `A1`, `A0`: "24-bit big-endian addresses" (R50, R93). -/
def addrBytes (a : Addr) : List Byte := [a.extractLsb' 16 8, a.extractLsb' 8 8, a.extractLsb' 0 8]

/-- The address whose bytes are `a2`, `a1`, `a0`, the first the most significant (R50, R93). -/
def joinAddr (a2 a1 a0 : Byte) : Addr := a2 ++ a1 ++ a0

/-- `id = h ++ l`: the first byte received is the most significant (R50, R94). -/
def joinId (h l : Byte) : Word16 := h ++ l

/-- The two bytes of an identifier, high byte first (R79). -/
def idBytes (id : Word16) : Byte × Byte := (id.extractLsb' 8 8, id.extractLsb' 0 8)

/-! ### Wire commands -/

/-- Format W-CMD: the opcode and nothing else. -/
def decodeBare (i : Instr) (rest : List Byte) : Except DecodeError Instr :=
  if rest = [] then .ok i else .error .wrongLength

/-- Three address bytes, and what follows them. -/
def decodeAddr (k : Addr → List Byte → Except DecodeError Instr) : List Byte → Except DecodeError Instr
  | a2 :: a1 :: a0 :: rest => k (joinAddr a2 a1 a0) rest
  | _ => .error .wrongLength

/-- Filler bytes that must have exactly these values. -/
def decodeFiller (i : Instr) (want rest : List Byte) : Except DecodeError Instr :=
  if rest.length ≠ want.length then .error .wrongLength
  else if rest = want then .ok i else .error .wrongFiller

/-- `n` times `DUMMY_OUT`. -/
def dummies (c : Config) (n : Nat) : List Byte := List.replicate n c.dummyOut

/-- A wire command from the bytes sent in one transaction: the first byte is the opcode (R90, R104), and the length
is decided by it, except READ whose count is the number of dummy bytes (R97). -/
def decodeWire (c : Config) : List Byte → Except DecodeError Instr
  | [] => .error .emptyFrame
  | op :: rest =>
    if op = c.opWren then decodeBare .wren rest
    else if op = c.opPp then
      decodeAddr (fun a d => if d.length = c.pageSize then .ok (.pp a d) else .error .wrongLength) rest
    else if op = c.opRead then
      decodeAddr (fun a z => if z = dummies c z.length then .ok (.read a z.length) else .error .wrongFiller) rest
    else if op = c.opRdsr1 then decodeFiller .rdsr1 (dummies c 1) rest
    else if op = c.opSe4k then decodeAddr (fun a r => decodeBare (.se4k a) r) rest
    else if op = c.opBe32k then decodeAddr (fun a r => decodeBare (.be32k a) r) rest
    else if op = c.opBe64k then decodeAddr (fun a r => decodeBare (.be64k a) r) rest
    else if op = c.opCe then decodeBare .ce rest
    else if op = c.opRdid then decodeFiller .rdid ([0, 0, 0] ++ dummies c 2) rest
    else if op = c.opRduid then decodeFiller .rduid (dummies c 12) rest
    else .error .unknownOpcode

/-! ### Host requests -/

/-- The request word (R100): `op` above the block number's bits, `op[3:0] ++ blk[31:0]` with R6's width. -/
def hostWord (c : Config) (op : BitVec 4) (blk : Word32) : BitVec 36 :=
  BitVec.ofNat 36 (op.toNat * 2 ^ c.blkBits + blk.toNat)

/-- The code of a request word, bits `[35:32]` with R6's width (R100). -/
def hostOp (c : Config) (w : BitVec 36) : BitVec 4 := BitVec.ofNat 4 (w.toNat / 2 ^ c.blkBits)

/-- The block number of a request word, bits `[31:0]` with R6's width (R100). -/
def hostBlk (c : Config) (w : BitVec 36) : Word32 := BitVec.ofNat 32 (w.toNat % 2 ^ c.blkBits)

/-- The six reserved instructions, in the order of their codes (R103). -/
def reservedInstrs : List Instr := [.reservedA, .reservedB, .reservedC, .reservedD, .reservedE, .reservedF]

/-- The reserved instruction of a code that names no operation (R103): 0xA to 0xF, ascending, with R101's codes. -/
def decodeReserved (c : Config) (op : BitVec 4) : Instr :=
  reservedInstrs.getD (c.reservedCodes.idxOf op) .reservedF

/-- A host request from its code, block number and data bytes (R101). `blk` is used by READ_BLOCK and WRITE_BLOCK only,
data by WRITE_BLOCK only, and "a field that is not meaningful for the operation is ignored on request" (R36). -/
def decodeRequest (c : Config) (op : BitVec 4) (blk : Word32) (data : List Byte) : Except DecodeError Instr :=
  if op = c.codeInit then .ok .init
  else if op = c.codeReadBlock then .ok (.readBlock blk)
  else if op = c.codeWriteBlock then
    if data.length = c.blockSize then .ok (.writeBlock blk data) else .error .wrongLength
  else if op = c.codeFlush then .ok .flush
  else if op = c.codeReformat then .ok .reformat
  else if op = c.codeBlockCount then .ok .blockCount
  else if op = c.codeTotalSize then .ok .totalSize
  else if op = c.codeBlockSize then .ok .blockSize
  else if op = c.codeSupportsDma then .ok .supportsDma
  else if op = c.codeIsBusy then .ok .isBusy
  else .ok (decodeReserved c op)

/-- A host request from its word and its data bytes (R100). A word with more bits than the two fields is none. -/
def decodeHost (c : Config) (w : BitVec 36) (data : List Byte) : Except DecodeError Instr :=
  if w.toNat < 2 ^ (c.blkBits + 4) then decodeRequest c (hostOp c w) (hostBlk c w) data else .error .wrongLength

/-- The instruction a frame carries. -/
def decode (c : Config) : Frame → Except DecodeError Instr
  | .wire bytes => decodeWire c bytes
  | .host w data => decodeHost c w data

/-! ### The encoder -/

/-- The `n`-th code that names no operation (R103). -/
def reservedCode (c : Config) (n : Nat) : BitVec 4 := c.reservedCodes.getD n 0xF

/-- The frame of an instruction, from R90's formats and R97's and R101's opcodes. Fields an operation ignores are
sent as 0. -/
def encode (c : Config) : Instr → Frame
  | .wren => .wire [c.opWren]
  | .pp a d => .wire (c.opPp :: addrBytes a ++ d)
  | .read a n => .wire (c.opRead :: addrBytes a ++ dummies c n)
  | .rdsr1 => .wire (c.opRdsr1 :: dummies c 1)
  | .se4k a => .wire (c.opSe4k :: addrBytes a)
  | .be32k a => .wire (c.opBe32k :: addrBytes a)
  | .be64k a => .wire (c.opBe64k :: addrBytes a)
  | .ce => .wire [c.opCe]
  | .rdid => .wire (c.opRdid :: [0, 0, 0] ++ dummies c 2)
  | .rduid => .wire (c.opRduid :: dummies c 12)
  | .init => .host (hostWord c c.codeInit 0) []
  | .readBlock b => .host (hostWord c c.codeReadBlock b) []
  | .writeBlock b d => .host (hostWord c c.codeWriteBlock b) d
  | .flush => .host (hostWord c c.codeFlush 0) []
  | .reformat => .host (hostWord c c.codeReformat 0) []
  | .blockCount => .host (hostWord c c.codeBlockCount 0) []
  | .totalSize => .host (hostWord c c.codeTotalSize 0) []
  | .blockSize => .host (hostWord c c.codeBlockSize 0) []
  | .supportsDma => .host (hostWord c c.codeSupportsDma 0) []
  | .isBusy => .host (hostWord c c.codeIsBusy 0) []
  | .reservedA => .host (hostWord c (reservedCode c 0) 0) []
  | .reservedB => .host (hostWord c (reservedCode c 1) 0) []
  | .reservedC => .host (hostWord c (reservedCode c 2) 0) []
  | .reservedD => .host (hostWord c (reservedCode c 3) 0) []
  | .reservedE => .host (hostWord c (reservedCode c 4) 0) []
  | .reservedF => .host (hostWord c (reservedCode c 5) 0) []

/-! ### Words of the opcode table -/

/-- How many bytes follow the opcode byte `op` in the shortest frame of its command (R90): the table gives a wire
command its opcode byte only, and the bytes after it are then zeros (log 20). -/
def operandBytes (c : Config) (op : Byte) : Nat :=
  if op = c.opPp then 3 + c.pageSize
  else if op = c.opRead ∨ op = c.opSe4k ∨ op = c.opBe32k ∨ op = c.opBe64k then 3
  else if op = c.opRdsr1 then 1
  else if op = c.opRdid then 5
  else if op = c.opRduid then 12
  else 0

/-- The frame of a word numbered as the opcode table numbers it: a row of 8 bits is a wire command, its word the
opcode byte; a row of 36 bits (40 in whole bytes) is a host request, its word the request word and its data bytes
zeros. A host word has `BLKNUM_BITS + 4` bits, so a number above that is no frame. -/
def tableFrame (c : Config) (nbits w : Nat) : Frame :=
  if nbits ≤ 8 then
    let op := BitVec.ofNat 8 w
    .wire (op :: List.replicate (operandBytes c op) 0)
  else if w < 2 ^ (c.blkBits + 4) then .host (BitVec.ofNat 36 w) (List.replicate c.blockSize 0)
  else .wire []

/-- The instruction the decoder reads from a word of the opcode table. -/
def decodeTableWord (nbits w : Nat) : Option Instr :=
  match decode Config.default (tableFrame Config.default nbits w) with
  | .ok i => some i
  | .error _ => none

end Sys2Proof
end

