-- ==== Sys2Proof/Machine/State.lean ====
section
/-! DEFINITION. The state of the machine as plain data: the block's own state (10_state.md R20), the flash chip as its
environment (20_memory.md section 6), and the model's own records of inputs and outputs; and the state after reset
(R40). -/

namespace Sys2Proof.Machine

/-! ### How a step can stop -/

/-- There is no fault: none of the abnormal outcomes of R200 traps (R206), and there is "no fault on any address" (R62). -/
inductive Fault where
  deriving DecidableEq, Repr

/-- The spec gives the situation no meaning: its `refuse` (R8). -/
inductive Refusal where
  /-- Raised by `exec` for an instruction the model has no meaning for. Safe: nothing is claimed. -/
  | notModelled (mnemonic : String)
  /-- Raised by `step` for a frame that carries no instruction (R99, R100). Safe. -/
  | undecodable (e : DecodeError)
  /-- Raised by the six reserved host codes (R103). Safe. -/
  | reservedHostCode
  /-- Raised by `step` in a state with `loaded = 0` and `dirty = 1` (R26, U17). Safe. -/
  | excludedCacheState
  /-- Raised by a state-changing request, wire command or primitive while the sequencer runs an operation that does not
  hold `busy` (R180, D18, R120). Safe. -/
  | sequencerOccupied
  /-- Raised by READ_BLOCK, WRITE_BLOCK, FLUSH, REFORMAT while `initialized = 0` (R191, D22). Safe. -/
  | notInitialized
  /-- Raised by INITIALIZE while `initialized = 1` (R181, D23). Safe. -/
  | alreadyInitialized
  /-- Raised by READ_BLOCK and WRITE_BLOCK with `blk >= blockCount` (R192, D21). Safe. -/
  | blockOutOfRange
  /-- Raised by INITIALIZE and REFORMAT while `busy = 1` (R180, D17). Safe. -/
  | busyReentry
  /-- Raised by PP, SE4K, BE32K, BE64K, `programPage` and `eraseSector` at a misaligned address (R58, D39). Safe. -/
  | misaligned
  /-- Raised by PP and `programPage` with data that is not `PAGE_SIZE` bytes (R58, R145, U11). Safe. -/
  | wrongPageLength
  /-- Raised by WRITE_BLOCK with data that is not `BLOCK_SIZE` bytes (R36, R37). Safe: no request has that form. -/
  | wrongBlockLength
  /-- Raised by `eraseSector` with a granularity that has no command (R98, D39). Safe. -/
  | noEraseCommand
  /-- Raised by a bus action the bus forbids: `Xfer` or `Deselect` while `cs = 0`, `Select` while `cs = 1` (R35, R72d).
  Safe; no operation of the block does it. -/
  | illegalBusAction
  /-- Raised by the stand-in chip for an opcode it does not know (R81, U18). Safe. -/
  | chipUnknownOpcode
  /-- Raised by the stand-in chip for a command other than RDSR1 received while its busy time is not over (R81, U18).
  Safe. -/
  | chipBusy
  /-- Raised by the stand-in chip for a program or erase that no WREN preceded (R81, U18). Safe. -/
  | chipNotWriteEnabled
  /-- Raised by the stand-in chip when the block itself ends a transaction that is too short or too long for its
  command (R81, U18). Safe; no operation of the block does it. -/
  | chipCutShort
  deriving DecidableEq, Repr

/-! ### The flash chip (environment) -/

/-- Flash content: the bytes that differ from `ERASED_BYTE`, by rising address (R42, R73; log 6). -/
abbrev Memory := List Host.Cell

/-- What is at the other end of the bus: the 1 MiB part, the 8 MiB part (R79), or no chip or another kind of chip
(R80). -/
inductive ChipKind where
  | partA
  | partB
  | absent
  deriving DecidableEq, Repr

/-- The chip's busy condition (R77): the page being programmed is remembered because a power loss spoils it (R216). -/
inductive ChipBusy where
  | ready
  | programming (page : Nat)
  | other
  deriving DecidableEq, Repr

/-- The transaction the chip is receiving: the opcode, how many bytes followed it, the first three of them in order,
and the later ones newest first. -/
structure Txn where
  op : Byte
  count : Nat
  addr : List Byte
  data : List Byte
  deriving DecidableEq, Repr

/-- The stand-in flash chip (D34). -/
structure Chip where
  kind : ChipKind
  mem : Memory
  busy : ChipBusy
  /-- the write-enable latch (R78; PRESUMED, G10, log 5) -/
  wel : Bool
  txn : Option Txn
  deriving DecidableEq, Repr

/-! ### The sequencer -/

/-- One bus event or one state write, as the pseudocode of the rules unfolds it (R32). -/
inductive Micro where
  /-- `Select()` (R35) -/
  | sel
  /-- `Deselect()` (R35) -/
  | des
  /-- `Xfer(out)` whose answer is discarded (R92) -/
  | send (out : Byte)
  /-- `Xfer(DUMMY_OUT)` whose answer is kept (R90) -/
  | recv
  /-- `until s[0] == 0`, after `polls` polls of this busy-wait that read 1 (R140) -/
  | untilReady (polls : Nat)
  /-- the clock configuration of INITIALIZE, which changes no state (R181) -/
  | configureClock
  /-- `deviceId <- id` (R181) -/
  | latchId
  /-- `capacity <- lookup(id)` (R181) -/
  | latchCapacity
  /-- `pageCount <- capacity div PAGE_SIZE`, or any value (R181) -/
  | latchPageCount
  /-- `initialized <- 1` or `0` (R181) -/
  | latchInitialized
  /-- `loaded <- b` (R162) -/
  | setLoaded (b : Bool)
  /-- `sectorNumber <- S` (R162) -/
  | setSector (sector : Nat)
  /-- `buffer[p*PAGE_SIZE +: PAGE_SIZE] <-` the bytes just read (R162) -/
  | storePage (page : Nat)
  /-- `dirty <- b` (R163, R167) -/
  | setDirty (b : Bool)
  /-- `buffer[off +: BLOCK_SIZE] <- data` (R167) -/
  | copyIn (off : Nat) (data : List Byte)
  /-- `loaded <- 0; dirty <- 0` (R169; one write, log 12) -/
  | invalidate
  /-- `refuse` (R8) -/
  | refuse (r : Refusal)
  deriving DecidableEq, Repr

/-- What a directly called wire command or primitive returns (R121 to R130, R140 to R148). -/
inductive Returns where
  | nothing
  | bytes
  | identifier
  | present
  | capacity
  deriving DecidableEq, Repr

/-- A returned value. -/
inductive Value where
  | none
  | bytes (b : List Byte)
  | identifier (id : Word16)
  | bool (b : Bool)
  | word (w : Word32)
  deriving DecidableEq, Repr

/-- The operation in progress (R32), with what its end needs: READ_BLOCK the cache offset of its block, a directly
called wire command or primitive what it returns. -/
inductive Op where
  | init
  | readBlock (off : Nat)
  | writeBlock
  | flush
  | reformat
  | direct (ret : Returns)
  deriving DecidableEq, Repr

/-- The sequencer position (R32). -/
inductive Seq where
  | idle
  | run (op : Op) (rest : List Micro)
  deriving DecidableEq, Repr

/-! ### Inputs and outputs -/

/-- A call of a driver primitive (41_driver_primitives.md: "A model may still expose them for testing"). -/
inductive Primitive where
  | waitReady
  | detect
  | isPresent
  | capacity
  | readBytes (addr : Addr) (count : Nat)
  | programPage (addr : Addr) (data : List Byte)
  | eraseSector (addr : Addr) (granularity : Nat)
  | eraseChip
  | readUniqueId
  deriving DecidableEq, Repr

/-- What arrives from outside: an instruction's frame, a call of a primitive, a reset of the block (R230), a loss and
return of power (R216). -/
inductive Input where
  | frame (f : Frame)
  | primitive (p : Primitive)
  | reset
  | powerLoss
  deriving DecidableEq, Repr

/-- When an input arrives: once the sequencer is idle, or after this many more bus events and state writes, whatever it
is doing (R180, D28; log 10). -/
inductive When where
  | whenIdle
  | after (events : Nat)
  deriving DecidableEq, Repr

/-- One input to come. -/
structure Arrival where
  due : When
  input : Input
  deriving DecidableEq, Repr

/-- The response record (R36). -/
structure Response where
  status : BitVec 1
  value : Word32
  rdata : List Byte
  deriving DecidableEq, Repr

/-- One bus event (R38): `Sel`, `X(out, in)`, `Des`. -/
inductive BusEvent where
  | sel
  | x (out inn : Byte)
  | des
  deriving DecidableEq, Repr

/-! ### The state -/

/-- The machine's state. -/
structure State where
  /-- the parameters of R6; no step changes them (log 1) -/
  cfg : Config
  -- the block (R20)
  loaded : Bool
  dirty : Bool
  sectorNumber : Word32
  buffer : List Byte
  busy : Bool
  deviceId : Word16
  capacity : Word32
  pageCount : Word32
  initialized : Bool
  seq : Seq
  cs : Bool
  -- values between the driver and its caller (R150)
  /-- the bytes kept from the current or last wire command (R90) -/
  rx : List Byte
  /-- what the last directly called wire command or primitive returned -/
  result : Value
  -- the environment
  chip : Chip
  /-- the answers the environment has settled on for the next kept transfers that are its free choice, and for the end of
  a busy time when a command comes (log 8, log 30) -/
  choices : List Byte
  /-- index of the next free answer after `choices` (log 7) -/
  asked : Nat
  /-- index of the next free value of every other kind (log 7) -/
  draws : Nat
  /-- inputs to come, first first -/
  inbox : List Arrival
  -- what the outside sees
  /-- responses given, newest first (R36) -/
  responses : List Response
  /-- bus events, newest first (R38) -/
  history : List BusEvent
  deriving DecidableEq, Repr

/-- The stand-in chip as `State.reset` finds it: the 1 MiB part, erased, ready, write-disabled (DESIGN CHOICE, log 4,
log 5, log 6; R40: the chip's content "is whatever it was"). -/
def Chip.fresh : Chip := { kind := .partA, mem := [], busy := .ready, wel := false, txn := none }

/-- The machine right after reset (R40, R230), with the default parameters. The values R40 leaves unspecified are 0
(DESIGN CHOICE, log 3). -/
def State.reset : State :=
  { cfg := Config.default
    loaded := false
    dirty := false
    sectorNumber := 0
    buffer := List.replicate Config.default.sectorSize 0
    busy := false
    deviceId := 0
    capacity := 0
    pageCount := 0
    initialized := false
    seq := .idle
    cs := false
    rx := []
    result := .none
    chip := Chip.fresh
    choices := []
    asked := 0
    draws := 0
    inbox := []
    responses := []
    history := [] }

end Sys2Proof.Machine
end

