-- ==== Sys2Proof/Machine/Memory.lean ====
section
/-! DEFINITION. The flash array: reading, erasing and programming its bytes, in the one canonical form (20_memory.md
R42, R73 to R76). `d` is what an unlisted address reads as, always the chip's `ERASED_BYTE` (log 6). -/

namespace Sys2Proof.Machine

namespace Memory

/-- The canonical form: addresses strictly rising, and no entry equal to what an unlisted address reads as. -/
abbrev wf (d : Byte) (m : Memory) : Prop :=
  m.Pairwise (fun x y => x.1 < y.1) ∧ ∀ x ∈ m, x.2 ≠ d

/-- The byte at an address. -/
def read (d : Byte) : Memory → Nat → Byte
  | [], _ => d
  | x :: m, a => if x.1 = a then x.2 else read d m a

/-- `n` bytes in ascending order (R51). -/
def readRange (d : Byte) (m : Memory) (a : Nat) (n : Nat) : List Byte :=
  (List.range n).map fun i => read d m (a + i)

/-- Put one entry in front, unless it equals what an unlisted address reads as. -/
def put (d : Byte) (a : Nat) (v : Byte) (m : Memory) : Memory :=
  if v = d then m else (a, v) :: m

/-- Set the byte at an address. -/
def write (d : Byte) : Memory → Nat → Byte → Memory
  | [], a, v => put d a v []
  | x :: m, a, v =>
    if a < x.1 then put d a v (x :: m)
    else if a = x.1 then put d a v m
    else x :: write d m a v

/-- "sets every byte of its region to `ERASED_BYTE`" (R74): the `n` bytes from `lo`. -/
def erase (m : Memory) (lo n : Nat) : Memory :=
  m.filter fun x => !(decide (lo ≤ x.1) && decide (x.1 < lo + n))

/-- Program bytes upward from `a` (R75): an erased byte takes the data; any other takes a free value, byte `i` the one
of index `k + i` (U1; not AND, not OR, C4). -/
def program (d : Byte) : Memory → Nat → List Byte → Nat → Memory
  | m, _, [], _ => m
  | m, a, b :: data, k =>
    program d (write d m a (if read d m a = d then b else Config.freeByte k)) (a + 1) data (k + 1)

/-- `n` bytes from `a` take free values, the first of index `k`: a page whose program was cut short (R216, U20). -/
def spoil (d : Byte) : Memory → Nat → Nat → Nat → Memory
  | m, _, 0, _ => m
  | m, a, n + 1, k => spoil d (write d m a (Config.freeByte k)) (a + 1) n (k + 1)

end Memory

end Sys2Proof.Machine
end

