-- ==== Sys2Proof/Machine/Operands.lean ====
section
/-! DEFINITION. The operand arithmetic of the block: the capacity table (R29), block numbers to sectors, offsets and
addresses (R53 to R55, R160), slices of the cache buffer (R7, R25), the device range (R56). -/

namespace Sys2Proof.Machine

/-- `lookup(id)` (R29). -/
def lookup (c : Config) (id : Word16) : Word32 :=
  if id = c.idA then BitVec.ofNat 32 Config.capA
  else if id = c.idB then BitVec.ofNat 32 Config.capB
  else c.capUnknown

/-- "The device is present exactly when `deviceId` is `ID_A` or `ID_B`" (R29, R142). -/
def knownId (c : Config) (id : Word16) : Bool := id == c.idA || id == c.idB

/-- `resolve(b) -> (S, off)` (R54, R160). -/
def resolve (c : Config) (b : Nat) : Nat × Nat :=
  (b / c.blocksPerSector, b % c.blocksPerSector * c.blockSize)

/-- The base address of a sector (R54). -/
def sectorBase (c : Config) (sector : Nat) : Nat := sector * c.sectorSize

/-- The flash address of page `p` of a sector (R55). -/
def pageAddr (c : Config) (sector p : Nat) : Nat := sectorBase c sector + p * c.pageSize

/-- `blockCount = pageCount div 2` (R43, R186). -/
def blockCountOf (s : State) : Nat := s.pageCount.toNat / Config.pagesPerBlock

/-- `B[o +: n]` (R7). -/
def slice (buf : List Byte) (off n : Nat) : List Byte := (buf.drop off).take n

/-- `B[o +: n] <- data`, in a buffer "of fixed size, never grown" (R7, R25). -/
def splice (buf : List Byte) (off : Nat) (data : List Byte) : List Byte :=
  buf.take off ++ data.take (buf.length - off) ++ buf.drop (off + data.length)

/-- An address is a multiple of `g` (R57). -/
def isMultiple (g : Nat) (a : Addr) : Bool := a.toNat % g == 0

/-- The address whose three wire bytes were received, most significant first (R50). -/
def addrFrom : List Byte → Addr
  | [a2, a1, a0] => joinAddr a2 a1 a0
  | _ => 0

/-- The free bytes of indices `k` to `k + n - 1`. -/
def freeBytes (k n : Nat) : List Byte := (List.range n).map fun i => Config.freeByte (k + i)

end Sys2Proof.Machine
end

