-- ==== Sys2Proof/Machine/Flags.lean ====
section
/-! DEFINITION. The flags: the cache state they stand for (R26), the chip's busy bit (R34, R95), the reentrancy flag and
whether the sequencer can take a request (R27, R180). -/

namespace Sys2Proof.Machine

/-- "Three effective states per sector slot" (R26). -/
inductive CacheState where
  | empty
  | clean (sector : Word32)
  | dirty (sector : Word32)
  deriving DecidableEq, Repr

/-- The cache state the two flags stand for; the fourth combination is excluded (R23, R26). -/
def cacheState (s : State) : Option CacheState :=
  match s.loaded, s.dirty with
  | false, false => some .empty
  | true, false => some (.clean s.sectorNumber)
  | true, true => some (.dirty s.sectorNumber)
  | false, true => none

/-- `chipBusy = s[0]` (R95); bits 7 to 1 are ignored (R34). -/
def statusBusy (v : Byte) : Bool := v.getLsbD 0

/-- A status byte with the busy bit 0; bits 7 to 1 stay as they are (R34). -/
def clearBusyBit (v : Byte) : Byte := v &&& 0xFE

/-- Only `readBlock` and `writeBlock` hold the reentrancy flag (R27, D16). -/
def Op.holdsBusy : Op → Bool
  | .readBlock _ => true
  | .writeBlock => true
  | .init => false
  | .flush => false
  | .reformat => false
  | .direct _ => false

/-- The sequencer runs an operation during which a state-changing request has no meaning: one that does not hold
`busy` (R180, R208 step 2; D18). A running read or write whose `busy` is 0 has no row in R180 and counts too; no run
reaches it (log 11). -/
def occupied (s : State) : Bool :=
  match s.seq with
  | .idle => false
  | .run op _ => !(op.holdsBusy && s.busy)

/-- A hit (R164): the cache holds this sector. -/
def hit (s : State) (sector : Nat) : Bool := s.loaded && s.sectorNumber == BitVec.ofNat 32 sector

end Sys2Proof.Machine
end

