-- ==== Sys2Proof/Machine/Chip.lean ====
section
/-! DEFINITION. The stand-in flash chip, the block's environment (20_memory.md section 6; D34). It takes the bytes of a
transaction one by one, answers each, and acts when chip-select is released (G11); its effects take place at the
command (D34). What the spec says no chip behaviour for, it refuses (R81). -/

namespace Sys2Proof.Machine

/-- What the chip returns during one transfer. -/
inductive Answer where
  /-- any value (U9, U10, U19) -/
  | any
  /-- the status register (R77) -/
  | status
  /-- this byte -/
  | byte (b : Byte)
  deriving DecidableEq, Repr

/-- The number of bytes the chip holds (R73, R79); an absent chip holds none. -/
def Chip.size : ChipKind → Nat
  | .partA => Config.capA
  | .partB => Config.capB
  | .absent => 0

/-- The identifier a present chip answers (R79). -/
def Chip.identifier (c : Config) : ChipKind → Word16
  | .partB => c.idB
  | _ => c.idA

/-- The address bytes received so far make this address (R50). -/
def Txn.address (t : Txn) : Nat := (addrFrom t.addr).toNat

/-- One more byte received after the opcode. -/
def Txn.push (t : Txn) (b : Byte) : Txn :=
  if t.count < 3 then { t with count := t.count + 1, addr := t.addr ++ [b] }
  else { t with count := t.count + 1, data := b :: t.data }

/-- The answer to the next byte of a transaction: READ data from its fourth byte on (R76), anything past the end
(U19); the status register (R77); the identifier high byte first after three address bytes (R79, R129); the unique
identifier after four dummies (R130); else any value (R92). -/
def Chip.answer (c : Config) (k : Chip) (t : Txn) : Answer :=
  if t.op = c.opRdsr1 then .status
  else if t.op = c.opRead then
    if 3 ≤ t.count ∧ t.address + (t.count - 3) < Chip.size k.kind then
      .byte (Memory.read c.erasedByte k.mem (t.address + (t.count - 3)))
    else .any
  else if t.op = c.opRdid then
    if t.count = 3 then .byte (idBytes (Chip.identifier c k.kind)).1
    else if t.count = 4 then .byte (idBytes (Chip.identifier c k.kind)).2
    else .any
  else if t.op = c.opRduid then
    if 4 ≤ t.count ∧ t.count < 12 then .byte (Config.uniqueId (t.count - 4)) else .any
  else .any

/-- The chip takes one byte. The first of a transaction is the opcode: one it does not know, and any but RDSR1 while
busy, it refuses (R81). An absent or foreign chip answers any value to everything (R80). -/
def Chip.take (c : Config) (k : Chip) (out : Byte) : Except Refusal (Answer × Chip) :=
  match k.kind with
  | .absent => .ok (.any, k)
  | _ =>
    match k.txn with
    | none =>
      if out ∉ c.opcodes then .error .chipUnknownOpcode
      else if k.busy ≠ .ready ∧ out ≠ c.opRdsr1 then .error .chipBusy
      else .ok (.any, { k with txn := some { op := out, count := 0, addr := [], data := [] } })
    | some t => .ok (k.answer c t, { k with txn := some (t.push out) })

/-- Which `n` bytes of the chip, from an aligned address, a command acts on whose own address the chip does not have, if
it acts on any: not in the source, so free (log 15). -/
def Chip.strayTarget (size n draws : Nat) : Option Nat :=
  if Config.freeFlag draws then some (Config.freeTarget draws % (size / n) * n) else none

/-- The chip after a program command (R75): the page is stored, the chip is busy (R77) and write-disabled (G10). At an
address the chip does not have (R42) the command runs too ("no fault on any address", R62), and the page it spoils, if
any, is free (log 15). -/
def Chip.programmed (c : Config) (k : Chip) (a : Nat) (data : List Byte) (draws : Nat) : Chip :=
  if a + data.length ≤ Chip.size k.kind then
    { k with mem := Memory.program c.erasedByte k.mem a data draws, busy := .programming a, wel := false, txn := none }
  else
    { k with
      mem := match Chip.strayTarget (Chip.size k.kind) data.length draws with
        | some p => Memory.spoil c.erasedByte k.mem p data.length draws
        | none => k.mem
      busy := .other, wel := false, txn := none }

/-- The region an erase command of `g` bytes at `a` erases: the aligned one that contains the address (R74, G7), if the
chip has it, else a free one or none (log 15). -/
def Chip.regionTarget (k : Chip) (a g draws : Nat) : Option Nat :=
  if a < Chip.size k.kind then some (a / g * g) else Chip.strayTarget (Chip.size k.kind) g draws

/-- The chip after an erase command of `g` bytes (R74). -/
def Chip.erased (k : Chip) (a g draws : Nat) : Chip :=
  { k with
    mem := match k.regionTarget a g draws with
      | some p => Memory.erase k.mem p g
      | none => k.mem
    busy := .other, wel := false, txn := none }

/-- A program command takes effect if the latch is set (R78). -/
def Chip.programNow (c : Config) (k : Chip) (a : Nat) (data : List Byte) (draws : Nat) : Except Refusal Chip :=
  if ¬ k.wel then .error .chipNotWriteEnabled else .ok (k.programmed c a data draws)

/-- An erase command of `g` bytes takes effect if the latch is set (R78). -/
def Chip.eraseNow (k : Chip) (a g draws : Nat) : Except Refusal Chip :=
  if ¬ k.wel then .error .chipNotWriteEnabled else .ok (k.erased a g draws)

/-- A chip erase takes effect (R74: "CE the whole array"). -/
def Chip.eraseAllNow (k : Chip) : Except Refusal Chip :=
  if ¬ k.wel then .error .chipNotWriteEnabled
  else .ok { k with mem := [], busy := .other, wel := false, txn := none }

/-- The block ends a transaction of a length that is not its command's (R81). -/
def Chip.cutShort : Except Refusal Chip := .error .chipCutShort

/-- The command of a finished transaction takes effect; a read changes nothing (R61). -/
def Chip.command (c : Config) (k : Chip) (t : Txn) (draws : Nat) : Except Refusal Chip :=
  let quiet : Chip := { k with txn := none }
  if t.op = c.opWren then if t.count = 0 then .ok { quiet with wel := true } else Chip.cutShort
  else if t.op = c.opPp then
    if t.count = 3 + c.pageSize then k.programNow c t.address t.data.reverse draws else Chip.cutShort
  else if t.op = c.opSe4k then if t.count = 3 then k.eraseNow t.address 4096 draws else Chip.cutShort
  else if t.op = c.opBe32k then if t.count = 3 then k.eraseNow t.address 32768 draws else Chip.cutShort
  else if t.op = c.opBe64k then if t.count = 3 then k.eraseNow t.address 65536 draws else Chip.cutShort
  else if t.op = c.opCe then if t.count = 0 then k.eraseAllNow else Chip.cutShort
  else if t.op = c.opRead then if 3 ≤ t.count then .ok quiet else Chip.cutShort
  else if t.op = c.opRdsr1 then if 1 ≤ t.count then .ok quiet else Chip.cutShort
  else if t.op = c.opRdid then if 5 ≤ t.count then .ok quiet else Chip.cutShort
  else if 12 ≤ t.count then .ok quiet else Chip.cutShort

/-- Chip-select is released. -/
def Chip.release (c : Config) (k : Chip) (draws : Nat) : Except Refusal Chip :=
  match k.kind with
  | .absent => .ok k
  | _ =>
    match k.txn with
    | none => Chip.cutShort
    | some t => k.command c t draws

/-- The page a program command at `a` stores to: its own, if the chip has it, else a free one or none. -/
def Chip.pageTarget (c : Config) (k : Chip) (a draws : Nat) : Option Nat :=
  if a + c.pageSize ≤ Chip.size k.kind then some a else Chip.strayTarget (Chip.size k.kind) c.pageSize draws

/-- A program command whose address has arrived is cut: its page holds any value (R216, U20), and whether the chip took
the command, and so is busy, and whether it cleared the latch, are free (log 18). -/
def Chip.programCut (c : Config) (k : Chip) (a draws : Nat) : Chip :=
  match k.pageTarget c a draws with
  | some p => { k with
      mem := Memory.spoil c.erasedByte k.mem p c.pageSize draws
      busy := if Config.freeFlag (draws + 1) then .programming p else .ready
      wel := k.wel && Config.freeFlag (draws + 2)
      txn := none }
  | none => { k with txn := none }

/-- A reset of the block (R230) or a loss of power (R216) ends the transaction in progress. "A page cut mid-program" holds
any value (U20); whether any other command whose bytes have all been sent takes effect is free; one cut shorter changes
nothing, and a read-type command never does (R61; log 18). -/
def Chip.cut (c : Config) (k : Chip) (draws : Nat) : Chip :=
  match k.kind with
  | .absent => k
  | _ =>
    match k.txn with
    | none => k
    | some t =>
      if t.op = c.opPp then
        if 3 ≤ t.count then k.programCut c t.address draws else { k with txn := none }
      else match k.command c t draws with
        | .ok k' => if Config.freeFlag (draws + 1) then k' else { k with txn := none }
        | .error _ => { k with txn := none }

/-- The chip after its power returns: what it was programming holds any value (R216, G14), and whether it is busy and
whether its latch is set are not in the source (R77, N14), so both are free (log 18). No chip stays no chip. -/
def Chip.powerUp (c : Config) (k : Chip) (draws : Nat) : Chip :=
  match k.kind with
  | .absent => k
  | _ => { k with
    mem := match k.busy with
      | .programming a => Memory.spoil c.erasedByte k.mem a c.pageSize draws
      | _ => k.mem
    busy := if Config.freeFlag draws then .other else .ready
    wel := Config.freeFlag (draws + 1)
    txn := none }

end Sys2Proof.Machine
end

