-- ==== Sys2Proof/Machine/Bus.lean ====
section
/-! DEFINITION. The bus port: `Select`, `Xfer`, `Deselect` (R35), each recorded in the history (R38), and the draws of
free values (log 7, log 8). -/

namespace Sys2Proof.Machine

/-- A free byte the block does not keep (U9). -/
def drawByte (s : State) : Byte × State :=
  (Config.freeByte s.draws, { s with draws := s.draws + 1 })

/-- The environment's next answer: the next one it has settled on, else a free one (log 8). -/
def nextAnswer (s : State) : Byte := s.choices.headD (Config.freeAnswer s.asked)

/-- That answer is used up. -/
def answered (s : State) : State :=
  { s with choices := s.choices.tail, asked := if s.choices = [] then s.asked + 1 else s.asked }

/-- The status byte of a chip in this busy condition (R34, R77): a ready chip reads bit 0 as 0, a busy one as the
environment decides; bits 7 to 1 are any value. -/
def statusByte (busy : ChipBusy) (v : Byte) : Byte := if busy = .ready then clearBusyBit v else v

/-- The busy condition after a status read: ready once bit 0 reads 0 (R77: "the environment decide[s], at each poll,
whether the bit has cleared"). -/
def busyAfterRead (busy : ChipBusy) (v : Byte) : ChipBusy := if statusBusy v then busy else .ready

/-- A present chip's status register is read (R77). -/
def readStatus (s : State) : Byte × State :=
  (statusByte s.chip.busy (nextAnswer s),
    { answered s with chip := { s.chip with busy := busyAfterRead s.chip.busy (nextAnswer s) } })

/-- The byte returned for an answer; `kept` says whether the block keeps it. -/
def answerByte (kept : Bool) (a : Answer) (s : State) : Byte × State :=
  match a with
  | .byte b => (b, s)
  | .status => readStatus s
  | .any => if kept then (nextAnswer s, answered s) else drawByte s

/-- An opcode reaches the chip. Its busy time is one "the chip chooses" (R77), over "when the environment chooses" (D34): the
end can show at a poll, or here, at the opcode of any other command; there too the environment's next answer, read as a
status byte, says whether it has come (log 30). -/
def busyAtOpcode (out : Byte) (s : State) : State :=
  if s.chip.kind = .absent ∨ s.chip.txn ≠ none ∨ s.chip.busy = .ready ∨ out = s.cfg.opRdsr1 then s
  else (readStatus s).2

/-- `Select()`: `cs <- 1` (R35). -/
def busSelect (s : State) : Except Refusal State :=
  if s.cs then .error .illegalBusAction
  else .ok { s with
    cs := true, rx := [], chip := { s.chip with txn := none }, history := .sel :: s.history }

/-- One byte goes out and one comes in. -/
def transfer (kept : Bool) (out : Byte) (s : State) : Except Refusal State :=
  match s.chip.take s.cfg out with
  | .error e => .error e
  | .ok (a, chip) =>
    let r := answerByte kept a { s with chip := chip }
    .ok { r.2 with
      rx := if kept then r.2.rx ++ [r.1] else r.2.rx, history := .x out r.1 :: r.2.history }

/-- `Xfer(out) -> in` (R35): "only legal while `cs = 1`". -/
def busXfer (kept : Bool) (out : Byte) (s : State) : Except Refusal State :=
  if ¬ s.cs then .error .illegalBusAction else transfer kept out (busyAtOpcode out s)

/-- `Deselect()`: `cs <- 0` (R35), and the chip's command takes effect. -/
def busDeselect (s : State) : Except Refusal State :=
  if ¬ s.cs then .error .illegalBusAction
  else match s.chip.release s.cfg s.draws with
    | .error e => .error e
    | .ok chip => .ok { s with
      cs := false, chip := chip, draws := s.draws + s.cfg.pageSize, history := .des :: s.history }

end Sys2Proof.Machine
end

