-- ==== Sys2Proof/Machine/Driver.lean ====
section
/-! DEFINITION. The chip protocol driver: the ten wire commands as bus events (40_wire_commands.md R120 to R130) and the
primitives that expand into them (41_driver_primitives.md R140 to R148). No primitive names a cache element (R150). -/

namespace Sys2Proof.Machine

namespace Driver

/-- One wire command (R90, R120): select, send these bytes, keep this many answers, deselect. -/
def transaction (sent : List Byte) (kept : Nat) : List Micro :=
  .sel :: (sent.map Micro.send ++ (List.replicate kept Micro.recv ++ [.des]))

/-- R121 -/
def wren (c : Config) : List Micro := transaction [c.opWren] 0

/-- R122 -/
def pp (c : Config) (a : Addr) (d : List Byte) : List Micro := transaction (c.opPp :: addrBytes a ++ d) 0

/-- R123 -/
def read (c : Config) (a : Addr) (n : Nat) : List Micro := transaction (c.opRead :: addrBytes a) n

/-- R124 -/
def rdsr1 (c : Config) : List Micro := transaction [c.opRdsr1] 1

/-- R125 -/
def se4k (c : Config) (a : Addr) : List Micro := transaction (c.opSe4k :: addrBytes a) 0

/-- R126 -/
def be32k (c : Config) (a : Addr) : List Micro := transaction (c.opBe32k :: addrBytes a) 0

/-- R127 -/
def be64k (c : Config) (a : Addr) : List Micro := transaction (c.opBe64k :: addrBytes a) 0

/-- R128 -/
def ce (c : Config) : List Micro := transaction [c.opCe] 0

/-- R129: opcode, three address bytes of zero, two answers (D7). -/
def rdid (c : Config) : List Micro := transaction [c.opRdid, 0, 0, 0] 2

/-- R130: opcode, four dummies, eight answers (D32). -/
def rduid (c : Config) : List Micro := transaction (c.opRduid :: dummies c 4) 8

/-- One poll of a busy-wait in which `polls` polls have read 1, and the test that ends it or asks for another
(R140; each poll a whole transaction, D9). -/
def poll (c : Config) (polls : Nat) : List Micro := rdsr1 c ++ [.untilReady polls]

/-- `waitReady()` (R140): at least one poll. -/
def waitReady (c : Config) : List Micro := poll c 0

/-- `detect()` (R141). -/
def detect (c : Config) : List Micro := rdid c

/-- `readBytes(address, count)` (R144): one READ, no WREN before it and no wait after it. -/
def readBytes (c : Config) (a : Addr) (n : Nat) : List Micro := read c a n

/-- `programPage(address, pageBytes)` (R145). -/
def programPage (c : Config) (a : Addr) (d : List Byte) : List Micro := wren c ++ pp c a d ++ waitReady c

/-- The erase command of a granularity (R98): "three sizes supported, command selects which"; any other has none. -/
def eraseCommand (c : Config) (a : Addr) (g : Nat) : List Micro :=
  if g = 4096 then se4k c a
  else if g = 32768 then be32k c a
  else if g = 65536 then be64k c a
  else [.refuse .noEraseCommand]

/-- `eraseSector(address, granularity)` (R146). -/
def eraseSector (c : Config) (a : Addr) (g : Nat) : List Micro := wren c ++ eraseCommand c a g ++ waitReady c

/-- `eraseChip()` (R147). -/
def eraseChip (c : Config) : List Micro := wren c ++ ce c ++ waitReady c

/-- `readUniqueId()` (R148). -/
def readUniqueId (c : Config) : List Micro := rduid c

end Driver

end Sys2Proof.Machine
end

