-- ==== Sys2Proof/Machine/Ops.lean ====
section
/-! DEFINITION. The named operations every meaning is built from: one micro-operation, a run of them up to a suspension
point, the end of an operation and its response, admission, and the reset and power-loss events.

The spec describes no exception: "There is no trap mechanism (G4). No state is saved, no mode changes, no vector is
fetched, no handler runs" (R206), "There are no interrupts" (R207), and "There is no return-from-trap operation because
nothing is entered" (R209). So no operation here takes an exception or returns from one; the abnormal outcomes of R200
are a failure status, a drop, and a busy-wait that goes on. -/

namespace Sys2Proof.Machine

/-! ### Host arrivals -/

/-- The first input to come is due now: it is presented before the next bus event (R180, D28). -/
def interrupted (s : State) : Bool :=
  match s.inbox with
  | ⟨.after 0, _⟩ :: _ => true
  | _ => false

/-- One bus event or state write passes: a timed first input comes one nearer. -/
def tick (s : State) : State :=
  match s.inbox with
  | ⟨.after (n + 1), i⟩ :: rest => { s with inbox := ⟨.after n, i⟩ :: rest }
  | _ => s

/-- The input that is presented now, and those after it: one that is due, or one that waits for the sequencer to be
idle when it is. -/
def presented (s : State) : Option (Input × List Arrival) :=
  match s.inbox with
  | ⟨.after 0, i⟩ :: rest => some (i, rest)
  | ⟨.whenIdle, i⟩ :: rest => if s.seq = .idle then some (i, rest) else none
  | _ => none

/-! ### One micro-operation -/

/-- What one micro-operation leads to. -/
inductive Progress where
  | go (s : State)
  /-- a poll read busy: these go before what is left (R140) -/
  | again (more : List Micro) (s : State)
  /-- the busy-wait reached `POLL_LIMIT` (R204) -/
  | giveUp (s : State)
  | stop (e : Refusal)
  deriving DecidableEq, Repr

/-- A bus action as progress. -/
def onBus : Except Refusal State → Progress
  | .ok s => .go s
  | .error e => .stop e

/-- The status byte kept from the last poll (R95). -/
def polledStatus (s : State) : Byte := s.rx.headD 0

/-- `until s[0] == 0` (R140). Without a limit a poll that reads busy is followed by another; with `POLL_LIMIT` = `n`
the wait is given up after `n` of them (R204). -/
def waitTest (polls : Nat) (s : State) : Progress :=
  if ¬ statusBusy (polledStatus s) then .go s
  else match s.cfg.pollLimit with
    | none => .again (Driver.poll s.cfg (polls + 1)) s
    | some n => if n ≤ polls + 1 then .giveUp s else .again (Driver.poll s.cfg (polls + 1)) s

/-- The identifier kept from an RDID: `id = h ++ l` (R94). -/
def receivedId (s : State) : Word16 := joinId (s.rx.getD 0 0) (s.rx.getD 1 0)

/-- `pageCount` after a detection (R30, R181): `capacity div PAGE_SIZE`, or any value when the device is unknown. -/
def latchPageCount (s : State) : State :=
  if s.capacity ≠ s.cfg.capUnknown then
    { s with pageCount := BitVec.ofNat 32 (s.capacity.toNat / s.cfg.pageSize) }
  else { s with pageCount := Config.freeWord s.draws, draws := s.draws + 1 }

/-- One bus event or one state write. -/
def perform (m : Micro) (s : State) : Progress :=
  match m with
  | .sel => onBus (busSelect s)
  | .des => onBus (busDeselect s)
  | .send out => onBus (busXfer false out s)
  | .recv => onBus (busXfer true s.cfg.dummyOut s)
  | .untilReady polls => waitTest polls s
  | .configureClock => .go s
  | .latchId => .go { s with deviceId := receivedId s }
  | .latchCapacity => .go { s with capacity := lookup s.cfg s.deviceId }
  | .latchPageCount => .go (latchPageCount s)
  | .latchInitialized => .go { s with initialized := s.capacity != s.cfg.capUnknown }
  | .setLoaded b => .go { s with loaded := b }
  | .setSector n => .go { s with sectorNumber := BitVec.ofNat 32 n }
  | .storePage p => .go { s with buffer := splice s.buffer (p * s.cfg.pageSize) s.rx }
  | .setDirty b => .go { s with dirty := b }
  | .copyIn off data => .go { s with buffer := splice s.buffer off data }
  | .invalidate => .go { s with loaded := false, dirty := false }
  | .refuse r => .stop r

/-! ### A run of micro-operations -/

/-- Where a run ends. -/
inductive Drive where
  /-- everything was done -/
  | done (s : State)
  /-- a suspension point: a poll that read busy ("It is the only suspension point", R140), or a host arrival -/
  | paused (rest : List Micro) (s : State)
  | gaveUp (s : State)
  | stopped (e : Refusal)
  deriving DecidableEq, Repr

/-- Perform micro-operations in order up to the next suspension point (R32; log 9). -/
def drive : List Micro → State → Drive
  | [], s => .done s
  | m :: rest, s =>
    if interrupted s then .paused (m :: rest) s
    else match perform m (tick s) with
      | .go s' => drive rest s'
      | .again more s' => .paused (more ++ rest) s'
      | .giveUp s' => .gaveUp s'
      | .stop e => .stopped e

/-! ### Responses and the end of an operation -/

/-- Give the host a response (R36); a field that is not meaningful for the operation is any value (U16). -/
def respond (status : Option (BitVec 1)) (value : Option Word32) (rdata : Option (List Byte)) (s : State) : State :=
  { s with
    responses := { status := status.getD (Config.freeStatus s.draws)
                   value := value.getD (Config.freeWord s.draws)
                   rdata := rdata.getD (freeBytes s.draws s.cfg.blockSize) } :: s.responses
    draws := s.draws + (s.cfg.blockSize + 1) }

/-- The value a directly called wire command or primitive returns (R121 to R130, R140 to R148). -/
def returned (s : State) : Returns → Value
  | .nothing => .none
  | .bytes => .bytes s.rx
  | .identifier => .identifier (receivedId s)
  | .present => .bool (knownId s.cfg (receivedId s))
  | .capacity => .word (lookup s.cfg (receivedId s))

/-- `STATUS_SUCCESS` exactly when INITIALIZE found a device (R181). -/
def initStatus (s : State) : BitVec 1 := if s.initialized then s.cfg.statusSuccess else s.cfg.statusFailure

/-- The end of an operation: `busy <- 0` if it held the flag (R165), the response (R36), `seq <- Idle` (R32), as one
write (log 11). READ_BLOCK and WRITE_BLOCK always succeed (R182, R183); FLUSH and REFORMAT have no meaningful
response field (R184, R185). -/
def complete (op : Op) (s : State) : State :=
  match op with
  | .init => respond (some (initStatus s)) none none { s with seq := .idle }
  | .readBlock off =>
    respond (some s.cfg.statusSuccess) none (some (slice s.buffer off s.cfg.blockSize))
      { s with seq := .idle, busy := false }
  | .writeBlock => respond (some s.cfg.statusSuccess) none none { s with seq := .idle, busy := false }
  | .flush => respond none none none { s with seq := .idle }
  | .reformat => respond none none none { s with seq := .idle }
  | .direct r => { s with seq := .idle, result := returned s r }

/-- An operation given up at `POLL_LIMIT`: "ends the host operation with `STATUS_FAILURE`, leaving the state as rule
R203 describes, and must clear `busy`" (R204; log 21). -/
def abandon (op : Op) (s : State) : State :=
  match op with
  | .direct _ => { s with seq := .idle, result := .none }
  | _ => respond (some s.cfg.statusFailure) none none { s with seq := .idle, busy := false }

/-- The outcome of a run of an operation. -/
def settle (op : Op) : Drive → Host.Outcome State Fault Refusal
  | .done s => .next (complete op s)
  | .paused rest s => .next { s with seq := .run op rest }
  | .gaveUp s => .next (abandon op s)
  | .stopped e => .refused e

/-- Let the sequencer perform an operation from here. -/
def start (op : Op) (rest : List Micro) (s : State) : Host.Outcome State Fault Refusal :=
  settle op (drive rest s)

/-- No input is presented: a running operation goes on; an idle block waits for its first request (R40). -/
def resume (s : State) : Host.Outcome State Fault Refusal :=
  match s.seq with
  | .idle => .next (tick s)
  | .run op rest => start op rest s

/-- A wire command or primitive called directly: the bus must be free ("The sequencer performs one wire command at a
time", R120; log 13). -/
def direct (ret : Returns) (rest : List Micro) (s : State) : Host.Outcome State Fault Refusal :=
  if s.seq = .idle then start (.direct ret) rest s else .refused .sequencerOccupied

/-- The checks READ_BLOCK, WRITE_BLOCK, FLUSH and REFORMAT share (R208 steps 2 and 4), then `k`. -/
def admitted (s : State) (k : Host.Outcome State Fault Refusal) : Host.Outcome State Fault Refusal :=
  if occupied s then .refused .sequencerOccupied
  else if ¬ s.initialized then .refused .notInitialized
  else k

/-- The range check of READ_BLOCK and WRITE_BLOCK (R192; R208 step 5), then `k`. -/
def inRange (blk : Word32) (s : State) (k : Host.Outcome State Fault Refusal) : Host.Outcome State Fault Refusal :=
  if blockCountOf s ≤ blk.toNat then .refused .blockOutOfRange else k

/-- Answer a query at once from the current state (R180, D40). -/
def answerQuery (value : Option Word32) (s : State) : Host.Outcome State Fault Refusal :=
  .next (respond none value none s)

/-! ### Primitives called directly -/

/-- A driver primitive called from outside (R140 to R148), with the `refuse` points R58 and R98 ask for. -/
def callPrimitive (p : Primitive) (s : State) : Host.Outcome State Fault Refusal :=
  match p with
  | .waitReady => direct .nothing (Driver.waitReady s.cfg) s
  | .detect => direct .identifier (Driver.detect s.cfg) s
  | .isPresent => direct .present (Driver.detect s.cfg) s
  | .capacity => direct .capacity (Driver.detect s.cfg) s
  | .readBytes a n => direct .bytes (Driver.readBytes s.cfg a n) s
  | .programPage a d =>
    if ¬ isMultiple s.cfg.pageSize a then .refused .misaligned
    else if d.length ≠ s.cfg.pageSize then .refused .wrongPageLength
    else direct .nothing (Driver.programPage s.cfg a d) s
  | .eraseSector a g =>
    if g ∉ Config.eraseSizes then .refused .noEraseCommand
    else if ¬ isMultiple g a then .refused .misaligned
    else direct .nothing (Driver.eraseSector s.cfg a g) s
  | .eraseChip => direct .nothing (Driver.eraseChip s.cfg) s
  | .readUniqueId => direct .bytes (Driver.readUniqueId s.cfg) s

/-! ### Reset and power loss -/

/-- The block in its reset state (R40, R230), the environment and the records as they were: "Reset does not touch the
flash chip's content and sends nothing on the bus". -/
def blockReset (chip : Chip) (draws : Nat) (s : State) : State :=
  { State.reset with
    cfg := s.cfg
    buffer := List.replicate s.cfg.sectorSize 0
    chip := chip
    choices := s.choices
    asked := s.asked
    draws := draws
    inbox := s.inbox
    responses := s.responses
    history := s.history }

/-- The chip when the block lets go of chip-select without finishing: untouched unless a transaction was going on. -/
def chipAfterCut (s : State) : Chip := if s.cs then s.chip.cut s.cfg s.draws else s.chip

/-- The index of the first free value a cut does not use. -/
def drawsAfterCut (s : State) : Nat := s.draws + s.cfg.pageSize + 3

/-- The reset event (R230): "Reset is the only way out of a hang". -/
def resetEvent (s : State) : Host.Outcome State Fault Refusal :=
  .next (blockReset (chipAfterCut s) (drawsAfterCut s) s)

/-- Power is lost and returns (R216): "the block is in its reset state, the flash holds what had been programmed". -/
def powerLossEvent (s : State) : Host.Outcome State Fault Refusal :=
  .next (blockReset ((chipAfterCut s).powerUp s.cfg (drawsAfterCut s))
    (drawsAfterCut s + s.cfg.pageSize + 2) s)

end Sys2Proof.Machine
end

