-- ==== Sys2Proof/Machine/Cache.lean ====
section
/-! DEFINITION. The block translation layer's internal operations as micro-operations, unfolded when the operation is
dispatched (42_cache_operations.md R162 to R164; log 26). -/

namespace Sys2Proof.Machine

namespace Cache

/-- `loadSector(S)` (R162): one READ of a page for each page, ascending (D12); `loaded` cleared first, `sectorNumber`
and `loaded` written last (D13). -/
def loadSector (c : Config) (sector : Nat) : List Micro :=
  .setLoaded false ::
    ((List.range c.pagesPerSector).flatMap (fun p =>
        Driver.readBytes c (addrOf (pageAddr c sector p)) c.pageSize ++ [.storePage p])
      ++ [.setSector sector, .setLoaded true])

/-- The body of `flushCache()` for a dirty sector (R163): erase it, reprogram every page in order from the buffer, then
clear `dirty` (D14). -/
def flushSector (c : Config) (sector : Nat) (buffer : List Byte) : List Micro :=
  Driver.eraseSector c (addrOf (sectorBase c sector)) c.sectorSize
    ++ (List.range c.pagesPerSector).flatMap (fun p =>
        Driver.programPage c (addrOf (pageAddr c sector p)) (slice buffer (p * c.pageSize) c.pageSize))
    ++ [.setDirty false]

/-- `flushCache()` (R163): nothing when not dirty. -/
def flushCache (s : State) : List Micro :=
  if s.dirty then flushSector s.cfg s.sectorNumber.toNat s.buffer else []

/-- `ensureSector(S)` (R164): a hit does nothing; else a dirty sector is flushed, and `S` is loaded. -/
def ensureSector (s : State) (sector : Nat) : List Micro :=
  if hit s sector then [] else flushCache s ++ loadSector s.cfg sector

end Cache

end Sys2Proof.Machine
end

