-- ==== Sys2Proof/Machine/HostOps.lean ====
section
/-! DEFINITION. The meanings of the five state-changing host operations (43_host_interface.md R181 to R185), with the
order of checks of R208. -/

namespace Sys2Proof.Machine

/-- The body of INITIALIZE (R181): the clock, one RDID (D24), the four registers. -/
def initBody (c : Config) : List Micro :=
  .configureClock :: (Driver.detect c ++ [.latchId, .latchCapacity, .latchPageCount, .latchInitialized])

/-- INITIALIZE (R181): refused after a success (D23) and while `busy = 1` (D17). -/
def execInit (s : State) : Host.Outcome State Fault Refusal :=
  if occupied s then .refused .sequencerOccupied
  else if s.initialized then .refused .alreadyInitialized
  else if s.busy then .refused .busyReentry
  else start .init (initBody s.cfg) s

/-- A dropped read, write or flush: "return immediately as a no-op success" (R165, R200, R202); the data is any value
(R182). -/
def dropGuarded (s : State) : Host.Outcome State Fault Refusal :=
  .next (respond (some s.cfg.statusSuccess) none none s)

/-- READ_BLOCK (R182, R166): dropped while `busy = 1`; else the guard is taken, the sector made resident, and the block
copied out of the cache. -/
def execReadBlock (blk : Word32) (s : State) : Host.Outcome State Fault Refusal :=
  admitted s <| inRange blk s <|
    if s.busy then dropGuarded s
    else
      start (.readBlock (resolve s.cfg blk.toNat).2)
        (Cache.ensureSector s (resolve s.cfg blk.toNat).1) { s with busy := true }

/-- The body of `writeBlock` (R167): the sector made resident, the block copied into the cache, `dirty` set. -/
def writeBody (s : State) (blk : Nat) (data : List Byte) : List Micro :=
  Cache.ensureSector s (resolve s.cfg blk).1 ++ [.copyIn (resolve s.cfg blk).2 data, .setDirty true]

/-- WRITE_BLOCK (R183, R167). -/
def execWriteBlock (blk : Word32) (data : List Byte) (s : State) : Host.Outcome State Fault Refusal :=
  admitted s <| inRange blk s <|
    if data.length ≠ s.cfg.blockSize then .refused .wrongBlockLength
    else if s.busy then dropGuarded s
    else start .writeBlock (writeBody s blk.toNat data) { s with busy := true }

/-- FLUSH (R184, R168): dropped with success while `busy = 1` (R200, D17); the response of one that is carried out has no
meaningful field. -/
def execFlush (s : State) : Host.Outcome State Fault Refusal :=
  admitted s <|
    if s.busy then dropGuarded s
    else start .flush (Cache.flushCache s) s

/-- REFORMAT (R185, R169): erase the chip, then forget the cache; no flush. Refused while `busy = 1` (D17). -/
def execReformat (s : State) : Host.Outcome State Fault Refusal :=
  admitted s <|
    if s.busy then .refused .busyReentry
    else start .reformat (Driver.eraseChip s.cfg ++ [.invalidate]) s

end Sys2Proof.Machine
end

