-- ==== Sys2Proof/Machine/Queries.lean ====
section
/-! DEFINITION. The meanings of the five queries (43_host_interface.md R186 to R190): answered at once whatever the
sequencer does, without a bus event (R180, D40). -/

namespace Sys2Proof.Machine

/-- A query that means something only after a successful INITIALIZE; before it the answer is any value (R191, U6). -/
def answerSized (value : Word32) (s : State) : Host.Outcome State Fault Refusal :=
  answerQuery (if s.initialized then some value else none) s

/-- BLOCK_COUNT (R186): "half the total page count". -/
def execBlockCount (s : State) : Host.Outcome State Fault Refusal :=
  answerSized (BitVec.ofNat 32 (blockCountOf s)) s

/-- TOTAL_SIZE (R187, D31). -/
def execTotalSize (s : State) : Host.Outcome State Fault Refusal :=
  answerSized (BitVec.ofNat 32 (blockCountOf s * s.cfg.blockSize)) s

/-- BLOCK_SIZE (R188): `2 * PAGE_SIZE`, valid also before INITIALIZE. -/
def execBlockSize (s : State) : Host.Outcome State Fault Refusal :=
  answerQuery (some (BitVec.ofNat 32 s.cfg.blockSize)) s

/-- SUPPORTS_DMA (R189): "Always false". -/
def execSupportsDma (s : State) : Host.Outcome State Fault Refusal :=
  answerQuery (some 0) s

/-- IS_BUSY (R190): the reentrancy flag, not the chip's busy bit. -/
def execIsBusy (s : State) : Host.Outcome State Fault Refusal :=
  answerQuery (some (if s.busy then 1 else 0)) s

end Sys2Proof.Machine
end

