-- ==== Sys2Proof/Machine/Reserved.lean ====
section
/-! DEFINITION. The six reserved host codes (30_encoding.md R103): "A request with such a code is `refuse`d: the model
gives it no meaning, no response, and marks the run refused". -/

namespace Sys2Proof.Machine

/-- op 0xA (R103). -/
def execReservedA (_s : State) : Host.Outcome State Fault Refusal := .refused .reservedHostCode

/-- op 0xB (R103). -/
def execReservedB (_s : State) : Host.Outcome State Fault Refusal := .refused .reservedHostCode

/-- op 0xC (R103). -/
def execReservedC (_s : State) : Host.Outcome State Fault Refusal := .refused .reservedHostCode

/-- op 0xD (R103). -/
def execReservedD (_s : State) : Host.Outcome State Fault Refusal := .refused .reservedHostCode

/-- op 0xE (R103). -/
def execReservedE (_s : State) : Host.Outcome State Fault Refusal := .refused .reservedHostCode

/-- op 0xF (R103). -/
def execReservedF (_s : State) : Host.Outcome State Fault Refusal := .refused .reservedHostCode

end Sys2Proof.Machine
end

