-- ==== Sys2Proof/Machine/Wire.lean ====
section
/-! DEFINITION. The meanings of the ten wire commands (40_wire_commands.md R121 to R130), called directly: the bus
events of the command, and its result. A misaligned program or erase is refused (R58). -/

namespace Sys2Proof.Machine

/-- WREN (R121). -/
def execWren (s : State) : Host.Outcome State Fault Refusal :=
  direct .nothing (Driver.wren s.cfg) s

/-- PP (R122). -/
def execPp (a : Addr) (d : List Byte) (s : State) : Host.Outcome State Fault Refusal :=
  if ¬ isMultiple s.cfg.pageSize a then .refused .misaligned
  else if d.length ≠ s.cfg.pageSize then .refused .wrongPageLength
  else direct .nothing (Driver.pp s.cfg a d) s

/-- READ (R123). -/
def execRead (a : Addr) (n : Nat) (s : State) : Host.Outcome State Fault Refusal :=
  direct .bytes (Driver.read s.cfg a n) s

/-- RDSR1 (R124). -/
def execRdsr1 (s : State) : Host.Outcome State Fault Refusal :=
  direct .bytes (Driver.rdsr1 s.cfg) s

/-- SE4K (R125). -/
def execSe4k (a : Addr) (s : State) : Host.Outcome State Fault Refusal :=
  if ¬ isMultiple 4096 a then .refused .misaligned else direct .nothing (Driver.se4k s.cfg a) s

/-- BE32K (R126). -/
def execBe32k (a : Addr) (s : State) : Host.Outcome State Fault Refusal :=
  if ¬ isMultiple 32768 a then .refused .misaligned else direct .nothing (Driver.be32k s.cfg a) s

/-- BE64K (R127). -/
def execBe64k (a : Addr) (s : State) : Host.Outcome State Fault Refusal :=
  if ¬ isMultiple 65536 a then .refused .misaligned else direct .nothing (Driver.be64k s.cfg a) s

/-- CE (R128). -/
def execCe (s : State) : Host.Outcome State Fault Refusal :=
  direct .nothing (Driver.ce s.cfg) s

/-- RDID (R129). -/
def execRdid (s : State) : Host.Outcome State Fault Refusal :=
  direct .identifier (Driver.rdid s.cfg) s

/-- RDUID (R130). -/
def execRduid (s : State) : Host.Outcome State Fault Refusal :=
  direct .bytes (Driver.rduid s.cfg) s

end Sys2Proof.Machine
end

