-- ==== Sys2Proof/Machine/Dispatch.lean ====
section
/-! DEFINITION. One arm per instruction: the meaning it runs. -/

namespace Sys2Proof.Machine

def exec (i : Instr) (s : State) : Host.Outcome State Fault Refusal :=
  match i with
  | .wren => Sys2Proof.Machine.execWren s
  | .pp a d => Sys2Proof.Machine.execPp a d s
  | .read a n => Sys2Proof.Machine.execRead a n s
  | .rdsr1 => Sys2Proof.Machine.execRdsr1 s
  | .se4k a => Sys2Proof.Machine.execSe4k a s
  | .be32k a => Sys2Proof.Machine.execBe32k a s
  | .be64k a => Sys2Proof.Machine.execBe64k a s
  | .ce => Sys2Proof.Machine.execCe s
  | .rdid => Sys2Proof.Machine.execRdid s
  | .rduid => Sys2Proof.Machine.execRduid s
  | .init => Sys2Proof.Machine.execInit s
  | .readBlock blk => Sys2Proof.Machine.execReadBlock blk s
  | .writeBlock blk data => Sys2Proof.Machine.execWriteBlock blk data s
  | .flush => Sys2Proof.Machine.execFlush s
  | .reformat => Sys2Proof.Machine.execReformat s
  | .blockCount => Sys2Proof.Machine.execBlockCount s
  | .totalSize => Sys2Proof.Machine.execTotalSize s
  | .blockSize => Sys2Proof.Machine.execBlockSize s
  | .supportsDma => Sys2Proof.Machine.execSupportsDma s
  | .isBusy => Sys2Proof.Machine.execIsBusy s
  | .reservedA => Sys2Proof.Machine.execReservedA s
  | .reservedB => Sys2Proof.Machine.execReservedB s
  | .reservedC => Sys2Proof.Machine.execReservedC s
  | .reservedD => Sys2Proof.Machine.execReservedD s
  | .reservedE => Sys2Proof.Machine.execReservedE s
  | .reservedF => Sys2Proof.Machine.execReservedF s

end Sys2Proof.Machine
end

