-- ==== Sys2Proof/Machine/Step.lean ====
section
/-! DEFINITION. One step: an input that is presented is taken, else the sequencer goes on (R180; log 9, log 10). -/

namespace Sys2Proof.Machine

/-- Take one input from outside. -/
def accept (input : Input) (s : State) : Host.Outcome State Fault Refusal :=
  match input with
  | .frame f =>
    match decode s.cfg f with
    | .ok i => exec i s
    | .error e => .refused (.undecodable e)
  | .primitive p => callPrimitive p s
  | .reset => resetEvent s
  | .powerLoss => powerLossEvent s

/-- One step of the machine. A state that no rule admits as a start state is refused (R26, U17). -/
def step (s : State) : Host.Outcome State Fault Refusal :=
  if cacheState s = none then .refused .excludedCacheState
  else match presented s with
    | some (input, rest) => accept input { s with inbox := rest }
    | none => resume s

/-- The state with a word of the opcode table presented next: a program is loaded from outside the machine, as a list
of requests the host will present (log 10). -/
def State.withFetchWord (s : State) (nbits w : Nat) : State :=
  { s with inbox := ⟨.after 0, .frame (tableFrame s.cfg nbits w)⟩ :: s.inbox }

end Sys2Proof.Machine
end

