-- ==== Sys2Proof/Machine/Trace.lean ====
section
/-! DEFINITION. Reading the bus history (R38): the transactions it holds, the bytes sent in each and the bytes kept, and
the commands they are (R104: "A decoder of the bus history splits it at `Des` events and reads the opcode from the
first `X` of each transaction"). -/

namespace Sys2Proof.Machine

/-- The bytes sent in each transaction, newest first; `sent` are those of the transaction being read. DESIGN CHOICE (log 31):
a transaction without a `Des`, still open or ended by a reset or a loss of power, counts too, with the bytes sent so far;
R104 is silent on it. -/
def framesFrom : List BusEvent → List Byte → List (List Byte)
  | [], _ => []
  | .des :: h, _ => framesFrom h []
  | .x out _ :: h, sent => framesFrom h (out :: sent)
  | .sel :: h, sent => sent :: framesFrom h []

/-- The bytes sent in each transaction of the run so far, oldest first. -/
def frames (s : State) : List (List Byte) := (framesFrom s.history []).reverse

/-- The wire commands of the run so far, oldest first; a transaction that is none of the ten is left out (R99: there is
none). -/
def commands (s : State) : List Instr :=
  (frames s).filterMap fun f =>
    match decode s.cfg (.wire f) with
    | .ok i => some i
    | .error _ => none

/-! ### From commands back to operations -/

/-- The primitives a run of wire commands expands from (R106): WREN with the command it enables and the polls after it
is one primitive (R145 to R147), a run of polls of its own is `waitReady`. `waiting` says that the polls met now belong
to the primitive before. DESIGN CHOICE (log 31): a WREN and its command with no poll after them count as the whole
primitive, an RDID is read as `detect`, which `isPresent` and `capacity` also expand into, and a command that no primitive
sends in that place is left out; R107 is silent on these. -/
def primitivesFrom : Bool → List Instr → List Primitive
  | _, .wren :: .pp a d :: rest => .programPage a d :: primitivesFrom true rest
  | _, .wren :: .se4k a :: rest => .eraseSector a 4096 :: primitivesFrom true rest
  | _, .wren :: .be32k a :: rest => .eraseSector a 32768 :: primitivesFrom true rest
  | _, .wren :: .be64k a :: rest => .eraseSector a 65536 :: primitivesFrom true rest
  | _, .wren :: .ce :: rest => .eraseChip :: primitivesFrom true rest
  | true, .rdsr1 :: rest => primitivesFrom true rest
  | false, .rdsr1 :: rest => .waitReady :: primitivesFrom true rest
  | _, .read a n :: rest => .readBytes a n :: primitivesFrom false rest
  | _, .rdid :: rest => .detect :: primitivesFrom false rest
  | _, .rduid :: rest => .readUniqueId :: primitivesFrom false rest
  | _, _ :: rest => primitivesFrom false rest
  | _, [] => []

/-- What a bus history decodes into (R107). -/
inductive Operation where
  | flushCache (sector : Nat)
  | loadSector (sector : Nat)
  | primitive (p : Primitive)
  deriving DecidableEq, Repr

/-- The flash addresses of the pages of a sector, ascending (R55). -/
def pageAddrs (c : Config) (sector : Nat) : List Addr :=
  (List.range c.pagesPerSector).map fun p => BitVec.ofNat 24 (pageAddr c sector p)

/-- These primitives begin with a program of a page at each of these addresses, in order. -/
def programsAt : List Addr → List Primitive → Bool
  | [], _ => true
  | a :: as, .programPage b _ :: rest => a == b && programsAt as rest
  | _ :: _, _ => false

/-- These primitives begin with a read of `n` bytes at each of these addresses, in order. -/
def readsAt (n : Nat) : List Addr → List Primitive → Bool
  | [], _ => true
  | a :: as, .readBytes b m :: rest => a == b && m == n && readsAt n as rest
  | _ :: _, _ => false

/-- The operations a run of primitives expands from (R107): a sector erase and a program of each of its pages is one
`flushCache`, a page read of each page of one sector is one `loadSector`, any other primitive is itself. `skip` counts
the primitives already read as part of an operation. -/
def operationsFrom (c : Config) : Nat → List Primitive → List Operation
  | _, [] => []
  | skip + 1, _ :: rest => operationsFrom c skip rest
  | 0, .eraseSector a g :: rest =>
    let sector := a.toNat / c.sectorSize
    if g = c.sectorSize ∧ programsAt (pageAddrs c sector) rest then
      .flushCache sector :: operationsFrom c c.pagesPerSector rest
    else .primitive (.eraseSector a g) :: operationsFrom c 0 rest
  | 0, .readBytes a n :: rest =>
    let sector := a.toNat / c.sectorSize
    if readsAt c.pageSize (pageAddrs c sector) (.readBytes a n :: rest) then
      .loadSector sector :: operationsFrom c (c.pagesPerSector - 1) rest
    else .primitive (.readBytes a n) :: operationsFrom c 0 rest
  | 0, p :: rest => .primitive p :: operationsFrom c 0 rest

/-- The operations of the run so far, oldest first (R107). -/
def operations (s : State) : List Operation := operationsFrom s.cfg 0 (primitivesFrom false (commands s))

/-- The number of transactions of the run so far (R171). -/
def transactionCount (s : State) : Nat := (frames s).length

/-- The bytes sent in the run so far. -/
def bytesSent (s : State) : Nat := ((frames s).map List.length).sum

end Sys2Proof.Machine
end

