-- ==== Sys2Proof/Safety.lean ====
section
/-! DEFINITION. The terms claims are stated in: when an operation may start and run through, what two states share, what
the environment has settled on, and the invariants of the machine. -/

namespace Sys2Proof.Machine

/-! ### Conditions on a state -/

/-- No timed input is coming, so nothing suspends an operation but a poll that reads busy. -/
def quiet (s : State) : Bool :=
  match s.inbox with
  | ⟨.after _, _⟩ :: _ => false
  | _ => true

/-- The block is between operations with the bus released, no timed input is coming, and the parameters are what the
spec asks of them. -/
abbrev Calm (s : State) : Prop := s.seq = .idle ∧ s.cs = false ∧ quiet s = true ∧ s.cfg.Valid

/-- A chip of the identifier table is there and not busy. -/
abbrev ChipReady (s : State) : Prop := s.chip.kind ≠ .absent ∧ s.chip.busy = .ready

/-- The state after the environment's next answer has ended the chip's busy time (R77). -/
def State.chipFinished (s : State) : State := { answered s with chip := { s.chip with busy := .ready } }

/-- The chip takes a command: it is there, and ready, or its busy time is over when the command comes (R77). -/
abbrev ChipTakes (s : State) : Prop :=
  s.chip.kind ≠ .absent ∧ (s.chip.busy = .ready ∨ statusBusy (nextAnswer s) = false)

/-- Flash content is in the canonical form. -/
abbrev FlashWf (s : State) : Prop := Memory.wf s.cfg.erasedByte s.chip.mem

/-- The flash byte at an address (R42). -/
def flash (s : State) (a : Nat) : Byte := Memory.read s.cfg.erasedByte s.chip.mem a

/-- The number of bytes of the chip (R73). -/
def flashSize (s : State) : Nat := Chip.size s.chip.kind

/-- The environment has settled on its next `n` answers, to status polls among them, and none of them reads busy (R77: a
premise a claim of termination must name). -/
abbrev ReadyFor (n : Nat) (s : State) : Prop :=
  n ≤ s.choices.length ∧ ∀ v ∈ s.choices.take n, statusBusy v = false

/-- The buffer has its fixed size (R25). -/
abbrev BufferFull (s : State) : Prop := s.buffer.length = s.cfg.sectorSize

/-- Dirty implies loaded (R23). -/
abbrev DirtyLoaded (s : State) : Prop := s.dirty = true → s.loaded = true

/-- The device record is what INITIALIZE makes it (R29, R30): of a known identifier, with its capacity and pages. -/
abbrev RecordOk (s : State) : Prop :=
  s.capacity = lookup s.cfg s.deviceId ∧ s.capacity ≠ s.cfg.capUnknown ∧
    s.pageCount = BitVec.ofNat 32 (s.capacity.toNat / s.cfg.pageSize)

/-! ### What two states share -/

/-- The sector cache and the reentrancy flag are the same (R150's list, the cache part). -/
structure SameCache (s t : State) : Prop where
  loaded : t.loaded = s.loaded
  dirty : t.dirty = s.dirty
  sectorNumber : t.sectorNumber = s.sectorNumber
  buffer : t.buffer = s.buffer
  busy : t.busy = s.busy

/-- The device record is the same (R28 to R31). -/
structure SameIdentity (s t : State) : Prop where
  deviceId : t.deviceId = s.deviceId
  capacity : t.capacity = s.capacity
  pageCount : t.pageCount = s.pageCount
  initialized : t.initialized = s.initialized

/-- Everything of R20 is the same, and the parameters. -/
structure SameBlock (s t : State) : Prop where
  cfg : t.cfg = s.cfg
  cache : SameCache s t
  identity : SameIdentity s t
  seq : t.seq = s.seq
  cs : t.cs = s.cs

/-- No bus event: the history, the chip and the environment's answers are the same. -/
structure NoBus (s t : State) : Prop where
  history : t.history = s.history
  chip : t.chip = s.chip
  choices : t.choices = s.choices
  asked : t.asked = s.asked

/-- The chip is the same, but for the transaction it last received. -/
structure SameChip (s t : State) : Prop where
  kind : t.chip.kind = s.chip.kind
  mem : t.chip.mem = s.chip.mem
  busy : t.chip.busy = s.chip.busy
  wel : t.chip.wel = s.chip.wel

/-- What a directly called command leaves alone besides the block: the host's side. -/
structure SameHostSide (s t : State) : Prop where
  inbox : t.inbox = s.inbox
  responses : t.responses = s.responses

/-- Exactly these transactions were sent after those of `s`, in this order: the bytes sent in each (R90). -/
def SentAfter (s t : State) (sent : List (List Byte)) : Prop := frames t = frames s ++ sent

/-- The bytes a wire command sends (R90). -/
def wireBytes (c : Config) (i : Instr) : List Byte :=
  match encode c i with
  | .wire b => b
  | .host _ _ => []

/-- One response was given after those of `s`, with this status, this value and this data; `none` is any value. -/
def Responded (s t : State) (status : Option (BitVec 1)) (value : Option Word32) (rdata : Option (List Byte)) : Prop :=
  ∃ r, t.responses = r :: s.responses ∧ (∀ x, status = some x → r.status = x) ∧
    (∀ x, value = some x → r.value = x) ∧ (∀ x, rdata = some x → r.rdata = x)

/-- The instruction is a wire command (R97). -/
def isWire : Instr → Bool
  | .wren => true
  | .pp _ _ => true
  | .read _ _ => true
  | .rdsr1 => true
  | .se4k _ => true
  | .be32k _ => true
  | .be64k _ => true
  | .ce => true
  | .rdid => true
  | .rduid => true
  | .init => false
  | .readBlock _ => false
  | .writeBlock _ _ => false
  | .flush => false
  | .reformat => false
  | .blockCount => false
  | .totalSize => false
  | .blockSize => false
  | .supportsDma => false
  | .isBusy => false
  | .reservedA => false
  | .reservedB => false
  | .reservedC => false
  | .reservedD => false
  | .reservedE => false
  | .reservedF => false

/-! ### The commands of the cache operations -/

/-- The wire commands of a sector load (R162). -/
def loadCommands (c : Config) (sector : Nat) : List Instr :=
  (List.range c.pagesPerSector).map fun p => .read (addrOf (pageAddr c sector p)) c.pageSize

/-- The wire commands of programming one page, every poll reading ready at once (R145). -/
def programCommands (a : Addr) (d : List Byte) : List Instr := [.wren, .pp a d, .rdsr1]

/-- The erase command of a granularity (R98). -/
def eraseInstr (a : Addr) (g : Nat) : Instr :=
  if g = 4096 then .se4k a else if g = 32768 then .be32k a else .be64k a

/-- The wire commands of a flush, every poll reading ready at once (R163). -/
def flushCommands (c : Config) (sector : Nat) (buffer : List Byte) : List Instr :=
  [.wren, eraseInstr (addrOf (sectorBase c sector)) c.sectorSize, .rdsr1] ++
    (List.range c.pagesPerSector).flatMap fun p =>
      programCommands (addrOf (pageAddr c sector p)) (slice buffer (p * c.pageSize) c.pageSize)

/-! ### Completed commands and operations -/

/-- A directly called wire command is over: its bytes are on the bus as one transaction, and nothing of the block or of
the host's side has changed (R120). -/
structure WireDone (i : Instr) (s t : State) : Prop where
  block : SameBlock s t
  host : SameHostSide s t
  sent : SentAfter s t [wireBytes s.cfg i]

/-- A directly called primitive is over: these wire commands are on the bus in this order, and nothing of the block or
of the host's side has changed (R106, R150). -/
structure PrimitiveDone (commands : List Instr) (s t : State) : Prop where
  block : SameBlock s t
  host : SameHostSide s t
  sent : SentAfter s t (commands.map (wireBytes s.cfg))

/-- An erase of the `n` bytes from `lo` has been taken by the chip: they hold the erased value and no other byte has
changed; the chip is busy (R77) and write-disabled (log 5). -/
structure Erased (lo n : Nat) (s t : State) : Prop where
  kind : t.chip.kind = s.chip.kind
  wel : t.chip.wel = false
  busy : t.chip.busy = .other
  inside : ∀ x, lo ≤ x → x < lo + n → flash t x = s.cfg.erasedByte
  outside : ∀ x, x < lo ∨ lo + n ≤ x → flash t x = flash s x
  wf : FlashWf t

/-- The chip has taken these bytes at `lo`: a byte that was erased holds its data (R75), no byte outside has changed, and
the chip is write-disabled (log 5). Of a byte that was not erased nothing is said (U1). -/
structure Programmed (lo : Nat) (d : List Byte) (s t : State) : Prop where
  kind : t.chip.kind = s.chip.kind
  wel : t.chip.wel = false
  inside : ∀ i b, d[i]? = some b → flash s (lo + i) = s.cfg.erasedByte → flash t (lo + i) = b
  outside : ∀ x, x < lo ∨ lo + d.length ≤ x → flash t x = flash s x
  wf : FlashWf t

/-- A program or erase at an address the chip does not have has run: the chip is busy (R77) and write-disabled (log 5), and
no byte has changed outside the `n` bytes the environment chose, if it chose any (log 15). -/
structure Strayed (n : Nat) (target : Option Nat) (s t : State) : Prop where
  kind : t.chip.kind = s.chip.kind
  wel : t.chip.wel = false
  busy : t.chip.busy = .other
  place : ∀ p, target = some p → p % n = 0 ∧ p + n ≤ flashSize s
  outside : ∀ x, (∀ p, target = some p → x < p ∨ p + n ≤ x) → flash t x = flash s x
  wf : FlashWf t

/-- The bytes, a first one and their number, that an erase command of the transaction in progress would erase. -/
def eraseReach (s : State) (a g : Nat) : Option (Nat × Nat) :=
  (s.chip.regionTarget a g s.draws).map fun p => (p, g)

/-- The bytes, a first one and their number, that a reset or a loss of power can change by ending the transaction in
progress: the page of a program command whose address has arrived, the region of an erase command whose bytes have all
been sent (U20; log 18). -/
def cutReach (s : State) : Option (Nat × Nat) :=
  if s.cs = false ∨ s.chip.kind = .absent then none
  else match s.chip.txn with
    | none => none
    | some t =>
      if t.op = s.cfg.opPp then
        if 3 ≤ t.count then (s.chip.pageTarget s.cfg t.address s.draws).map fun p => (p, s.cfg.pageSize) else none
      else if t.op = s.cfg.opSe4k ∧ t.count = 3 then eraseReach s t.address 4096
      else if t.op = s.cfg.opBe32k ∧ t.count = 3 then eraseReach s t.address 32768
      else if t.op = s.cfg.opBe64k ∧ t.count = 3 then eraseReach s t.address 65536
      else if t.op = s.cfg.opCe ∧ t.count = 0 then some (0, flashSize s)
      else none

/-- What a reset and a loss of power both leave: the block in its reset state (R40), the chip of the same kind, nothing
sent on the bus, no response given, no input taken. -/
structure Restarted (s t : State) : Prop where
  cfg : t.cfg = s.cfg
  loaded : t.loaded = false
  dirty : t.dirty = false
  busy : t.busy = false
  initialized : t.initialized = false
  seq : t.seq = .idle
  cs : t.cs = false
  kind : t.chip.kind = s.chip.kind
  history : t.history = s.history
  inbox : t.inbox = s.inbox
  responses : t.responses = s.responses

/-- A query has been answered at once: one response, no bus event, and nothing else but the free values has changed
(R180). -/
structure Queried (value : Option Word32) (s t : State) : Prop where
  block : SameBlock s t
  bus : NoBus s t
  inbox : t.inbox = s.inbox
  result : t.result = s.result
  response : Responded s t none value none

/-- A read or write has been dropped, or a flush (R165, R202): nothing of the block, the bus or the chip has changed. -/
structure Dropped (status : Option (BitVec 1)) (s t : State) : Prop where
  block : SameBlock s t
  bus : NoBus s t
  inbox : t.inbox = s.inbox
  response : Responded s t status none none

/-- What a completed data operation leaves as it found it: the parameters, the device record, the bus line, the kind of
chip, the inputs to come, the driver's last result; the block is idle and its guard is free. -/
structure ServedFrame (s t : State) : Prop where
  cfg : t.cfg = s.cfg
  identity : SameIdentity s t
  cs : t.cs = s.cs
  kind : t.chip.kind = s.chip.kind
  inbox : t.inbox = s.inbox
  result : t.result = s.result
  seq : t.seq = .idle
  busy : t.busy = false

/-- The conditions, on the state alone, under which the block serves a data operation at once but for its busy-waits:
calm, initialized, its guard free, its cache in a legal state within the device, and the detected chip on the bus and
ready. -/
structure Serving (s : State) : Prop where
  calm : Calm s
  chip : ChipReady s
  initialized : s.initialized = true
  record : RecordOk s
  size : flashSize s = s.capacity.toNat
  free : s.busy = false
  buffer : BufferFull s
  flags : DirtyLoaded s
  flash : FlashWf s
  sector : s.loaded = true → sectorBase s.cfg s.sectorNumber.toNat < flashSize s

/-- How many ready status answers one data operation can use: one for the erase and one for each page (R171). -/
def pollsPerFlush (c : Config) : Nat := c.pagesPerSector + 1

/-- `n` flash bytes from an address, ascending. -/
def flashBytes (s : State) (a n : Nat) : List Byte := Memory.readRange s.cfg.erasedByte s.chip.mem a n

/-! ### Separation of the driver from the cache (R150) -/

/-- A state with the cache, the guard and the device record of another: the nine elements R150 lists. -/
def State.withBlockOf (s b : State) : State :=
  { s with
    loaded := b.loaded, dirty := b.dirty, sectorNumber := b.sectorNumber, buffer := b.buffer, busy := b.busy
    deviceId := b.deviceId, capacity := b.capacity, pageCount := b.pageCount, initialized := b.initialized }

/-- An outcome with its next state changed. -/
def mapNext (f : State → State) : Host.Outcome State Fault Refusal → Host.Outcome State Fault Refusal
  | .next t => .next (f t)
  | .fault e => .fault e
  | .refused r => .refused r

/-! ### The block device as the host sees it -/

/-- The content of a block as the host sees it: in the cache if its sector is cached, else in the flash (R66). -/
def logicalBlock (s : State) (b : Nat) : List Byte :=
  if s.loaded = true ∧ s.sectorNumber.toNat = (resolve s.cfg b).1
  then slice s.buffer (resolve s.cfg b).2 s.cfg.blockSize
  else flashBytes s (b * s.cfg.blockSize) s.cfg.blockSize

/-- A request of a data operation the block admits (R191, R192, R36), REFORMAT left out. -/
def Admissible (s : State) (i : Instr) : Prop :=
  (∃ blk, i = .readBlock blk ∧ blk.toNat < blockCountOf s) ∨
    (∃ blk data, i = .writeBlock blk data ∧ blk.toNat < blockCountOf s ∧ data.length = s.cfg.blockSize) ∨ i = .flush

/-- What a request makes of an array of blocks: a write replaces one, nothing else changes any (R63). -/
def storeAfter (store : Nat → List Byte) : Instr → Nat → List Byte
  | .writeBlock blk data => fun b => if b = blk.toNat then data else store b
  | _ => store

/-- Requests one after another, each completing before the next starts (R63), up to the first stop. -/
def serveAll : List Instr → State → Host.Outcome State Fault Refusal
  | [], s => .next s
  | i :: rest, s =>
    match exec i s with
    | .next t => serveAll rest t
    | .fault f => .fault f
    | .refused r => .refused r

/-! ### Invariants -/

/-- What is left of the running operation. -/
def pending (s : State) : List Micro :=
  match s.seq with
  | .idle => []
  | .run _ rest => rest

/-- Running these from these flags keeps `dirty → loaded` at every point (R23). -/
def flagsKept : Bool → Bool → List Micro → Prop
  | loaded, dirty, [] => dirty = true → loaded = true
  | loaded, dirty, m :: rest =>
    (dirty = true → loaded = true) ∧
      match m with
      | .setLoaded b => flagsKept b dirty rest
      | .setDirty b => flagsKept loaded b rest
      | .invalidate => flagsKept false false rest
      | _ => flagsKept loaded dirty rest

/-- `dirty` implies `loaded`, now and at every point of what is left to do (R23). -/
abbrev FlagInv (s : State) : Prop := flagsKept s.loaded s.dirty (pending s)

/-- Running these from this chip-select line performs only legal bus actions, polls only between transactions, and
leaves the bus released (R35, R72d, R120). -/
def busKept : Bool → List Micro → Prop
  | cs, [] => cs = false
  | cs, m :: rest =>
    match m with
    | .sel => cs = false ∧ busKept true rest
    | .des => cs = true ∧ busKept false rest
    | .send _ => cs = true ∧ busKept cs rest
    | .recv => cs = true ∧ busKept cs rest
    | .untilReady _ => cs = false ∧ busKept cs rest
    | .refuse r => r ≠ .illegalBusAction ∧ busKept cs rest
    | _ => busKept cs rest

/-- The bus is used legally, now and in what is left to do. -/
abbrev BusInv (s : State) : Prop := busKept s.cs (pending s)

/-- The micro-operations that write the device record. -/
def isLatch : Micro → Bool
  | .latchId => true
  | .latchCapacity => true
  | .latchPageCount => true
  | .latchInitialized => true
  | _ => false

/-- The device record with these micro-operations left to do: right after a successful INITIALIZE, and written only by
an INITIALIZE that has not succeeded yet, in R181's order (R28: "immutable after detection"). -/
def recordKept (rest : List Micro) (s : State) : Prop :=
  match rest.filter isLatch with
  | [] => s.initialized = true → RecordOk s
  | [.latchInitialized] => s.initialized = false ∧ (s.capacity ≠ s.cfg.capUnknown → RecordOk s)
  | [.latchPageCount, .latchInitialized] => s.initialized = false ∧ s.capacity = lookup s.cfg s.deviceId
  | [.latchCapacity, .latchPageCount, .latchInitialized] => s.initialized = false
  | [.latchId, .latchCapacity, .latchPageCount, .latchInitialized] => s.initialized = false
  | _ => False

/-- The device record is right whenever `initialized = 1` (R28 to R31). -/
abbrev RecordInv (s : State) : Prop := recordKept (pending s) s

/-- The reentrancy flag is 1 exactly while a read or write runs (R27, R165, R190). -/
def GuardInv (s : State) : Prop :=
  s.busy = match s.seq with
    | .idle => false
    | .run op _ => op.holdsBusy

/-- In a Clean cache the buffer equals the flash sector (R65). -/
def Coherent (s : State) : Prop :=
  s.loaded = true → s.dirty = false →
    ∀ i, i < s.cfg.sectorSize → s.buffer[i]? = some (flash s (s.sectorNumber.toNat * s.cfg.sectorSize + i))

end Sys2Proof.Machine
end

