-- ==== Sys2Proof/Certificates/Slice0/Obligations.lean ====
section
/-! DEFINITION. The statements for the provers. Where one rests on a choice of the model, its docstring names the log
entry. -/

open Sys2Proof Sys2Proof.Machine

/-! ### Encodings -/

/-- Decoding gives back every well-formed instruction from its frame (R90, R97, R100, R101). -/
def Obligations.DecodeEncodeAgree : Prop :=
  ∀ (c : Config) (i : Instr), c.Valid → i.wf c = true → decode c (encode c i) = .ok i

/-- The bytes of a transaction that decode to a command are that command's bytes, so no two commands share them, and a
first byte that is none of the ten opcodes carries none (R90, R97, R99, R104). -/
def Obligations.WireBytesHaveOneMeaning : Prop :=
  (∀ (c : Config) (bytes : List Byte) (i : Instr), decodeWire c bytes = .ok i → encode c i = .wire bytes) ∧
  (∀ (c : Config) (op : Byte) (rest : List Byte), op ∉ c.opcodes → decodeWire c (op :: rest) = .error .unknownOpcode)

/-- The frames of the spec's examples decode to their instructions, with the default parameters (R97, R101). -/
def Obligations.WrittenOutFramesDecode : Prop :=
  decodeWire Config.default [0x06] = .ok .wren ∧
  decodeWire Config.default [0x20, 0x00, 0x10, 0x00] = .ok (.se4k 0x001000) ∧
  decodeWire Config.default [0x52, 0x00, 0x80, 0x00] = .ok (.be32k 0x008000) ∧
  decodeWire Config.default [0xD8, 0x01, 0x00, 0x00] = .ok (.be64k 0x010000) ∧
  decodeWire Config.default [0x90, 0x00, 0x00, 0x00, 0x00, 0x00] = .ok .rdid ∧
  decodeWire Config.default [0x05, 0x00] = .ok .rdsr1 ∧
  decodeHost Config.default 0x10000000A#36 [] = .ok (.readBlock 0x0000000A) ∧
  decodeHost Config.default 0x300000000#36 [] = .ok .flush

/-- The request word `op ++ blk`, and the operation each of the ten codes names, whatever the fields the operation ignores
hold; WRITE_BLOCK has exactly `BLOCK_SIZE` data bytes; the default codes are 0 to 9 and the default word has 32 bits below
the code (R36, R100, R101; that codes and width are parameters is R6). -/
def Obligations.HostRequestsDecode : Prop :=
  (∀ (c : Config) (op : BitVec 4) (blk : Word32) (data : List Byte), c.Valid → blk.toNat < 2 ^ c.blkBits →
    hostOp c (hostWord c op blk) = op ∧ hostBlk c (hostWord c op blk) = blk ∧
    (hostWord c op blk).toNat = op.toNat * 2 ^ c.blkBits + blk.toNat ∧
    decodeHost c (hostWord c c.codeInit blk) data = .ok .init ∧
    decodeHost c (hostWord c c.codeReadBlock blk) data = .ok (.readBlock blk) ∧
    (data.length = c.blockSize →
      decodeHost c (hostWord c c.codeWriteBlock blk) data = .ok (.writeBlock blk data)) ∧
    (data.length ≠ c.blockSize → decodeHost c (hostWord c c.codeWriteBlock blk) data = .error .wrongLength) ∧
    decodeHost c (hostWord c c.codeFlush blk) data = .ok .flush ∧
    decodeHost c (hostWord c c.codeReformat blk) data = .ok .reformat ∧
    decodeHost c (hostWord c c.codeBlockCount blk) data = .ok .blockCount ∧
    decodeHost c (hostWord c c.codeTotalSize blk) data = .ok .totalSize ∧
    decodeHost c (hostWord c c.codeBlockSize blk) data = .ok .blockSize ∧
    decodeHost c (hostWord c c.codeSupportsDma blk) data = .ok .supportsDma ∧
    decodeHost c (hostWord c c.codeIsBusy blk) data = .ok .isBusy) ∧
  Config.default.hostCodes = [0, 1, 2, 3, 4, 5, 6, 7, 8, 9] ∧
  ∀ (op : BitVec 4) (blk : Word32), (hostWord Config.default op blk).toNat = op.toNat * 2 ^ 32 + blk.toNat

/-- A request whose code names no operation, with the default codes 0xA to 0xF, is refused in every state, whatever its
other fields hold (R103). -/
def Obligations.ReservedCodesRefused : Prop :=
  (∀ (c : Config) (op : BitVec 4) (blk : Word32) (data : List Byte), c.Valid → blk.toNat < 2 ^ c.blkBits →
    op ∉ c.hostCodes →
    ∃ i, decodeHost c (hostWord c op blk) data = .ok i ∧ ∀ s, exec i s = .refused .reservedHostCode) ∧
  (∀ op : BitVec 4, op ∉ Config.default.hostCodes ↔ 10 ≤ op.toNat) ∧
  (∀ s : State,
    exec .reservedA s = .refused .reservedHostCode ∧ exec .reservedB s = .refused .reservedHostCode ∧
    exec .reservedC s = .refused .reservedHostCode ∧ exec .reservedD s = .refused .reservedHostCode ∧
    exec .reservedE s = .refused .reservedHostCode ∧ exec .reservedF s = .refused .reservedHostCode)

/-- A 24-bit address as its three bytes, most significant first, and an identifier from the two bytes kept from an RDID in
the order received, the first the more significant, with the spec's examples; the bytes of a valid block have addresses
below `2^24` (R50, R93, R94). -/
def Obligations.AddressesAndIdentifiersBigEndian : Prop :=
  (∀ a : Addr, addrBytes a =
    [BitVec.ofNat 8 (a.toNat / 65536), BitVec.ofNat 8 (a.toNat / 256), BitVec.ofNat 8 a.toNat]) ∧
  (∀ a2 a1 a0 : Byte, (joinAddr a2 a1 a0).toNat = a2.toNat * 65536 + a1.toNat * 256 + a0.toNat) ∧
  (∀ h l : Byte, (joinId h l).toNat = h.toNat * 256 + l.toNat ∧ idBytes (joinId h l) = (h, l)) ∧
  (∀ (s : State) (h l : Byte), s.rx = [h, l] → receivedId s = joinId h l) ∧
  (∀ (s : State) (b : Nat), s.cfg.Valid → RecordOk s → b < blockCountOf s → (b + 1) * s.cfg.blockSize ≤ 2 ^ 24) ∧
  addrBytes 0x0FFE00 = [0x0F, 0xFE, 0x00] ∧ joinId 0xEF 0x13 = 0xEF13

/-! ### The step -/

/-- A step runs the decoded instruction: when the input presented is a frame that decodes to `i`, be it due now or
waiting for an idle block, the step is `exec i` in the state without that input; and a word placed by `withFetchWord` is
what the next step runs. -/
def Obligations.StepRunsTheDecodedInstruction : Prop :=
  (∀ (s : State) (f : Frame) (rest : List Arrival) (i : Instr), cacheState s ≠ none →
    (s.inbox = ⟨.after 0, .frame f⟩ :: rest ∨ (s.inbox = ⟨.whenIdle, .frame f⟩ :: rest ∧ s.seq = .idle)) →
    decode s.cfg f = .ok i → step s = exec i { s with inbox := rest }) ∧
  (∀ (s : State) (nbits w : Nat) (i : Instr), cacheState s ≠ none →
    decode s.cfg (tableFrame s.cfg nbits w) = .ok i → step (s.withFetchWord nbits w) = exec i s)

/-- When no input is presented, a running operation goes on from where it was, and an idle block only waits (R32, R40). How
far one step goes (`settle` of `drive`: to the end of the operation, a poll that reads busy, or a due input), and that an
idle step lets a timed input come one nearer, are the model's choice (log 9); R32 gives one bus event at a time. -/
def Obligations.StepResumesTheRunningOperation : Prop :=
  ∀ s : State, cacheState s ≠ none → presented s = none →
    (∀ op rest, s.seq = .run op rest → step s = settle op (drive rest s)) ∧ (s.seq = .idle → step s = .next (tick s))

/-- The cache states of R26, and the refusal of the fourth combination as a start state. -/
def Obligations.CacheStatesAndTheExcludedOne : Prop :=
  ∀ s : State,
    (s.loaded = false → s.dirty = false → cacheState s = some .empty) ∧
    (s.loaded = true → s.dirty = false → cacheState s = some (.clean s.sectorNumber)) ∧
    (s.loaded = true → s.dirty = true → cacheState s = some (.dirty s.sectorNumber)) ∧
    (s.loaded = false → s.dirty = true → step s = .refused .excludedCacheState)

/-! ### Reset and power -/

/-- The values R40 gives for reset. -/
def Obligations.ResetValues : Prop :=
  State.reset.loaded = false ∧ State.reset.dirty = false ∧ State.reset.busy = false ∧
  State.reset.initialized = false ∧ State.reset.seq = .idle ∧ State.reset.cs = false ∧
  cacheState State.reset = some .empty

/-- The reset event puts the block in its reset state whatever it was doing, in the middle of a transaction too, sends
nothing on the bus, and leaves every flash byte as it was (R230, R231). What it can change is the model's choice (log 18):
the page of a program command it cuts, which then holds any value (U20), and the region of an erase command whose bytes had
all been sent, which may be erased. -/
def Obligations.ResetEventKeepsTheFlash : Prop :=
  ∀ s : State, FlashWf s →
    ∃ t, resetEvent s = .next t ∧ Restarted s t ∧ FlashWf t ∧ (cutReach s = none → t.chip.mem = s.chip.mem) ∧
      (∀ x, x < flashSize s → (∀ r, cutReach s = some r → x < r.1 ∨ r.1 + r.2 ≤ x) → flash t x = flash s x) ∧
      ((∀ y, s.chip.txn = some y → y.op ≠ s.cfg.opPp) →
        ∀ x, x < flashSize s → flash t x = flash s x ∨ flash t x = s.cfg.erasedByte)

/-- After a loss of power, in the middle of a transaction too, the block is in its reset state, and every flash byte holds
what it held but those of a page whose program command was still running or being sent (R216; that such a page is spoiled is
general knowledge, G14). That an erase in progress keeps its whole effect, and that one whose bytes had all been sent may
take effect, are the model's choice (log 18). -/
def Obligations.PowerLossKeepsFinishedPages : Prop :=
  ∀ s : State, FlashWf s →
    ∃ t, powerLossEvent s = .next t ∧ Restarted s t ∧ FlashWf t ∧
      (∀ x, x < flashSize s → (∀ p, s.chip.busy = .programming p → x < p ∨ p + s.cfg.pageSize ≤ x) →
        (∀ r, cutReach s = some r → x < r.1 ∨ r.1 + r.2 ≤ x) → flash t x = flash s x) ∧
      (s.chip.busy = .ready ∨ s.chip.busy = .other → (∀ y, s.chip.txn = some y → y.op ≠ s.cfg.opPp) →
        ∀ x, x < flashSize s → flash t x = flash s x ∨ flash t x = s.cfg.erasedByte)

/-! ### Wire commands -/

/-- The common shape of the ten wire commands, whatever the chip does: one that completes has sent exactly its own bytes
in one transaction, has written nothing of the block, and leaves the bus released (R120). -/
def Obligations.WireCommandShape : Prop :=
  ∀ (i : Instr) (s t : State), isWire i = true → Calm s → exec i s = .next t → WireDone i s t ∧ t.cs = false

/-- WREN completes on a ready chip (R121); that it sets a latch, and nothing else of the chip, is the model's choice
(R78, log 5). -/
def Obligations.WrenSetsTheLatch : Prop :=
  ∀ s : State, Calm s → ChipReady s →
    ∃ t, exec .wren s = .next t ∧ WireDone .wren s t ∧ t.result = .none ∧ t.choices = s.choices ∧
      t.chip = { s.chip with wel := true, txn := none }

/-- PP on a ready, write-enabled chip: every byte that was erased takes its data, no other byte of the flash changes, and
the chip is busy (R122, R75, R77; the latch is log 5). -/
def Obligations.PpProgramsThePage : Prop :=
  ∀ (s : State) (a : Addr) (d : List Byte), Calm s → ChipReady s → FlashWf s → s.chip.wel = true →
    (Instr.pp a d).wf s.cfg = true → a.toNat + s.cfg.pageSize ≤ flashSize s →
    ∃ t, exec (.pp a d) s = .next t ∧ WireDone (.pp a d) s t ∧ t.result = .none ∧ t.choices = s.choices ∧
      Programmed a.toNat d s t ∧ t.chip.busy = .programming a.toNat

/-- READ of any address and any count on a ready chip completes and returns that many bytes, the flash bytes in ascending
order as far as the chip has them, and changes nothing of the chip (R123, R76, R51; past the end any value, log 16). -/
def Obligations.ReadReturnsTheFlash : Prop :=
  ∀ (s : State) (a : Addr) (n : Nat), Calm s → ChipReady s →
    ∃ t got, exec (.read a n) s = .next t ∧ WireDone (.read a n) s t ∧ t.result = .bytes got ∧ got.length = n ∧
      (∀ i, i < n → a.toNat + i < flashSize s → got[i]? = some (flash s (a.toNat + i))) ∧ SameChip s t ∧
      (a.toNat + n ≤ flashSize s → t.choices = s.choices)

/-- RDSR1 completes whether the chip is busy or not; bit 0 of a ready chip reads 0, that of a busy chip is the
environment's answer, and once it reads 0 the chip is ready (R124, R77, R95). -/
def Obligations.Rdsr1ReadsTheBusyBit : Prop :=
  ∀ s : State, Calm s → s.chip.kind ≠ .absent →
    ∃ t v, exec .rdsr1 s = .next t ∧ WireDone .rdsr1 s t ∧ t.result = .bytes [v] ∧
      (s.chip.busy = .ready → statusBusy v = false) ∧
      (s.chip.busy ≠ .ready → statusBusy v = statusBusy (nextAnswer s)) ∧
      t.chip.busy = (if statusBusy v then s.chip.busy else .ready) ∧
      t.chip.kind = s.chip.kind ∧ t.chip.mem = s.chip.mem ∧ t.chip.wel = s.chip.wel ∧
      t.choices = s.choices.tail

/-- SE4K, BE32K and BE64K at an aligned address of a ready, write-enabled chip erase their region and nothing else, and CE
the whole array (R125, R126, R127, R128, R74; the latch is log 5). -/
def Obligations.ErasesEraseTheirRegion : Prop :=
  ∀ (s : State) (a : Addr), Calm s → ChipReady s → FlashWf s → s.chip.wel = true →
    (a.toNat % 4096 = 0 → a.toNat < flashSize s →
      ∃ t, exec (.se4k a) s = .next t ∧ WireDone (.se4k a) s t ∧ t.result = .none ∧ t.choices = s.choices ∧
        Erased a.toNat 4096 s t) ∧
    (a.toNat % 32768 = 0 → a.toNat < flashSize s →
      ∃ t, exec (.be32k a) s = .next t ∧ WireDone (.be32k a) s t ∧ t.result = .none ∧ t.choices = s.choices ∧
        Erased a.toNat 32768 s t) ∧
    (a.toNat % 65536 = 0 → a.toNat < flashSize s →
      ∃ t, exec (.be64k a) s = .next t ∧ WireDone (.be64k a) s t ∧ t.result = .none ∧ t.choices = s.choices ∧
        Erased a.toNat 65536 s t) ∧
    (∃ t, exec .ce s = .next t ∧ WireDone .ce s t ∧ t.result = .none ∧ t.choices = s.choices ∧
      t.chip.kind = s.chip.kind ∧ t.chip.wel = false ∧ t.chip.busy = .other ∧ FlashWf t ∧
      ∀ x, flash t x = s.cfg.erasedByte)

/-- RDID on a ready part returns the part's identifier, high byte first, RDUID eight bytes, and neither changes anything
of the chip (R129, R79; RDUID's framing is general knowledge, R130, log 23). -/
def Obligations.IdentifiersAreRead : Prop :=
  ∀ s : State, Calm s → ChipReady s →
    (∃ t, exec .rdid s = .next t ∧ WireDone .rdid s t ∧ t.choices = s.choices ∧ SameChip s t ∧
      t.result = .identifier (match s.chip.kind with
        | .partB => s.cfg.idB
        | _ => s.cfg.idA)) ∧
    (∃ t u, exec .rduid s = .next t ∧ WireDone .rduid s t ∧ t.choices = s.choices ∧ SameChip s t ∧
      t.result = .bytes u ∧ u.length = 8)

/-- With no chip on the bus all ten wire commands still complete (R80, R120). -/
def Obligations.WireCommandsRunWithoutAChip : Prop :=
  ∀ (i : Instr) (s : State), isWire i = true → i.wf s.cfg = true → Calm s → s.chip.kind = .absent →
    ∃ t, exec i s = .next t ∧ WireDone i s t ∧ SameChip s t

/-- A misaligned or wrongly sized program, a misaligned erase, and an erase granularity that has no command are refused,
as wire commands and as primitives (R58, R98, U11). -/
def Obligations.MisalignedRefused : Prop :=
  ∀ (s : State) (a : Addr) (d : List Byte) (g : Nat),
    (a.toNat % s.cfg.pageSize ≠ 0 →
      exec (.pp a d) s = .refused .misaligned ∧ callPrimitive (.programPage a d) s = .refused .misaligned) ∧
    (a.toNat % s.cfg.pageSize = 0 → d.length ≠ s.cfg.pageSize →
      exec (.pp a d) s = .refused .wrongPageLength ∧
      callPrimitive (.programPage a d) s = .refused .wrongPageLength) ∧
    (a.toNat % 4096 ≠ 0 → exec (.se4k a) s = .refused .misaligned) ∧
    (a.toNat % 32768 ≠ 0 → exec (.be32k a) s = .refused .misaligned) ∧
    (a.toNat % 65536 ≠ 0 → exec (.be64k a) s = .refused .misaligned) ∧
    (g ∈ Config.eraseSizes → a.toNat % g ≠ 0 → callPrimitive (.eraseSector a g) s = .refused .misaligned) ∧
    (g ∉ Config.eraseSizes → callPrimitive (.eraseSector a g) s = .refused .noEraseCommand)

/-- What the chip does with a program or erase that no WREN preceded, and with a command other than RDSR1 while it is
still busy, is not described, and the run is refused (R81, U18; the latch is log 5). A busy chip whose time is over when the
command comes takes it as a ready one does (R77: busy "for a time the chip chooses, then 0"); that the environment's next
answer decides this, read as a status byte at the command's opcode, is the model's form of it (log 30). -/
def Obligations.ChipRefusesWhatIsNotDescribed : Prop :=
  (∀ (s : State) (i : Instr), Calm s → s.chip.kind ≠ .absent → isWire i = true → i.wf s.cfg = true →
    (s.chip.busy ≠ .ready → statusBusy (nextAnswer s) = true → i ≠ .rdsr1 → exec i s = .refused .chipBusy) ∧
    (s.chip.busy = .ready → s.chip.wel = false → (∀ a n, i ≠ .read a n) → i ∉ [.wren, .rdsr1, .rdid, .rduid] →
      exec i s = .refused .chipNotWriteEnabled)) ∧
  ∀ s : State, Calm s → s.chip.kind ≠ .absent → s.chip.busy ≠ .ready → statusBusy (nextAnswer s) = false →
    (∀ i, isWire i = true → i ≠ .rdsr1 → exec i s = exec i s.chipFinished) ∧
    exec .init s = exec .init s.chipFinished ∧
    ∀ p, p ≠ .waitReady → callPrimitive p s = callPrimitive p s.chipFinished

/-- A program or erase at an address the chip does not have completes like any other, since there is "no fault on any
address" (R62) and its rule names no failure (R122, R125, R126, R127). The spec says which addresses exist (10_state.md R42,
R56) and not what the chip does with another: that at most one page is spoiled or one region erased, whichever the
environment chose, and that the chip is busy and write-disabled after it, is the model's choice (log 15, log 5). -/
def Obligations.AbsentAddressesRun : Prop :=
  ∀ (s : State) (a : Addr) (d : List Byte), Calm s → ChipReady s → FlashWf s → s.chip.wel = true →
    ((Instr.pp a d).wf s.cfg = true → flashSize s < a.toNat + s.cfg.pageSize →
      ∃ t, exec (.pp a d) s = .next t ∧ WireDone (.pp a d) s t ∧ t.result = .none ∧ t.choices = s.choices ∧
        Strayed s.cfg.pageSize (Chip.strayTarget (flashSize s) s.cfg.pageSize (s.draws + (s.cfg.pageSize + 4))) s t) ∧
    (∀ g i, (g, i) ∈ [(4096, Instr.se4k a), (32768, .be32k a), (65536, .be64k a)] →
      a.toNat % g = 0 → flashSize s ≤ a.toNat →
      ∃ t, exec i s = .next t ∧ WireDone i s t ∧ t.result = .none ∧ t.choices = s.choices ∧
        Strayed g (Chip.strayTarget (flashSize s) g (s.draws + 4)) s t ∧
        ∀ p, Chip.strayTarget (flashSize s) g (s.draws + 4) = some p →
          ∀ x, p ≤ x → x < p + g → flash t x = s.cfg.erasedByte)

/-! ### Driver primitives -/

/-- `programPage`: WREN, PP, one poll that reads ready; every byte of the page that was erased holds its data, no byte
outside the page changes, and the chip is ready (R145, R75); of a byte that was not erased nothing is said (U1). That the
latch is clear after it is the model's (log 5). -/
def Obligations.ProgramPageWritesAPage : Prop :=
  ∀ (s : State) (a : Addr) (d : List Byte), Calm s → ChipReady s → FlashWf s → ReadyFor 1 s →
    a.toNat % s.cfg.pageSize = 0 → d.length = s.cfg.pageSize → a.toNat + s.cfg.pageSize ≤ flashSize s →
    ∃ t, callPrimitive (.programPage a d) s = .next t ∧ PrimitiveDone [.wren, .pp a d, .rdsr1] s t ∧
      t.result = .none ∧ Programmed a.toNat d s t ∧ t.chip.busy = .ready ∧ t.choices = s.choices.tail

/-- `eraseSector` of each granularity: WREN, the erase command the granularity selects, one poll that reads ready; and
`eraseChip`: WREN, CE, one poll (R98, R146, R147, R74). -/
def Obligations.ErasePrimitivesErase : Prop :=
  ∀ (s : State) (a : Addr), Calm s → ChipReady s → FlashWf s → ReadyFor 1 s →
    (∀ g i, (g, i) ∈ [(4096, Instr.se4k a), (32768, .be32k a), (65536, .be64k a)] →
      a.toNat % g = 0 → a.toNat < flashSize s →
      ∃ t, callPrimitive (.eraseSector a g) s = .next t ∧ PrimitiveDone [.wren, i, .rdsr1] s t ∧ t.result = .none ∧
        t.chip.busy = .ready ∧ t.chip.kind = s.chip.kind ∧ t.choices = s.choices.tail ∧ FlashWf t ∧
        ∀ x, flash t x = if a.toNat ≤ x ∧ x < a.toNat + g then s.cfg.erasedByte else flash s x) ∧
    (∃ t, callPrimitive .eraseChip s = .next t ∧ PrimitiveDone [.wren, .ce, .rdsr1] s t ∧ t.result = .none ∧
      t.chip.busy = .ready ∧ t.chip.kind = s.chip.kind ∧ t.choices = s.choices.tail ∧ FlashWf t ∧
      ∀ x, flash t x = s.cfg.erasedByte)

/-- `detect`, `isPresent` and `capacity` are one RDID each, and return the identifier received, whether it is known, and
its capacity, the largest value of its width when it is unknown: a ready part's own, or whatever comes back when no chip is
there (R141, R142, R143, R29, R80). -/
def Obligations.IdentityPrimitives : Prop :=
  ∀ (s : State) (id : Word16), Calm s →
    ((s.chip.kind = .partA ∧ s.chip.busy = .ready ∧ id = s.cfg.idA) ∨
      (s.chip.kind = .partB ∧ s.chip.busy = .ready ∧ id = s.cfg.idB) ∨
      (s.chip.kind = .absent ∧ ∃ h l more, s.choices = h :: l :: more ∧ id = h ++ l)) →
    (∃ t, callPrimitive .detect s = .next t ∧ PrimitiveDone [.rdid] s t ∧ t.result = .identifier id) ∧
    (∃ t, callPrimitive .isPresent s = .next t ∧ PrimitiveDone [.rdid] s t ∧
      t.result = .bool (decide (id = s.cfg.idA ∨ id = s.cfg.idB))) ∧
    (∃ t, callPrimitive .capacity s = .next t ∧ PrimitiveDone [.rdid] s t ∧
      t.result = .word (if id = s.cfg.idA then 1048576 else if id = s.cfg.idB then 8388608
        else BitVec.ofNat 32 (2 ^ s.cfg.capacityBits - 1)))

/-- No primitive reads or writes an element of the cache, the guard or the device record: called in two states that differ
only in those nine elements it ends the same way, and each next state has the elements it was called with; with the
elements of the state itself, it leaves them as they were (R150). -/
def Obligations.PrimitivesLeaveTheCacheAlone : Prop :=
  ∀ (p : Primitive) (s b : State),
    callPrimitive p (s.withBlockOf b) = mapNext (fun t => t.withBlockOf b) (callPrimitive p s) ∧
    ∀ t, callPrimitive p s = .next t → SameCache s t ∧ SameIdentity s t

/-! ### INITIALIZE and the admission checks -/

/-- INITIALIZE with a part of the table on the bus, ready or with its busy time over when the RDID comes (R77, log 30): one
RDID, the device record, success; the cache, the guard and the chip's content are as they were (R181, R28 to R31). So a
reset at any moment, in a busy-wait too, and an INITIALIZE after it bring the block back as soon as the chip has finished
(R230, R232). -/
def Obligations.InitializeDetectsThePart : Prop :=
  (∀ s : State, Calm s → ChipTakes s → s.initialized = false → s.busy = false →
    ∃ t, exec .init s = .next t ∧ Responded s t (some s.cfg.statusSuccess) none none ∧
      t.deviceId = (match s.chip.kind with
        | .partB => s.cfg.idB
        | _ => s.cfg.idA) ∧
      t.capacity.toNat = flashSize s ∧ t.pageCount.toNat = flashSize s / s.cfg.pageSize ∧ t.initialized = true ∧
      RecordOk t ∧ SentAfter s t [wireBytes s.cfg .rdid] ∧ SameCache s t ∧ t.chip.kind = s.chip.kind ∧
      t.chip.mem = s.chip.mem ∧ t.chip.wel = s.chip.wel ∧ t.chip.busy = .ready ∧ t.cfg = s.cfg ∧ t.seq = .idle ∧
      t.cs = false ∧ t.inbox = s.inbox ∧
      t.choices = if s.chip.busy = .ready then s.choices else s.choices.tail) ∧
  ∀ s : State, quiet s = true → s.cfg.Valid → s.chip.kind ≠ .absent → statusBusy (nextAnswer s) = false →
    ∃ t u, resetEvent s = .next t ∧ exec .init t = .next u ∧ u.initialized = true ∧ RecordOk u ∧
      Responded t u (some s.cfg.statusSuccess) none none

/-- INITIALIZE when no chip answers takes the two bytes that come back: a failure, with `initialized` 0, when they are no
known identifier, and a success when by chance they are (R181, R201, R80). -/
def Obligations.InitializeTakesWhatItReceives : Prop :=
  ∀ (s : State) (h l : Byte) (more : List Byte), Calm s → s.chip.kind = .absent → s.choices = h :: l :: more →
    s.initialized = false → s.busy = false →
    ∃ t, exec .init s = .next t ∧ t.deviceId = h ++ l ∧ t.capacity = lookup s.cfg (h ++ l) ∧
      (h ++ l ≠ s.cfg.idA ∧ h ++ l ≠ s.cfg.idB →
        Responded s t (some s.cfg.statusFailure) none none ∧ t.initialized = false) ∧
      (h ++ l = s.cfg.idA ∨ h ++ l = s.cfg.idB →
        Responded s t (some s.cfg.statusSuccess) none none ∧ t.initialized = true ∧ RecordOk t) ∧
      SentAfter s t [wireBytes s.cfg .rdid] ∧ SameCache s t ∧ SameChip s t ∧ t.cfg = s.cfg ∧
      t.seq = .idle ∧ t.cs = false ∧ t.inbox = s.inbox ∧ t.choices = more

/-- While the sequencer runs an operation that does not hold the guard, the five state-changing requests are refused
(R180, R208; D18), and so is every directly called wire command or primitive, called as its rule asks, while it runs any
operation (R120, log 13). -/
def Obligations.OccupiedSequencerRefuses : Prop :=
  ∀ (s : State) (op : Op) (rest : List Micro), s.seq = .run op rest →
    (op.holdsBusy = false → ∀ (blk : Word32) (d : List Byte),
      exec .init s = .refused .sequencerOccupied ∧ exec (.readBlock blk) s = .refused .sequencerOccupied ∧
      exec (.writeBlock blk d) s = .refused .sequencerOccupied ∧ exec .flush s = .refused .sequencerOccupied ∧
      exec .reformat s = .refused .sequencerOccupied) ∧
    (∀ i, isWire i = true → i.wf s.cfg = true → exec i s = .refused .sequencerOccupied) ∧
    (∀ p ∈ [.waitReady, .detect, .isPresent, .capacity, .eraseChip, .readUniqueId],
      callPrimitive p s = .refused .sequencerOccupied) ∧
    ∀ (a : Addr) (n g : Nat) (d : List Byte),
      callPrimitive (.readBytes a n) s = .refused .sequencerOccupied ∧
      (a.toNat % s.cfg.pageSize = 0 → d.length = s.cfg.pageSize →
        callPrimitive (.programPage a d) s = .refused .sequencerOccupied) ∧
      (g ∈ Config.eraseSizes → a.toNat % g = 0 → callPrimitive (.eraseSector a g) s = .refused .sequencerOccupied)

/-- Before an INITIALIZE has succeeded the four data operations are refused, three queries are answered and two are
answered with any value (R191). -/
def Obligations.RefusedBeforeInitialize : Prop :=
  ∀ (s : State) (blk : Word32) (d : List Byte), s.initialized = false →
    (occupied s = false →
      exec (.readBlock blk) s = .refused .notInitialized ∧ exec (.writeBlock blk d) s = .refused .notInitialized ∧
      exec .flush s = .refused .notInitialized ∧ exec .reformat s = .refused .notInitialized) ∧
    (∃ t, exec .blockSize s = .next t ∧ Queried (some (BitVec.ofNat 32 (2 * s.cfg.pageSize))) s t) ∧
    (∃ t, exec .supportsDma s = .next t ∧ Queried (some 0) s t) ∧
    (∃ t, exec .isBusy s = .next t ∧ Queried (some (if s.busy then 1 else 0)) s t) ∧
    (∃ t, exec .blockCount s = .next t ∧ Queried none s t) ∧ (∃ t, exec .totalSize s = .next t ∧ Queried none s t)

/-- A block number out of range is refused whatever the guard holds; INITIALIZE is refused after a success, and INITIALIZE
and REFORMAT while `busy` is 1 (R192, R181, R180, R208). -/
def Obligations.AdmissionRefusals : Prop :=
  ∀ (s : State) (blk : Word32) (d : List Byte), occupied s = false →
    (s.initialized = true → s.pageCount.toNat / 2 ≤ blk.toNat →
      exec (.readBlock blk) s = .refused .blockOutOfRange ∧
      exec (.writeBlock blk d) s = .refused .blockOutOfRange) ∧
    (s.initialized = true → exec .init s = .refused .alreadyInitialized) ∧
    (s.initialized = false → s.busy = true → exec .init s = .refused .busyReentry) ∧
    (s.initialized = true → s.busy = true → exec .reformat s = .refused .busyReentry)

/-- A read, write or flush that arrives while `busy` is 1 is dropped, whether the block is idle or a read or write runs:
a success at once, no bus event, nothing of the block changed (R165, R180, R200, R202; that a flush is dropped too is the
spec's own decision D17; R184's any value is read as the status of a FLUSH carried out, log 22). -/
def Obligations.BusyRequestsDropped : Prop :=
  ∀ (s : State) (blk : Word32) (d : List Byte), s.initialized = true → s.busy = true →
    (s.seq = .idle ∨ ∃ op rest, s.seq = .run op rest ∧ op.holdsBusy = true) →
    (blk.toNat < blockCountOf s →
      ∃ t, exec (.readBlock blk) s = .next t ∧ Dropped (some s.cfg.statusSuccess) s t) ∧
    (blk.toNat < blockCountOf s → d.length = s.cfg.blockSize →
      ∃ t, exec (.writeBlock blk d) s = .next t ∧ Dropped (some s.cfg.statusSuccess) s t) ∧
    (∃ t, exec .flush s = .next t ∧ Dropped (some s.cfg.statusSuccess) s t)

/-! ### Reads and writes -/

/-- A read of a block of the cached sector, Clean or Dirty, answers at once from the cache: no bus event, nothing of the
block changed (R166, R164, R161). -/
def Obligations.ReadHitServesTheCache : Prop :=
  ∀ (s : State) (blk : Word32), s.seq = .idle → s.initialized = true → s.busy = false →
    blk.toNat < blockCountOf s → s.loaded = true → s.sectorNumber.toNat = blk.toNat / s.cfg.blocksPerSector →
    ∃ t, exec (.readBlock blk) s = .next t ∧ SameBlock s t ∧ NoBus s t ∧ t.inbox = s.inbox ∧
      Responded s t (some s.cfg.statusSuccess) none
        (some (slice s.buffer (blk.toNat % s.cfg.blocksPerSector * s.cfg.blockSize) s.cfg.blockSize))

/-- A read of a sector that is not cached, from Empty or Clean: the sector's pages are read in ascending order, the cache
is Clean with the flash's bytes, and the answer is the block's flash bytes; the flash is unchanged (R166, R162, R161). -/
def Obligations.ReadMissLoadsTheSector : Prop :=
  ∀ (s : State) (blk : Word32), Serving s → blk.toNat < blockCountOf s → s.dirty = false →
    ¬ (s.loaded = true ∧ s.sectorNumber.toNat = (resolve s.cfg blk.toNat).1) →
    ∃ t, exec (.readBlock blk) s = .next t ∧ ServedFrame s t ∧ SameChip s t ∧ t.choices = s.choices ∧
      Responded s t (some s.cfg.statusSuccess) none
        (some (flashBytes s (blk.toNat * s.cfg.blockSize) s.cfg.blockSize)) ∧
      t.loaded = true ∧ t.dirty = false ∧ t.sectorNumber.toNat = (resolve s.cfg blk.toNat).1 ∧
      t.buffer = flashBytes s (sectorBase s.cfg (resolve s.cfg blk.toNat).1) s.cfg.sectorSize ∧
      SentAfter s t ((loadCommands s.cfg (resolve s.cfg blk.toNat).1).map (wireBytes s.cfg))

/-- A read of another sector while the cache is Dirty: the dirty sector is written back before the first READ of the new
one, then the new one is loaded; the cache ends Clean (R166, R163, R164, R68). -/
def Obligations.ReadEvictsADirtySector : Prop :=
  ∀ (s : State) (blk : Word32), Serving s → blk.toNat < blockCountOf s → s.dirty = true →
    s.sectorNumber.toNat ≠ (resolve s.cfg blk.toNat).1 → ReadyFor (pollsPerFlush s.cfg) s →
    ∃ t, exec (.readBlock blk) s = .next t ∧ ServedFrame s t ∧ ChipReady t ∧ FlashWf t ∧
      t.choices = s.choices.drop (pollsPerFlush s.cfg) ∧
      Responded s t (some s.cfg.statusSuccess) none
        (some (flashBytes s (blk.toNat * s.cfg.blockSize) s.cfg.blockSize)) ∧
      t.loaded = true ∧ t.dirty = false ∧ t.sectorNumber.toNat = (resolve s.cfg blk.toNat).1 ∧
      t.buffer = flashBytes s (sectorBase s.cfg (resolve s.cfg blk.toNat).1) s.cfg.sectorSize ∧
      flashBytes t (sectorBase s.cfg s.sectorNumber.toNat) s.cfg.sectorSize = s.buffer ∧
      (∀ x, x < sectorBase s.cfg s.sectorNumber.toNat ∨
        sectorBase s.cfg s.sectorNumber.toNat + s.cfg.sectorSize ≤ x → flash t x = flash s x) ∧
      SentAfter s t ((flushCommands s.cfg s.sectorNumber.toNat s.buffer ++
        loadCommands s.cfg (resolve s.cfg blk.toNat).1).map (wireBytes s.cfg))

/-- A write to the cached sector: the block is copied into the cache and the cache is Dirty, without a bus event; every
other byte of the buffer and all of the flash are as they were (R167, R64, R161). -/
def Obligations.WriteHitStaysInTheCache : Prop :=
  ∀ (s : State) (blk : Word32) (d : List Byte), s.seq = .idle → quiet s = true → s.cfg.Valid → BufferFull s →
    s.initialized = true → s.busy = false → blk.toNat < blockCountOf s → d.length = s.cfg.blockSize →
    s.loaded = true → s.sectorNumber.toNat = (resolve s.cfg blk.toNat).1 →
    ∃ t, exec (.writeBlock blk d) s = .next t ∧ ServedFrame s t ∧ NoBus s t ∧
      Responded s t (some s.cfg.statusSuccess) none none ∧
      t.loaded = true ∧ t.dirty = true ∧ t.sectorNumber = s.sectorNumber ∧ BufferFull t ∧
      slice t.buffer (resolve s.cfg blk.toNat).2 s.cfg.blockSize = d ∧
      ∀ i, i < (resolve s.cfg blk.toNat).2 ∨ (resolve s.cfg blk.toNat).2 + s.cfg.blockSize ≤ i →
        t.buffer[i]? = s.buffer[i]?

/-- A write to a sector that is not cached, from Empty or Clean: the sector is loaded, then the block is copied in; the
cache is Dirty and the flash is unchanged (R167, R162, R64, R161). -/
def Obligations.WriteMissLoadsTheSector : Prop :=
  ∀ (s : State) (blk : Word32) (d : List Byte), Serving s → blk.toNat < blockCountOf s → d.length = s.cfg.blockSize →
    s.dirty = false → ¬ (s.loaded = true ∧ s.sectorNumber.toNat = (resolve s.cfg blk.toNat).1) →
    ∃ t, exec (.writeBlock blk d) s = .next t ∧ ServedFrame s t ∧ SameChip s t ∧ t.choices = s.choices ∧
      Responded s t (some s.cfg.statusSuccess) none none ∧
      t.loaded = true ∧ t.dirty = true ∧ t.sectorNumber.toNat = (resolve s.cfg blk.toNat).1 ∧
      t.buffer = splice (flashBytes s (sectorBase s.cfg (resolve s.cfg blk.toNat).1) s.cfg.sectorSize)
        (resolve s.cfg blk.toNat).2 d ∧
      SentAfter s t ((loadCommands s.cfg (resolve s.cfg blk.toNat).1).map (wireBytes s.cfg))

/-- Writing a block of another sector while the cache is Dirty causes exactly one erase of the old sector and the
reprogram of each of its pages with the merged contents before the new sector is loaded (R170, R167, R164). -/
def Obligations.WriteEvictsADirtySector : Prop :=
  ∀ (s : State) (blk : Word32) (d : List Byte), Serving s → blk.toNat < blockCountOf s → d.length = s.cfg.blockSize →
    s.dirty = true → s.sectorNumber.toNat ≠ (resolve s.cfg blk.toNat).1 → ReadyFor (pollsPerFlush s.cfg) s →
    ∃ t, exec (.writeBlock blk d) s = .next t ∧ ServedFrame s t ∧ ChipReady t ∧ FlashWf t ∧
      t.choices = s.choices.drop (pollsPerFlush s.cfg) ∧
      Responded s t (some s.cfg.statusSuccess) none none ∧
      t.loaded = true ∧ t.dirty = true ∧ t.sectorNumber.toNat = (resolve s.cfg blk.toNat).1 ∧
      t.buffer = splice (flashBytes s (sectorBase s.cfg (resolve s.cfg blk.toNat).1) s.cfg.sectorSize)
        (resolve s.cfg blk.toNat).2 d ∧
      flashBytes t (sectorBase s.cfg s.sectorNumber.toNat) s.cfg.sectorSize = s.buffer ∧
      (∀ x, x < sectorBase s.cfg s.sectorNumber.toNat ∨
        sectorBase s.cfg s.sectorNumber.toNat + s.cfg.sectorSize ≤ x → flash t x = flash s x) ∧
      SentAfter s t ((flushCommands s.cfg s.sectorNumber.toNat s.buffer ++
        loadCommands s.cfg (resolve s.cfg blk.toNat).1).map (wireBytes s.cfg))

/-! ### FLUSH and REFORMAT -/

/-- FLUSH of a Dirty cache: one erase of the sector and the program of each of its pages in order; the sector's flash
bytes are the buffer's, no other flash byte changes, and the cache is Clean with the sector still cached (R163, R168,
R184). -/
def Obligations.FlushWritesBack : Prop :=
  ∀ s : State, Serving s → s.dirty = true → ReadyFor (pollsPerFlush s.cfg) s →
    ∃ t, exec .flush s = .next t ∧ ServedFrame s t ∧ ChipReady t ∧ FlashWf t ∧
      t.choices = s.choices.drop (pollsPerFlush s.cfg) ∧ Responded s t none none none ∧
      t.loaded = true ∧ t.dirty = false ∧ t.sectorNumber = s.sectorNumber ∧ t.buffer = s.buffer ∧
      flashBytes t (sectorBase s.cfg s.sectorNumber.toNat) s.cfg.sectorSize = s.buffer ∧
      (∀ x, x < sectorBase s.cfg s.sectorNumber.toNat ∨
        sectorBase s.cfg s.sectorNumber.toNat + s.cfg.sectorSize ≤ x → flash t x = flash s x) ∧
      SentAfter s t ((flushCommands s.cfg s.sectorNumber.toNat s.buffer).map (wireBytes s.cfg)) ∧
      transactionCount t = transactionCount s + 3 * (s.cfg.pagesPerSector + 1)

/-- FLUSH of a cache that is not dirty is a no-op: no bus event, nothing of the block changed (R163, R67, R171). -/
def Obligations.FlushWhenNotDirtyDoesNothing : Prop :=
  ∀ s : State, s.seq = .idle → s.initialized = true → s.busy = false → s.dirty = false →
    ∃ t, exec .flush s = .next t ∧ SameBlock s t ∧ NoBus s t ∧ t.inbox = s.inbox ∧ t.result = s.result ∧
      Responded s t none none none

/-- REFORMAT erases the chip and forgets the cache without flushing it, whatever the cache holds (R169, R147, R185). -/
def Obligations.ReformatErasesAndForgets : Prop :=
  ∀ s : State, Serving s → ReadyFor 1 s →
    ∃ t, exec .reformat s = .next t ∧ ServedFrame s t ∧ ChipReady t ∧ FlashWf t ∧
      t.choices = s.choices.tail ∧ Responded s t none none none ∧
      t.loaded = false ∧ t.dirty = false ∧ t.sectorNumber = s.sectorNumber ∧ t.buffer = s.buffer ∧
      (∀ x, flash t x = s.cfg.erasedByte) ∧ SentAfter s t ([.wren, .ce, .rdsr1].map (wireBytes s.cfg))

/-! ### Queries and geometry -/

/-- BLOCK_COUNT is half the page count, with pages of 256 bytes 2048 for the 1 MiB device and 16384 for the 8 MiB device,
and TOTAL_SIZE that many blocks in bytes, which for a detected device is its capacity; each is any value before a
successful INITIALIZE (R191; the spec's D22); neither writes state of the block or causes a bus event, whatever the
sequencer is doing (R186, R187, R180; the rounding is the spec's D31, the answer at once its D40). -/
def Obligations.SizeQueries : Prop :=
  ∀ s : State,
    (∃ t, exec .blockCount s = .next t ∧
      Queried (if s.initialized then some (BitVec.ofNat 32 (s.pageCount.toNat / 2)) else none) s t ∧
      (s.cfg.pageSize = 256 → s.initialized = true → RecordOk s →
        Queried (some (if s.deviceId = s.cfg.idA then 2048 else 16384)) s t)) ∧
    (∃ t, exec .totalSize s = .next t ∧
      Queried (if s.initialized then some (BitVec.ofNat 32 (s.pageCount.toNat / 2 * (2 * s.cfg.pageSize))) else none)
        s t ∧
      (s.cfg.Valid → s.initialized = true → RecordOk s → Queried (some s.capacity) s t))

/-- In every state, whatever the sequencer is doing, BLOCK_SIZE answers two pages, SUPPORTS_DMA false, and IS_BUSY the
reentrancy flag, whatever the chip's own busy bit is, with no bus event and no state of the block written; so IS_BUSY
answers 1 only while a READ_BLOCK or WRITE_BLOCK runs (R188, R189, R190; that a running operation changes nothing of this
is the spec's own decision D40, R180). -/
def Obligations.ConstantQueriesAndIsBusy : Prop :=
  ∀ s : State,
    (∃ t, exec .blockSize s = .next t ∧ Queried (some (BitVec.ofNat 32 (2 * s.cfg.pageSize))) s t) ∧
    (∃ t, exec .supportsDma s = .next t ∧ Queried (some 0) s t) ∧
    (∃ t, exec .isBusy s = .next t ∧ Queried (some (if s.busy then 1 else 0)) s t ∧
      (GuardInv s → Queried (some (match s.seq with
        | .run (.readBlock _) _ => 1
        | .run .writeBlock _ => 1
        | _ => 0)) s t))

/-- Every admitted block lies in one sector of the device: `resolve` agrees with the byte-address form, the whole sector
is within the capacity, and every address the block computes for it fits the wire and is aligned (R53 to R57, R160). -/
def Obligations.AdmittedBlocksLieInTheDevice : Prop :=
  ∀ (s : State) (b p : Nat), s.cfg.Valid → RecordOk s → b < blockCountOf s → p < s.cfg.pagesPerSector →
    (resolve s.cfg b).1 = b * s.cfg.blockSize / s.cfg.sectorSize ∧
    (resolve s.cfg b).2 = b * s.cfg.blockSize % s.cfg.sectorSize ∧
    (resolve s.cfg b).2 + s.cfg.blockSize ≤ s.cfg.sectorSize ∧
    ((resolve s.cfg b).1 + 1) * s.cfg.sectorSize ≤ s.capacity.toNat ∧ s.capacity.toNat ≤ 2 ^ 24 ∧
    (addrOf (pageAddr s.cfg (resolve s.cfg b).1 p)).toNat
      = (resolve s.cfg b).1 * s.cfg.sectorSize + p * s.cfg.pageSize ∧
    aligned s.cfg.pageSize (addrOf (pageAddr s.cfg (resolve s.cfg b).1 p)) = true ∧
    aligned s.cfg.sectorSize (addrOf (sectorBase s.cfg (resolve s.cfg b).1)) = true

/-! ### Headlines -/

/-- `writeBlock(B, P)` followed immediately by `readBlock(B)` returns P, even before any flush, and the read touches
neither the bus nor the block (R63). -/
def Obligations.WriteThenReadReturnsTheData : Prop :=
  ∀ (s : State) (blk : Word32) (d : List Byte), Serving s → blk.toNat < blockCountOf s → d.length = s.cfg.blockSize →
    ReadyFor (pollsPerFlush s.cfg) s →
    ∃ t u, exec (.writeBlock blk d) s = .next t ∧ exec (.readBlock blk) t = .next u ∧
      Responded t u (some s.cfg.statusSuccess) none (some d) ∧ NoBus t u ∧ SameBlock t u

/-- One data operation acts on the block device as on an array of blocks: a read answers with the block's content, a write
replaces one block, a flush changes none; what the block needs to serve the next one, and the agreement of a Clean cache
with the flash, are kept (R63, R65, R66). -/
def Obligations.DataOperationsActOnAnArray : Prop :=
  ∀ (s : State) (i : Instr), Serving s → Coherent s → Admissible s i → ReadyFor (pollsPerFlush s.cfg) s →
    ∃ t, exec i s = .next t ∧ Serving t ∧ Coherent t ∧ blockCountOf t = blockCountOf s ∧ t.cfg = s.cfg ∧
      (∀ n, ReadyFor (pollsPerFlush s.cfg + n) s → ReadyFor n t) ∧
      (∀ blk, i = .readBlock blk →
        Responded s t (some s.cfg.statusSuccess) none (some (logicalBlock s blk.toNat))) ∧
      ∀ b, b < blockCountOf s → logicalBlock t b = storeAfter (logicalBlock s) i b

/-- Any number of admitted reads, writes and flushes, one after another, complete, and leave the block device holding the
array of blocks that the writes among them make of it (R63). -/
def Obligations.RequestsActOnAnArray : Prop :=
  ∀ (s : State) (requests : List Instr), Serving s → Coherent s → (∀ i ∈ requests, Admissible s i) →
    ReadyFor (requests.length * pollsPerFlush s.cfg) s →
    ∃ t, serveAll requests s = .next t ∧ Serving t ∧ Coherent t ∧
      ∀ b, b < blockCountOf s → logicalBlock t b = requests.foldl storeAfter (logicalBlock s) b

/-- A write followed by a FLUSH is in the flash, and is still there after a loss of power (R67, R64, R216). -/
def Obligations.FlushedWritesSurvivePowerLoss : Prop :=
  ∀ (s : State) (blk : Word32) (d : List Byte), Serving s → blk.toNat < blockCountOf s → d.length = s.cfg.blockSize →
    ReadyFor (2 * pollsPerFlush s.cfg) s →
    ∃ t u v, exec (.writeBlock blk d) s = .next t ∧ exec .flush t = .next u ∧ powerLossEvent u = .next v ∧
      flashBytes u (blk.toNat * s.cfg.blockSize) s.cfg.blockSize = d ∧
      flashBytes v (blk.toNat * s.cfg.blockSize) s.cfg.blockSize = d ∧ cacheState v = some .empty

/-- After a REFORMAT every block reads as erased, whatever was written before and not flushed (R69, R185). -/
def Obligations.ReformatLosesPendingWrites : Prop :=
  ∀ (s : State) (blk b : Word32) (d : List Byte), Serving s → blk.toNat < blockCountOf s → b.toNat < blockCountOf s →
    d.length = s.cfg.blockSize → ReadyFor (pollsPerFlush s.cfg + 1) s →
    ∃ t u v, exec (.writeBlock blk d) s = .next t ∧ exec .reformat t = .next u ∧ exec (.readBlock b) u = .next v ∧
      Responded u v (some s.cfg.statusSuccess) none (some (List.replicate s.cfg.blockSize s.cfg.erasedByte))

/-! ### The busy-wait -/

/-- The hang: as long as the chip's polls read busy the sequencer stays in its poll loop, one RDSR1 transaction a step,
with no response, the cache and the guard as they were, and the flash unchanged; nothing bounds the number of steps
(R140, R203). That a step is one such transaction is the model's choice of a step (log 9). -/
def Obligations.BusyWaitGoesOnWhileTheChipIsBusy : Prop :=
  ∀ (s : State) (op : Op) (polls k : Nat) (rest : List Micro), s.seq = .run op (Driver.poll s.cfg polls ++ rest) →
    s.cs = false → quiet s = true → s.cfg.Valid → cacheState s ≠ none → s.cfg.pollLimit = none →
    s.chip.kind ≠ .absent → s.chip.busy ≠ .ready → k ≤ s.choices.length →
    (∀ v ∈ s.choices.take k, statusBusy v = true) →
    ∃ t, Host.Core.run core k s = .next t ∧ t.seq = .run op (Driver.poll s.cfg (polls + k) ++ rest) ∧
      SameCache s t ∧ SameIdentity s t ∧ SameChip s t ∧ t.responses = s.responses ∧ t.inbox = s.inbox ∧
      t.cs = false ∧ t.cfg = s.cfg ∧ t.choices = s.choices.drop k ∧
      SentAfter s t (List.replicate k (wireBytes s.cfg .rdsr1))

/-- A busy-wait ends as soon as a poll reads ready: a REFORMAT whose busy-wait needs `k + 1` polls takes `2 + (k + 1)`
transactions and `k` further steps, then gives its response (R140, R169, R171). That each busy poll ends a step is the
model's choice of a step (log 9). -/
def Obligations.ReformatEndsWhenThePollReadsReady : Prop :=
  ∀ (s : State) (busys more : List Byte) (v : Byte), Serving s → s.cfg.pollLimit = none →
    s.choices = busys ++ v :: more → (∀ b ∈ busys, statusBusy b = true) → statusBusy v = false →
    ∃ t u, exec .reformat s = .next t ∧ Host.Core.run core busys.length t = .next u ∧
      cacheState u = some .empty ∧ u.seq = .idle ∧ u.choices = more ∧ ChipReady u ∧
      (∀ x, flash u x = s.cfg.erasedByte) ∧ u.responses.length = s.responses.length + 1 ∧
      transactionCount u = transactionCount s + 2 + (busys.length + 1)

/-! ### Invariants of the step -/

/-- Every step keeps the flash content in its canonical form, the buffer at its fixed size, and the parameters as they
were (R25, R6; the canonical form is the model's, log 6). -/
def Obligations.StepKeepsTheMemories : Prop :=
  ∀ s t : State, FlashWf s → BufferFull s → step s = .next t → FlashWf t ∧ BufferFull t ∧ t.cfg = s.cfg

/-- Every step keeps `dirty` implying `loaded`, now and at every point of what is left to do (R23). -/
def Obligations.StepKeepsDirtyImpliesLoaded : Prop :=
  ∀ s t : State, FlagInv s → step s = .next t → FlagInv t ∧ DirtyLoaded t

/-- Every step keeps the use of the bus legal, and from a state with that invariant no step is refused for an illegal bus
action: transactions never overlap, and each poll stands between transactions (R35, R72, R120). -/
def Obligations.StepUsesTheBusLegally : Prop :=
  (∀ s t : State, BusInv s → step s = .next t → BusInv t) ∧
  (∀ s : State, BusInv s → step s ≠ .refused .illegalBusAction)

/-- Every step keeps the device record right whenever `initialized` is 1 (R28 to R31). -/
def Obligations.StepKeepsTheDeviceRecord : Prop :=
  ∀ s t : State, RecordInv s → step s = .next t → RecordInv t ∧ (t.initialized = true → RecordOk t)

/-- Every step keeps the guard at 1 exactly while a read or write runs (R27, R165, R190). -/
def Obligations.StepKeepsTheGuard : Prop :=
  ∀ s t : State, GuardInv s → step s = .next t → GuardInv t

/-- No instruction but INITIALIZE writes the device record, and none but READ_BLOCK and WRITE_BLOCK the guard (R28, R27). -/
def Obligations.OnlyTheirOwnersWrite : Prop :=
  ∀ (i : Instr) (s t : State), exec i s = .next t →
    (i ≠ .init → SameIdentity s t) ∧
    ((∀ b, i ≠ .readBlock b) → (∀ b d, i ≠ .writeBlock b d) → t.busy = s.busy)

/-- The invariants hold in the reset state, with nothing listed in the flash. -/
def Obligations.InvariantsHoldAtReset : Prop :=
  FlashWf State.reset ∧ BufferFull State.reset ∧ FlagInv State.reset ∧ BusInv State.reset ∧ RecordInv State.reset ∧
    GuardInv State.reset ∧ State.reset.cfg.Valid ∧ quiet State.reset = true

/-! ### Waiting and reading -/

/-- `waitReady` is one poll when that poll reads ready, and leaves a chip that is there ready and otherwise as it was;
`readBytes` is one READ, which returns the flash bytes in ascending order as far as the chip has them; `readUniqueId` is one
RDUID, which returns eight bytes; the last two change nothing of the chip (R140, R144, R148, R76; that RDUID answers eight
bytes is general knowledge, R130, G13, log 23). -/
def Obligations.WaitAndReadPrimitives : Prop :=
  ∀ (s : State) (a : Addr) (n : Nat), Calm s →
    (ReadyFor 1 s →
      ∃ t, callPrimitive .waitReady s = .next t ∧ PrimitiveDone [.rdsr1] s t ∧ t.result = .none ∧
        t.choices = s.choices.tail ∧ t.chip.kind = s.chip.kind ∧ t.chip.mem = s.chip.mem ∧ t.chip.wel = s.chip.wel ∧
        (s.chip.kind ≠ .absent → t.chip.busy = .ready)) ∧
    (ChipReady s →
      (∃ t got, callPrimitive (.readBytes a n) s = .next t ∧ PrimitiveDone [.read a n] s t ∧ t.result = .bytes got ∧
        got.length = n ∧ (∀ i, i < n → a.toNat + i < flashSize s → got[i]? = some (flash s (a.toNat + i))) ∧
        SameChip s t) ∧
      (∃ t u, callPrimitive .readUniqueId s = .next t ∧ PrimitiveDone [.rduid] s t ∧ t.result = .bytes u ∧
        u.length = 8 ∧ SameChip s t ∧ t.choices = s.choices))
end

