-- ==== Sys2Proof/Laws/Memory.lean ====
section
/-! SUPPORT. The flash array: what a read gives after each operation, and that each keeps the canonical form. -/

namespace Sys2Proof.Machine.Memory

variable {d : Byte} {m : Memory} {a b n lo k : Nat} {v : Byte}

@[simp] theorem read_nil : read d [] a = d := rfl

theorem read_of_forall_lt (h : ∀ x ∈ m, a < x.1) : read d m a = d := by
  induction m with
  | nil => rfl
  | cons x m ih =>
    have hx := h x (by simp)
    simp only [read]
    rw [if_neg (by omega)]
    exact ih fun y hy => h y (by simp [hy])

theorem read_put (h : ∀ x ∈ m, a < x.1) : read d (put d a v m) b = if b = a then v else read d m b := by
  unfold put
  split
  next hv =>
    subst hv
    split
    next hb => subst hb; exact read_of_forall_lt h
    next => rfl
  next =>
    simp only [read]
    split <;> split <;> first | rfl | omega

theorem wf_tail {x : Host.Cell} (h : wf d (x :: m)) : wf d m :=
  ⟨(List.pairwise_cons.1 h.1).2, fun y hy => h.2 y (by simp [hy])⟩

theorem wf_head {x : Host.Cell} (h : wf d (x :: m)) : ∀ y ∈ m, x.1 < y.1 :=
  (List.pairwise_cons.1 h.1).1

/-- A write sets its own byte and no other. -/
theorem read_write (h : wf d m) : read d (write d m a v) b = if b = a then v else read d m b := by
  induction m with
  | nil => exact read_put (by simp)
  | cons x m ih =>
    have hlt := wf_head h
    simp only [write]
    split
    next hax =>
      exact read_put fun y hy => by
        rcases List.mem_cons.1 hy with rfl | hy
        · exact hax
        · exact lt_trans hax (hlt y hy)
    next hax =>
      split
      next hax' =>
        rw [read_put (fun y hy => by rw [hax']; exact hlt y hy)]
        split
        · rfl
        · simp only [read]; rw [if_neg (by omega)]
      next hax' =>
        simp only [read, ih (wf_tail h)]
        split <;> split <;> first | rfl | omega

theorem wf_put (h : wf d m) (hlt : ∀ x ∈ m, a < x.1) : wf d (put d a v m) := by
  unfold put
  split
  · exact h
  next hv =>
    refine ⟨List.pairwise_cons.2 ⟨hlt, h.1⟩, fun y hy => ?_⟩
    rcases List.mem_cons.1 hy with rfl | hy
    · exact hv
    · exact h.2 y hy

theorem mem_put {x : Host.Cell} (h : x ∈ put d a v m) : x = (a, v) ∨ x ∈ m := by
  unfold put at h
  split at h
  · exact .inr h
  · exact List.mem_cons.1 h

/-- A write lists no address but its own and those listed before. -/
theorem mem_write {x : Host.Cell} (h : x ∈ write d m a v) : x = (a, v) ∨ x ∈ m := by
  induction m with
  | nil => exact mem_put h
  | cons y m ih =>
    simp only [write] at h
    split at h
    · exact mem_put h
    · split at h
      · exact (mem_put h).imp id (List.mem_cons_of_mem _)
      · rcases List.mem_cons.1 h with rfl | h
        · exact .inr (by simp)
        · exact (ih h).imp id (List.mem_cons_of_mem _)

/-- A write keeps the canonical form. -/
theorem wf_write (h : wf d m) : wf d (write d m a v) := by
  induction m with
  | nil => exact wf_put h (by simp)
  | cons x m ih =>
    have hlt := wf_head h
    simp only [write]
    split
    next hax =>
      exact wf_put h fun y hy => by
        rcases List.mem_cons.1 hy with rfl | hy
        · exact hax
        · exact lt_trans hax (hlt y hy)
    next hax =>
      split
      next hax' => exact wf_put (wf_tail h) (fun y hy => by rw [hax']; exact hlt y hy)
      next hax' =>
        have ih' := ih (wf_tail h)
        refine ⟨List.pairwise_cons.2 ⟨fun y hy => ?_, ih'.1⟩, fun y hy => ?_⟩
        · rcases mem_write hy with rfl | hy
          · show x.1 < a; omega
          · exact hlt y hy
        · rcases List.mem_cons.1 hy with rfl | hy
          · exact h.2 _ (by simp)
          · exact ih'.2 y hy

/-- An erase sets the bytes of its region to the erased byte and no other. -/
theorem read_erase : read d (erase m lo n) a = if lo ≤ a ∧ a < lo + n then d else read d m a := by
  induction m with
  | nil => simp [erase]
  | cons x m ih =>
    unfold erase at ih ⊢
    by_cases hx : lo ≤ x.1 ∧ x.1 < lo + n
    · rw [List.filter_cons_of_neg (by simp [hx]), ih]
      simp only [read]
      split
      · rfl
      next hc => rw [if_neg (by rintro rfl; exact hc hx)]
    · rw [List.filter_cons_of_pos (by simp; omega)]
      simp only [read, ih]
      split
      next hxa => rw [if_neg (by rw [← hxa]; exact hx)]
      next => rfl

/-- An erase keeps the canonical form. -/
theorem wf_erase (h : wf d m) : wf d (erase m lo n) :=
  ⟨h.1.filter _, fun x hx => h.2 x (List.mem_filter.1 hx).1⟩

theorem mem_erase {x : Host.Cell} (h : x ∈ erase m lo n) : x ∈ m := (List.mem_filter.1 h).1

/-- Programming keeps the canonical form. -/
theorem wf_program {data : List Byte} (h : wf d m) : wf d (program d m a data k) := by
  induction data generalizing m a k with
  | nil => exact h
  | cons v data ih => exact ih (wf_write h)

/-- Programming changes no byte outside its data's range. -/
theorem read_program_other {data : List Byte} (h : wf d m) (hb : b < a ∨ a + data.length ≤ b) :
    read d (program d m a data k) b = read d m b := by
  induction data generalizing m a k with
  | nil => rfl
  | cons v data ih =>
    simp only [List.length_cons] at hb
    simp only [program]
    rw [ih (wf_write h) (by omega), read_write h, if_neg (by omega)]

/-- An erased byte takes its data; a byte that is not erased takes a free value (R75). -/
theorem read_program {data : List Byte} (h : wf d m) {i : Nat} (hi : i < data.length) :
    read d (program d m a data k) (a + i) =
      if read d m (a + i) = d then data[i] else Config.freeByte (k + i) := by
  induction data generalizing m a k i with
  | nil => simp at hi
  | cons v data ih =>
    simp only [program]
    cases i with
    | zero =>
      rw [read_program_other (wf_write h) (by omega), read_write h]
      simp
    | succ i =>
      have hi' : i < data.length := by simpa using hi
      have := @ih (write d m a (if read d m a = d then v else Config.freeByte k)) (a + 1) (k + 1) (wf_write h) i hi'
      have hw : read d (write d m a (if read d m a = d then v else Config.freeByte k)) (a + 1 + i)
          = read d m (a + 1 + i) := by rw [read_write h, if_neg (by omega)]
      rw [show a + (i + 1) = a + 1 + i by omega, this, hw, show k + 1 + i = k + (i + 1) by omega]
      simp

/-- Spoiling keeps the canonical form. -/
theorem wf_spoil (h : wf d m) : wf d (spoil d m a n k) := by
  induction n generalizing m a k with
  | zero => exact h
  | succ n ih => exact ih (wf_write h)

/-- Spoiling changes no byte outside its range. -/
theorem read_spoil_other (h : wf d m) (hb : b < a ∨ a + n ≤ b) : read d (spoil d m a n k) b = read d m b := by
  induction n generalizing m a k with
  | zero => rfl
  | succ n ih =>
    simp only [spoil]
    rw [ih (wf_write h) (by omega), read_write h, if_neg (by omega)]

@[simp] theorem length_readRange : (readRange d m a n).length = n := by simp [readRange]

theorem getElem_readRange {i : Nat} (hi : i < (readRange d m a n).length) :
    (readRange d m a n)[i] = read d m (a + i) := by simp [readRange]

end Sys2Proof.Machine.Memory
end

