-- ==== Sys2Proof/Laws/Drive.lean ====
section
/-! SUPPORT. Runs of micro-operations: how they compose, and what quiet states do. -/

namespace Sys2Proof.Machine

/-- What a run leads to when more follows it. -/
def Drive.followedBy (r : Drive) (more : List Micro) : Drive :=
  match r with
  | .done s => drive more s
  | .paused rest s => .paused (rest ++ more) s
  | .gaveUp s => .gaveUp s
  | .stopped e => .stopped e

/-- A run of a concatenation is a run of its first part, then of its second. -/
theorem drive_append (xs ys : List Micro) (s : State) :
    drive (xs ++ ys) s = (drive xs s).followedBy ys := by
  induction xs generalizing s with
  | nil => rfl
  | cons m xs ih =>
    simp only [List.cons_append, drive]
    split
    · rfl
    · split <;> simp [ih, Drive.followedBy]

/-- Where no busy time can end, the opcode changes nothing. -/
theorem busyAtOpcode_self {s : State} {out : Byte} (h : s.chip.kind = .absent ∨ s.chip.txn ≠ none ∨ s.chip.busy = .ready ∨
    out = s.cfg.opRdsr1) : busyAtOpcode out s = s := if_pos h

/-- An opcode changes nothing but the chip's busy condition and the answers to come. -/
theorem busyAtOpcode_eq (out : Byte) (s : State) :
    ∃ b ch ak, busyAtOpcode out s = { s with chip := { s.chip with busy := b }, choices := ch, asked := ak } := by
  unfold busyAtOpcode
  split
  · exact ⟨_, _, _, rfl⟩
  · exact ⟨_, _, _, rfl⟩

section Quiet

variable {s s' : State}

theorem interrupted_of_quiet (h : quiet s = true) : interrupted s = false := by
  unfold quiet at h; unfold interrupted; split <;> simp_all

theorem tick_of_quiet (h : quiet s = true) : tick s = s := by
  unfold quiet at h; unfold tick; split <;> simp_all

theorem quiet_congr (h : s'.inbox = s.inbox) : quiet s' = quiet s := by
  unfold quiet; rw [h]

/-- In a quiet state a run performs its first micro-operation. -/
theorem drive_cons_of_quiet (h : quiet s = true) (m : Micro) (rest : List Micro) :
    drive (m :: rest) s =
      match perform m s with
      | .go s' => drive rest s'
      | .again more s' => .paused (more ++ rest) s'
      | .giveUp s' => .gaveUp s'
      | .stop e => .stopped e := by
  cases hp : perform m s <;> simp [drive, interrupted_of_quiet h, tick_of_quiet h, hp]

theorem drive_go (h : quiet s = true) {m : Micro} {rest : List Micro} (hp : perform m s = .go s') :
    drive (m :: rest) s = drive rest s' := by
  rw [drive_cons_of_quiet h, hp]

end Quiet

end Sys2Proof.Machine
end

