-- ==== Sys2Proof/Laws/Transaction.lean ====
section
/-! SUPPORT. What one wire command does to the state, for each of the ten, with a ready chip and without a chip. -/

namespace Sys2Proof.Machine

/-! ### What the driver leaves alone -/

/-- Bus activity that sent these transactions, oldest first, and left the block and the host's side alone. -/
structure Did (s s' : State) (sent : List (List Byte)) : Prop where
  block : SameBlock s s'
  host : SameHostSide s s'
  result : s'.result = s.result
  frames : framesFrom s'.history [] = sent.reverse ++ framesFrom s.history []

theorem SameCache.refl (s : State) : SameCache s s := ⟨rfl, rfl, rfl, rfl, rfl⟩
theorem SameIdentity.refl (s : State) : SameIdentity s s := ⟨rfl, rfl, rfl, rfl⟩
theorem SameBlock.refl (s : State) : SameBlock s s := ⟨rfl, .refl s, .refl s, rfl, rfl⟩
theorem SameHostSide.refl (s : State) : SameHostSide s s := ⟨rfl, rfl⟩

theorem SameCache.trans {a b c : State} (h : SameCache a b) (k : SameCache b c) : SameCache a c :=
  ⟨k.1.trans h.1, k.2.trans h.2, k.3.trans h.3, k.4.trans h.4, k.5.trans h.5⟩
theorem SameIdentity.trans {a b c : State} (h : SameIdentity a b) (k : SameIdentity b c) : SameIdentity a c :=
  ⟨k.1.trans h.1, k.2.trans h.2, k.3.trans h.3, k.4.trans h.4⟩
theorem SameBlock.trans {a b c : State} (h : SameBlock a b) (k : SameBlock b c) : SameBlock a c :=
  ⟨k.cfg.trans h.cfg, h.cache.trans k.cache, h.identity.trans k.identity, k.seq.trans h.seq, k.cs.trans h.cs⟩
theorem SameHostSide.trans {a b c : State} (h : SameHostSide a b) (k : SameHostSide b c) : SameHostSide a c :=
  ⟨k.1.trans h.1, k.2.trans h.2⟩

theorem Did.refl (s : State) : Did s s [] := ⟨.refl s, .refl s, rfl, rfl⟩

theorem Did.trans {a b c : State} {x y : List (List Byte)} (h : Did a b x) (k : Did b c y) : Did a c (x ++ y) :=
  ⟨h.block.trans k.block, h.host.trans k.host, k.result.trans h.result, by
    rw [k.frames, h.frames, List.reverse_append, List.append_assoc]⟩

theorem Did.quiet {s s' : State} {x : List (List Byte)} (h : Did s s' x) (q : quiet s = true) : quiet s' = true := by
  rw [quiet_congr h.host.inbox]; exact q

theorem Did.sentAfter {s s' : State} {x : List (List Byte)} (h : Did s s' x) : SentAfter s s' x := by
  unfold SentAfter Machine.frames
  rw [h.frames, List.reverse_append, List.reverse_reverse]

/-! ### The phases of a transaction -/

/-- These events, newest first, are transfers that sent these bytes, oldest first. -/
def Transfers (events : List BusEvent) (sent : List Byte) : Prop :=
  ∀ h acc, framesFrom (events ++ h) acc = framesFrom h (sent ++ acc)

theorem Transfers.nil : Transfers [] [] := fun _ _ => rfl

theorem Transfers.cons {events : List BusEvent} {sent : List Byte} (b v : Byte) (h : Transfers events sent) :
    Transfers (events ++ [.x b v]) (b :: sent) := fun hist acc => by
  rw [List.append_assoc, h]; rfl

/-- The transaction after these bytes. -/
def Txn.pushAll (t : Txn) (bytes : List Byte) : Txn := bytes.foldl Txn.push t

@[simp] theorem Txn.push_op (t : Txn) (b : Byte) : (t.push b).op = t.op := by unfold Txn.push; split <;> rfl
@[simp] theorem Txn.push_count (t : Txn) (b : Byte) : (t.push b).count = t.count + 1 := by
  unfold Txn.push; split <;> rfl

/-- The chip answers any value to the next `n` bytes of this transaction. -/
def Mute (c : Config) (t : Txn) (n : Nat) : Prop :=
  t.op ≠ c.opRdsr1 ∧ (t.count + n ≤ 3 ∨ (t.op ≠ c.opRead ∧ t.op ≠ c.opRdid ∧ (t.op ≠ c.opRduid ∨ t.count + n ≤ 4)))

theorem Mute.answer {c : Config} {t : Txn} {n : Nat} (h : Mute c t (n + 1)) (k : Chip) : k.answer c t = .any := by
  unfold Chip.answer
  obtain ⟨h1, h2⟩ := h
  rw [if_neg h1]
  split
  next hr => rw [if_neg]; rcases h2 with h2 | h2; omega; exact absurd hr h2.1
  next =>
    split
    next hr =>
      rcases h2 with h2 | h2
      · rw [if_neg (by omega), if_neg (by omega)]
      · exact absurd hr h2.2.1
    next =>
      split
      next hr =>
        rw [if_neg]; rcases h2 with h2 | h2
        · omega
        · rcases h2.2.2 with h2 | h2
          · exact absurd hr h2
          · omega
      next => rfl

theorem Mute.push {c : Config} {t : Txn} {n : Nat} (h : Mute c t (n + 1)) (b : Byte) : Mute c (t.push b) n := by
  refine ⟨by simpa using h.1, ?_⟩
  simp only [Txn.push_op, Txn.push_count]
  rcases h.2 with h | ⟨h1, h2, h⟩
  · exact .inl (by omega)
  · exact .inr ⟨h1, h2, h.imp id (by omega)⟩

/-- Sending bytes to a chip that answers any value. -/
theorem drive_sends {bs : List Byte} {s : State} {t : Txn} (q : quiet s = true) (hcs : s.cs = true)
    (hk : s.chip.kind ≠ .absent) (ht : s.chip.txn = some t) (hm : Mute s.cfg t bs.length) (rest : List Micro) :
    ∃ ev d, drive (bs.map Micro.send ++ rest) s
        = drive rest { s with chip := { s.chip with txn := some (t.pushAll bs) }, draws := d, history := ev ++ s.history }
      ∧ d = s.draws + bs.length
      ∧ Transfers ev bs := by
  induction bs generalizing s t with
  | nil =>
    refine ⟨[], s.draws, ?_, rfl, .nil⟩
    have : s.chip = { s.chip with txn := some (t.pushAll []) } := by
      rw [show t.pushAll [] = t from rfl, ← ht]
    simp only [List.map_nil, List.nil_append]
    rw [← this]
  | cons b bs ih =>
    simp only [List.length_cons] at hm
    have hp : perform (.send b) s = .go { s with
        chip := { s.chip with txn := some (t.push b) }, draws := s.draws + 1
        history := .x b (Config.freeByte s.draws) :: s.history } := by
      have htake : s.chip.take s.cfg b = .ok (.any, { s.chip with txn := some (t.push b) }) := by
        unfold Chip.take
        split
        · exact absurd ‹_› hk
        · rw [ht]; simp only; rw [hm.answer]
      simp only [perform, busXfer, busyAtOpcode_self (s := s) (.inr (.inl (by simp [ht]))), transfer, hcs, htake, onBus, answerByte, drawByte, not_true_eq_false, if_false,
        Bool.false_eq_true]
    obtain ⟨ev, d, hd, hn, hev⟩ := ih (s := { s with
        chip := { s.chip with txn := some (t.push b) }, draws := s.draws + 1
        history := .x b (Config.freeByte s.draws) :: s.history }) (t := t.push b) q hcs hk rfl (hm.push b)
    refine ⟨ev ++ [.x b (Config.freeByte s.draws)], d, ?_, by simp only [hn, List.length_cons]; omega, hev.cons b _⟩
    rw [List.map_cons, List.cons_append, drive_go q hp, hd, List.append_assoc]
    rfl

/-- The chip answers exactly these bytes to the next dummies of this transaction. -/
def Answers (c : Config) (k : Chip) : Txn → List Byte → Prop
  | _, [] => True
  | t, b :: bs => k.answer c t = .byte b ∧ Answers c k (t.push c.dummyOut) bs

theorem Chip.answer_txn (c : Config) (k : Chip) (t : Txn) (x : Option Txn) :
    ({ k with txn := x } : Chip).answer c t = k.answer c t := rfl

theorem Answers.txn {c : Config} {k : Chip} {t : Txn} {bs : List Byte} (x : Option Txn) (h : Answers c k t bs) :
    Answers c { k with txn := x } t bs := by
  induction bs generalizing t with
  | nil => trivial
  | cons b bs ih => exact ⟨h.1, ih h.2⟩

theorem take_of_txn {c : Config} {k : Chip} {t : Txn} (hk : k.kind ≠ .absent) (ht : k.txn = some t) (b : Byte) :
    k.take c b = .ok (k.answer c t, { k with txn := some (t.push b) }) := by
  unfold Chip.take
  split
  · exact absurd ‹_› hk
  · rw [ht]

/-- Receiving bytes the chip determines. -/
theorem drive_recvs {ans : List Byte} {s : State} {t : Txn} (q : quiet s = true) (hcs : s.cs = true)
    (hk : s.chip.kind ≠ .absent) (ht : s.chip.txn = some t) (ha : Answers s.cfg s.chip t ans) (rest : List Micro) :
    ∃ ev, drive (List.replicate ans.length Micro.recv ++ rest) s
        = drive rest { s with
            chip := { s.chip with txn := some (t.pushAll (List.replicate ans.length s.cfg.dummyOut)) }
            rx := s.rx ++ ans, history := ev ++ s.history }
      ∧ Transfers ev (List.replicate ans.length s.cfg.dummyOut) := by
  induction ans generalizing s t with
  | nil =>
    refine ⟨[], ?_, .nil⟩
    have : s.chip = { s.chip with txn := some t } := by rw [← ht]
    simp only [List.length_nil, List.replicate_zero, List.nil_append, List.append_nil, Txn.pushAll, List.foldl_nil]
    rw [← this]
  | cons b ans ih =>
    have hp : perform .recv s = .go { s with
        chip := { s.chip with txn := some (t.push s.cfg.dummyOut) }, rx := s.rx ++ [b]
        history := .x s.cfg.dummyOut b :: s.history } := by
      simp only [perform, busXfer, busyAtOpcode_self (s := s) (.inr (.inl (by simp [ht]))), transfer, hcs, take_of_txn hk ht, ha.1, onBus, answerByte, not_true_eq_false, if_false,
        if_true]
    obtain ⟨ev, hd, hev⟩ := ih (s := { s with
        chip := { s.chip with txn := some (t.push s.cfg.dummyOut) }, rx := s.rx ++ [b]
        history := .x s.cfg.dummyOut b :: s.history }) (t := t.push s.cfg.dummyOut) q hcs hk rfl (ha.2.txn _)
    refine ⟨ev ++ [.x s.cfg.dummyOut b], ?_, hev.cons _ b⟩
    rw [List.length_cons, List.replicate_succ, List.cons_append, drive_go q hp, hd]
    simp only [List.append_assoc, List.cons_append, List.nil_append, List.replicate_succ, Txn.pushAll,
      List.foldl_cons]

/-- The transaction the chip holds after its opcode byte. -/
def Txn.start (op : Byte) : Txn := { op := op, count := 0, addr := [], data := [] }

theorem perform_sel {s : State} (hcs : s.cs = false) :
    perform .sel s = .go { s with
      cs := true, rx := [], chip := { s.chip with txn := none }, history := .sel :: s.history } := by
  simp [perform, busSelect, hcs, onBus]

theorem perform_op {s : State} {op : Byte} (hcs : s.cs = true) (hk : s.chip.kind ≠ .absent) (ht : s.chip.txn = none)
    (hop : op ∈ s.cfg.opcodes) (hb : s.chip.busy = .ready ∨ op = s.cfg.opRdsr1) :
    perform (.send op) s = .go { s with
      chip := { s.chip with txn := some (Txn.start op) }, draws := s.draws + 1
      history := .x op (Config.freeByte s.draws) :: s.history } := by
  have htake : s.chip.take s.cfg op = .ok (.any, { s.chip with txn := some (Txn.start op) }) := by
    unfold Chip.take
    split
    · exact absurd ‹_› hk
    · rw [ht]
      simp only [not_not.2 hop, if_false]
      rw [if_neg (by rintro ⟨h1, h2⟩; rcases hb with hb | hb; exact h1 hb; exact h2 hb)]
      rfl
  simp only [perform, busXfer, busyAtOpcode_self (s := s) (.inr (.inr hb)), transfer, hcs, htake, onBus, answerByte,
    drawByte, not_true_eq_false, if_false, Bool.false_eq_true]

theorem release_of_txn {c : Config} {k : Chip} {t : Txn} {d : Nat} (hk : k.kind ≠ .absent) (ht : k.txn = some t) :
    k.release c d = k.command c t d := by
  unfold Chip.release
  split
  · exact absurd ‹_› hk
  · rw [ht]

/-- A whole transaction with a chip that is there and takes the command (R90, R120): the block is unchanged, the bytes
are on the bus, the answers are kept, and the chip is what its command makes it. -/
theorem drive_transaction {s : State} {op : Byte} {bs ans : List Byte} {R : Chip → Prop} (q : quiet s = true)
    (hcs : s.cs = false) (hk : s.chip.kind ≠ .absent) (hop : op ∈ s.cfg.opcodes)
    (hb : s.chip.busy = .ready ∨ op = s.cfg.opRdsr1) (hm : Mute s.cfg (Txn.start op) bs.length)
    (ha : Answers s.cfg s.chip ((Txn.start op).pushAll bs) ans)
    (hc : ∀ d, d = s.draws + (bs.length + 1) → let t := ((Txn.start op).pushAll bs).pushAll (List.replicate ans.length s.cfg.dummyOut)
      ∃ k, ({ s.chip with txn := some t } : Chip).command s.cfg t d = .ok k ∧ R k)
    (rest : List Micro) :
    ∃ s', drive (Driver.transaction (op :: bs) ans.length ++ rest) s = drive rest s'
      ∧ Did s s' [op :: bs ++ List.replicate ans.length s.cfg.dummyOut]
      ∧ s'.rx = ans ∧ s'.choices = s.choices ∧ s'.asked = s.asked ∧ R s'.chip := by
  unfold Driver.transaction
  simp only [List.map_cons, List.cons_append, List.append_assoc, List.nil_append]
  rw [drive_go q (perform_sel hcs)]
  rw [drive_go (s := { s with cs := true, rx := [], chip := { s.chip with txn := none }, history := .sel :: s.history })
    q (perform_op rfl hk rfl hop hb)]
  obtain ⟨ev1, d1, h1, hn, e1⟩ := drive_sends (bs := bs) (t := Txn.start op) (s := { s with
    cs := true, rx := [], chip := { s.chip with txn := some (Txn.start op) }, draws := s.draws + 1
    history := .x op (Config.freeByte s.draws) :: .sel :: s.history }) q rfl hk rfl hm
    (List.replicate ans.length Micro.recv ++ .des :: rest)
  rw [h1]
  obtain ⟨ev2, h2, e2⟩ := drive_recvs (ans := ans) (t := (Txn.start op).pushAll bs) (s := { s with
    cs := true, rx := [], chip := { s.chip with txn := some ((Txn.start op).pushAll bs) }, draws := d1
    history := ev1 ++ .x op (Config.freeByte s.draws) :: .sel :: s.history }) q rfl hk rfl (ha.txn _) (.des :: rest)
  rw [h2]
  obtain ⟨k, hk1, hR⟩ := hc d1 (by simp only [hn]; omega)
  refine ⟨{ s with
    cs := false, rx := ans, chip := k, draws := d1 + s.cfg.pageSize
    history := .des :: (ev2 ++ (ev1 ++ .x op (Config.freeByte s.draws) :: .sel :: s.history)) },
    drive_go (s := { s with
      cs := true, rx := ans, draws := d1
      chip := { s.chip with
        txn := some (((Txn.start op).pushAll bs).pushAll (List.replicate ans.length s.cfg.dummyOut)) }
      history := ev2 ++ (ev1 ++ .x op (Config.freeByte s.draws) :: .sel :: s.history) }) q ?_,
    ⟨⟨rfl, ⟨rfl, rfl, rfl, rfl, rfl⟩, ⟨rfl, rfl, rfl, rfl⟩, rfl, ?_⟩, ⟨rfl, rfl⟩, rfl, ?_⟩, rfl, rfl, rfl, hR⟩
  · have hr := (release_of_txn (c := s.cfg) (d := d1) (k := { s.chip with
      txn := some (((Txn.start op).pushAll bs).pushAll (List.replicate ans.length s.cfg.dummyOut)) }) hk rfl).trans hk1
    simp only [perform, busDeselect, onBus, not_true_eq_false, if_false, hr]
  · exact hcs.symm
  · simp only [framesFrom]
    rw [e2, e1]
    simp [framesFrom]

end Sys2Proof.Machine
end

