-- ==== Sys2Proof/Laws/Wire.lean ====
section
/-! SUPPORT. One lemma per wire command: what the state is after it, with a ready chip. -/

namespace Sys2Proof.Machine

/-! ### Runs that send transactions -/

/-- The block may use the bus, and nothing but a busy poll can suspend it. -/
structure Free (s : State) : Prop where
  quiet : quiet s = true
  cs : s.cs = false
  valid : s.cfg.Valid

theorem Calm.free {s : State} (h : Calm s) : Free s := ⟨h.2.2.1, h.2.1, h.2.2.2⟩

/-- A run of bus activity to its end. -/
structure Ran (prog : List Micro) (s s' : State) (sent : List (List Byte)) : Prop where
  run : drive prog s = .done s'
  did : Did s s' sent

theorem Did.free {s s' : State} {x : List (List Byte)} (h : Did s s' x) (f : Free s) : Free s' :=
  ⟨h.quiet f.quiet, h.block.cs.trans f.cs, h.block.cfg ▸ f.valid⟩

theorem Ran.nil (s : State) : Ran [] s s [] := ⟨rfl, .refl s⟩

theorem Ran.append {p p' : List Micro} {a b c : State} {x y : List (List Byte)} (h : Ran p a b x) (k : Ran p' b c y) :
    Ran (p ++ p') a c (x ++ y) :=
  ⟨by rw [drive_append, h.run]; exact k.run, h.did.trans k.did⟩

theorem Ran.then {p : List Micro} {a b : State} {x : List (List Byte)} (h : Ran p a b x) (more : List Micro) :
    drive (p ++ more) a = drive more b := by
  rw [drive_append, h.run]; rfl

/-- The ten opcodes are pairwise distinct (R97). -/
theorem distinct_of_valid {c : Config} (h : c.Valid) :
    (c.opWren ≠ c.opPp ∧ c.opWren ≠ c.opRead ∧ c.opWren ≠ c.opRdsr1 ∧ c.opWren ≠ c.opSe4k ∧ c.opWren ≠ c.opBe32k ∧
      c.opWren ≠ c.opBe64k ∧ c.opWren ≠ c.opCe ∧ c.opWren ≠ c.opRdid ∧ c.opWren ≠ c.opRduid) ∧
    (c.opPp ≠ c.opRead ∧ c.opPp ≠ c.opRdsr1 ∧ c.opPp ≠ c.opSe4k ∧ c.opPp ≠ c.opBe32k ∧ c.opPp ≠ c.opBe64k ∧
      c.opPp ≠ c.opCe ∧ c.opPp ≠ c.opRdid ∧ c.opPp ≠ c.opRduid) ∧
    (c.opRead ≠ c.opRdsr1 ∧ c.opRead ≠ c.opSe4k ∧ c.opRead ≠ c.opBe32k ∧ c.opRead ≠ c.opBe64k ∧
      c.opRead ≠ c.opCe ∧ c.opRead ≠ c.opRdid ∧ c.opRead ≠ c.opRduid) ∧
    (c.opRdsr1 ≠ c.opSe4k ∧ c.opRdsr1 ≠ c.opBe32k ∧ c.opRdsr1 ≠ c.opBe64k ∧ c.opRdsr1 ≠ c.opCe ∧
      c.opRdsr1 ≠ c.opRdid ∧ c.opRdsr1 ≠ c.opRduid) ∧
    (c.opSe4k ≠ c.opBe32k ∧ c.opSe4k ≠ c.opBe64k ∧ c.opSe4k ≠ c.opCe ∧ c.opSe4k ≠ c.opRdid ∧ c.opSe4k ≠ c.opRduid) ∧
    (c.opBe32k ≠ c.opBe64k ∧ c.opBe32k ≠ c.opCe ∧ c.opBe32k ≠ c.opRdid ∧ c.opBe32k ≠ c.opRduid) ∧
    (c.opBe64k ≠ c.opCe ∧ c.opBe64k ≠ c.opRdid ∧ c.opBe64k ≠ c.opRduid) ∧
    (c.opCe ≠ c.opRdid ∧ c.opCe ≠ c.opRduid) ∧ c.opRdid ≠ c.opRduid := by
  have hn := h.2.2.2.1
  simp only [Config.opcodes, List.nodup_cons, List.mem_cons, List.not_mem_nil, not_or, or_false, not_false_eq_true,
    List.nodup_nil, and_true] at hn
  tauto

/-! ### The transaction a command leaves in the chip -/

@[simp] theorem Txn.pushAll_op (t : Txn) (bs : List Byte) : (t.pushAll bs).op = t.op := by
  induction bs generalizing t with
  | nil => rfl
  | cons b bs ih => rw [Txn.pushAll, List.foldl_cons]; exact (ih _).trans (Txn.push_op t b)

@[simp] theorem Txn.pushAll_count (t : Txn) (bs : List Byte) : (t.pushAll bs).count = t.count + bs.length := by
  induction bs generalizing t with
  | nil => rfl
  | cons b bs ih =>
    rw [Txn.pushAll, List.foldl_cons]; refine (ih _).trans ?_; simp; omega

theorem Txn.pushAll_append (t : Txn) (xs ys : List Byte) : t.pushAll (xs ++ ys) = (t.pushAll xs).pushAll ys :=
  List.foldl_append ..

theorem Txn.pushAll_data {t : Txn} (h : 3 ≤ t.count) (bs : List Byte) :
    (t.pushAll bs).addr = t.addr ∧ (t.pushAll bs).data = bs.reverse ++ t.data := by
  induction bs generalizing t with
  | nil => exact ⟨rfl, rfl⟩
  | cons b bs ih =>
    have hp : t.push b = { t with count := t.count + 1, data := b :: t.data } := by
      unfold Txn.push; rw [if_neg (by omega)]
    obtain ⟨h1, h2⟩ := ih (t := t.push b) (by simp; omega)
    rw [Txn.pushAll, List.foldl_cons]
    refine ⟨h1.trans (by rw [hp]), h2.trans (by rw [hp]; simp)⟩

/-- The address bytes put an address into the transaction (R93). -/
theorem Txn.start_addr (op : Byte) (a : Addr) :
    (Txn.start op).pushAll (addrBytes a) = { op := op, count := 3, addr := addrBytes a, data := [] } := rfl

theorem joinAddr_addrBytes (a : Addr) :
    joinAddr (a.extractLsb' 16 8) (a.extractLsb' 8 8) (a.extractLsb' 0 8) = a := by
  unfold joinAddr
  apply BitVec.eq_of_getLsbD_eq
  intro i hi
  simp only [BitVec.getLsbD_append, BitVec.getLsbD_extractLsb']
  by_cases h1 : i < 8
  · simp [h1]
  · by_cases h2 : i - 8 < 8
    · simp [h1, h2, show 8 + (i - 8) = i by omega]
    · simp [h1, h2, show i - 8 - 8 < 8 by omega, show 16 + (i - 8 - 8) = i by omega]

theorem addrFrom_addrBytes (a : Addr) : addrFrom (addrBytes a) = a := joinAddr_addrBytes a

/-! ### The commands -/

/-- What a finished PP transaction makes the chip do (R122, R75). -/
theorem command_pp {c : Config} (hv : c.Valid) (k : Chip) (a : Addr) {d : List Byte} (hl : d.length = c.pageSize)
    (m : Nat) : k.command c ((Txn.start c.opPp).pushAll (addrBytes a ++ d)) m = k.programNow c a.toNat d m := by
  have hd := distinct_of_valid hv
  have ht := Txn.pushAll_data (t := (Txn.start c.opPp).pushAll (addrBytes a)) (le_of_eq rfl) d
  have hadr : ((Txn.start c.opPp).pushAll (addrBytes a ++ d)).address = a.toNat := by
    unfold Txn.address
    rw [Txn.pushAll_append, ht.1, Txn.start_addr, addrFrom_addrBytes]
  have hdat : ((Txn.start c.opPp).pushAll (addrBytes a ++ d)).data.reverse = d := by
    rw [Txn.pushAll_append, ht.2, Txn.start_addr]; simp
  have hcnt : ((Txn.start c.opPp).pushAll (addrBytes a ++ d)).count = 3 + c.pageSize := by
    simp [Txn.start, addrBytes, hl]; omega
  simp only [Chip.command, Txn.pushAll_op, show (Txn.start c.opPp).op = c.opPp from rfl, if_neg hd.1.1.symm,
    if_true, hcnt, hadr, hdat]

/-- What a finished erase transaction makes the chip do (R125 to R127, R74). -/
theorem command_erase {c : Config} (hv : c.Valid) (k : Chip) (a : Addr) {op : Byte} {g : Nat}
    (ho : (op, g) ∈ [(c.opSe4k, 4096), (c.opBe32k, 32768), (c.opBe64k, 65536)]) (m : Nat) :
    k.command c ((Txn.start op).pushAll (addrBytes a)) m = k.eraseNow a.toNat g m := by
  have hd := distinct_of_valid hv
  have hadr : ((Txn.start op).pushAll (addrBytes a)).address = a.toNat := by
    unfold Txn.address
    rw [Txn.start_addr, addrFrom_addrBytes]
  have hcnt : ((Txn.start op).pushAll (addrBytes a)).count = 3 := rfl
  simp only [List.mem_cons, Prod.mk.injEq, List.not_mem_nil, or_false] at ho
  rcases ho with ⟨rfl, rfl⟩ | ⟨rfl, rfl⟩ | ⟨rfl, rfl⟩
  · simp only [Chip.command, Txn.pushAll_op, show (Txn.start c.opSe4k).op = c.opSe4k from rfl, hd.1.2.2.2.1.symm,
      hd.2.1.2.2.1.symm, if_false, if_true, hcnt, hadr]
  · simp only [Chip.command, Txn.pushAll_op, show (Txn.start c.opBe32k).op = c.opBe32k from rfl,
      hd.1.2.2.2.2.1.symm, hd.2.1.2.2.2.1.symm, hd.2.2.2.2.1.1.symm, if_false, if_true, hcnt, hadr]
  · simp only [Chip.command, Txn.pushAll_op, show (Txn.start c.opBe64k).op = c.opBe64k from rfl,
      hd.1.2.2.2.2.2.1.symm, hd.2.1.2.2.2.2.1.symm, hd.2.2.2.2.1.2.1.symm, hd.2.2.2.2.2.1.1.symm, if_false, if_true,
      hcnt, hadr]

section Ready

variable {s : State}

/-- WREN (R121): the latch is set (R78). -/
theorem ran_wren (f : Free s) (h : ChipReady s) :
    ∃ s', Ran (Driver.wren s.cfg) s s' [[s.cfg.opWren]] ∧ s'.choices = s.choices ∧ s'.asked = s.asked ∧
      s'.chip = { s.chip with wel := true, txn := none } := by
  have hd := distinct_of_valid f.valid
  obtain ⟨s', h1, h2, h3, h4, h5, h6⟩ := drive_transaction (s := s) (op := s.cfg.opWren) (bs := []) (ans := [])
    (R := fun k => k = { s.chip with wel := true, txn := none }) f.quiet f.cs h.1 (by simp [Config.opcodes])
    (.inl h.2) ⟨hd.1.2.2.1, .inl (by simp [Txn.start])⟩ trivial
    (fun d _ => ⟨_, by simp [Chip.command, Txn.pushAll, Txn.start], rfl⟩) []
  exact ⟨s', ⟨by simpa [drive, Driver.wren] using h1, h2⟩, h4, h5, h6⟩

/-- PP (R122, R75) with the latch set, at any address. -/
theorem ran_pp_any (f : Free s) (h : ChipReady s) {a : Addr} {d : List Byte} (hw : s.chip.wel = true)
    (hl : d.length = s.cfg.pageSize) :
    ∃ s', Ran (Driver.pp s.cfg a d) s s' [s.cfg.opPp :: addrBytes a ++ d] ∧ s'.choices = s.choices ∧
      s'.asked = s.asked ∧ s'.chip = s.chip.programmed s.cfg a.toNat d (s.draws + (d.length + 4)) := by
  have hd := distinct_of_valid f.valid
  obtain ⟨s', h1, h2, h3, h4, h5, h6⟩ := drive_transaction (s := s) (op := s.cfg.opPp) (bs := addrBytes a ++ d)
    (ans := []) (R := fun k => k = s.chip.programmed s.cfg a.toNat d (s.draws + (d.length + 4))) f.quiet f.cs h.1
    (by simp [Config.opcodes]) (.inl h.2)
    ⟨hd.2.1.2.1, .inr ⟨hd.2.1.1, hd.2.1.2.2.2.2.2.2.1, .inl hd.2.1.2.2.2.2.2.2.2⟩⟩ trivial
    (fun m hm => ⟨_, by
      simp only [List.length_nil, List.replicate_zero, show ∀ t : Txn, t.pushAll [] = t from fun _ => rfl]
      rw [command_pp f.valid _ _ hl, Chip.programNow, if_neg (by simp [hw])], by
      have : m = s.draws + (d.length + 4) := by rw [hm]; simp [addrBytes]
      subst this; rfl⟩) []
  exact ⟨s', ⟨by simpa [drive, Driver.pp] using h1, by simpa using h2⟩, h4, h5, h6⟩

/-- PP (R122, R75) with the latch set, at an address the chip has. -/
theorem ran_pp (f : Free s) (h : ChipReady s) {a : Addr} {d : List Byte} (hw : s.chip.wel = true)
    (hl : d.length = s.cfg.pageSize) (hr : a.toNat + d.length ≤ flashSize s) :
    ∃ s' n, Ran (Driver.pp s.cfg a d) s s' [s.cfg.opPp :: addrBytes a ++ d] ∧ s'.choices = s.choices ∧
      s'.asked = s.asked ∧ s'.chip = { s.chip with
        mem := Memory.program s.cfg.erasedByte s.chip.mem a.toNat d n, busy := .programming a.toNat, wel := false
        txn := none } := by
  obtain ⟨s', h1, h2, h3, h4⟩ := ran_pp_any f h (a := a) hw hl
  exact ⟨s', _, h1, h2, h3, by rw [h4, Chip.programmed, if_pos (by exact hr)]⟩

/-- The erase command of each granularity (R125 to R127, R74) with the latch set, at any address. -/
theorem ran_erase_any (f : Free s) (h : ChipReady s) {a : Addr} {g : Nat} (hg : g ∈ Config.eraseSizes)
    (hw : s.chip.wel = true) :
    ∃ s', Ran (Driver.eraseCommand s.cfg a g) s s' [wireBytes s.cfg (eraseInstr a g)] ∧ s'.choices = s.choices ∧
      s'.asked = s.asked ∧ s'.chip = s.chip.erased a.toNat g (s.draws + 4) := by
  have hd := distinct_of_valid f.valid
  have key : ∀ op, (op, g) ∈ [(s.cfg.opSe4k, 4096), (s.cfg.opBe32k, 32768), (s.cfg.opBe64k, 65536)] →
      op ∈ s.cfg.opcodes → op ≠ s.cfg.opRdsr1 → op ≠ s.cfg.opRead → op ≠ s.cfg.opRdid → op ≠ s.cfg.opRduid →
      ∃ s', Ran (Driver.transaction (op :: addrBytes a) 0) s s' [op :: addrBytes a] ∧ s'.choices = s.choices ∧
      s'.asked = s.asked ∧ s'.chip = s.chip.erased a.toNat g (s.draws + 4) := by
    intro op hp hop h1 h2 h3 h4
    obtain ⟨s', e1, e2, e3, e4, e5, e6⟩ := drive_transaction (s := s) (op := op) (bs := addrBytes a) (ans := [])
      (R := fun k => k = s.chip.erased a.toNat g (s.draws + 4))
      f.quiet f.cs h.1 hop (.inl h.2) ⟨h1, .inr ⟨h2, h3, .inl h4⟩⟩ trivial
      (fun m hm => ⟨_, by
        simp only [List.length_nil, List.replicate_zero, show ∀ t : Txn, t.pushAll [] = t from fun _ => rfl]
        rw [command_erase f.valid _ _ hp, Chip.eraseNow, if_neg (by simp [hw])], by
        have : m = s.draws + 4 := hm
        subst this; rfl⟩) []
    exact ⟨s', ⟨by simpa [drive] using e1, by simpa using e2⟩, e4, e5, e6⟩
  unfold Driver.eraseCommand
  simp only [Config.eraseSizes, List.mem_cons, List.not_mem_nil, or_false] at hg
  rcases hg with rfl | rfl | rfl
  · exact key s.cfg.opSe4k (by simp) (by simp [Config.opcodes]) (by tauto) (by tauto) (by tauto) (by tauto)
  · exact key s.cfg.opBe32k (by simp) (by simp [Config.opcodes]) (by tauto) (by tauto) (by tauto) (by tauto)
  · exact key s.cfg.opBe64k (by simp) (by simp [Config.opcodes]) (by tauto) (by tauto) (by tauto) (by tauto)

/-- The erase command of each granularity with the latch set, at an address the chip has. -/
theorem ran_erase (f : Free s) (h : ChipReady s) {a : Addr} {g : Nat} (hg : g ∈ Config.eraseSizes)
    (hw : s.chip.wel = true) (hr : a.toNat < flashSize s) :
    ∃ s', Ran (Driver.eraseCommand s.cfg a g) s s' [wireBytes s.cfg (eraseInstr a g)] ∧ s'.choices = s.choices ∧
      s'.asked = s.asked ∧ s'.chip = { s.chip with
        mem := Memory.erase s.chip.mem (a.toNat / g * g) g, busy := .other, wel := false, txn := none } := by
  obtain ⟨s', h1, h2, h3, h4⟩ := ran_erase_any f h (a := a) hg hw
  exact ⟨s', h1, h2, h3, by rw [h4, Chip.erased, Chip.regionTarget, if_pos (by exact hr)]⟩

/-- CE (R128, R74) with the latch set: nothing is left listed, so every byte is erased. -/
theorem ran_ce (f : Free s) (h : ChipReady s) (hw : s.chip.wel = true) :
    ∃ s', Ran (Driver.ce s.cfg) s s' [[s.cfg.opCe]] ∧ s'.choices = s.choices ∧ s'.asked = s.asked ∧
      s'.chip = { s.chip with mem := [], busy := .other, wel := false, txn := none } := by
  have hd := distinct_of_valid f.valid
  obtain ⟨s', h1, h2, h3, h4, h5, h6⟩ := drive_transaction (s := s) (op := s.cfg.opCe) (bs := []) (ans := [])
    (R := fun k => k = { s.chip with mem := [], busy := .other, wel := false, txn := none }) f.quiet f.cs h.1
    (by simp [Config.opcodes]) (.inl h.2) ⟨by tauto, .inl (by simp [Txn.start])⟩ trivial
    (fun d _ => ⟨_, by
      simp only [List.length_nil, List.replicate_zero, show ∀ t : Txn, t.pushAll [] = t from fun _ => rfl,
        Chip.command, show (Txn.start s.cfg.opCe).op = s.cfg.opCe from rfl,
        show (Txn.start s.cfg.opCe).count = 0 from rfl, hd.1.2.2.2.2.2.2.1.symm, hd.2.1.2.2.2.2.2.1.symm,
        hd.2.2.2.2.1.2.2.1.symm, hd.2.2.2.2.2.1.2.1.symm, hd.2.2.2.2.2.2.1.1.symm, if_false, if_true,
        Chip.eraseAllNow, hw, not_true_eq_false], rfl⟩) []
  exact ⟨s', ⟨by simpa [drive, Driver.ce] using h1, h2⟩, h4, h5, h6⟩

/-- READ inside the chip (R123, R76): the flash bytes from the address on. -/
theorem ran_read (f : Free s) (h : ChipReady s) {a : Addr} {n : Nat} (hr : a.toNat + n ≤ flashSize s) :
    ∃ s', Ran (Driver.read s.cfg a n) s s' [s.cfg.opRead :: addrBytes a ++ dummies s.cfg n] ∧
      s'.rx = Memory.readRange s.cfg.erasedByte s.chip.mem a.toNat n ∧ s'.choices = s.choices ∧
      s'.asked = s.asked ∧ s'.chip = { s.chip with txn := none } := by
  have hd := distinct_of_valid f.valid
  have answers : ∀ m t, t.op = s.cfg.opRead → 3 ≤ t.count → t.addr = addrBytes a → t.count - 3 + m ≤ n →
      Answers s.cfg s.chip t (Memory.readRange s.cfg.erasedByte s.chip.mem (a.toNat + (t.count - 3)) m) := by
    intro m
    induction m with
    | zero => intros; simp [Memory.readRange, Answers]
    | succ m ih =>
      intro t ho hc ha hm
      have hadr : t.address = a.toNat := by unfold Txn.address; rw [ha, addrFrom_addrBytes]
      rw [Memory.readRange, List.range_succ_eq_map, List.map_cons, List.map_map]
      refine ⟨?_, ?_⟩
      · unfold Chip.answer
        rw [if_neg (by rw [ho]; tauto), if_pos ho, hadr, if_pos ⟨hc, by unfold flashSize at hr; omega⟩]
        simp
      · have hp := ih (t.push s.cfg.dummyOut) (by simpa using ho) (by simp; omega)
          (by unfold Txn.push; rw [if_neg (by omega)]; exact ha) (by simp; omega)
        rw [Memory.readRange] at hp
        convert hp using 3
        simp only [Function.comp, Txn.push_count]
        congr 1; omega
  obtain ⟨s', h1, h2, h3, h4, h5, h6⟩ := drive_transaction (s := s) (op := s.cfg.opRead) (bs := addrBytes a)
    (ans := Memory.readRange s.cfg.erasedByte s.chip.mem a.toNat n) (R := fun k => k = { s.chip with txn := none })
    f.quiet f.cs h.1 (by simp [Config.opcodes]) (.inl h.2)
    ⟨by tauto, .inl (by simp [Txn.start, addrBytes])⟩
    (by simpa [Txn.start_addr] using answers n ((Txn.start s.cfg.opRead).pushAll (addrBytes a)) rfl (le_of_eq rfl) rfl
          (by simp [Txn.start_addr]))
    (fun d _ => ⟨_, by
      simp only [Chip.command, Txn.pushAll_op, show (Txn.start s.cfg.opRead).op = s.cfg.opRead from rfl,
        hd.1.2.1.symm, hd.2.1.1.symm, hd.2.2.1.2.1, hd.2.2.1.2.2.1, hd.2.2.1.2.2.2.1, hd.2.2.1.2.2.2.2.1, if_false,
        if_true]
      rw [if_pos (by simp [Txn.start, addrBytes])], rfl⟩) []
  refine ⟨s', ⟨by simpa [drive, Driver.read] using h1, by simpa [dummies] using h2⟩, h3, h4, h5, h6⟩

/-- RDID (R129, R79): the identifier of the part, high byte first. -/
theorem ran_rdid (f : Free s) (h : ChipReady s) :
    ∃ s', Ran (Driver.rdid s.cfg) s s' [s.cfg.opRdid :: [0, 0, 0] ++ dummies s.cfg 2] ∧
      s'.rx = [(idBytes (Chip.identifier s.cfg s.chip.kind)).1, (idBytes (Chip.identifier s.cfg s.chip.kind)).2] ∧
      s'.choices = s.choices ∧ s'.asked = s.asked ∧ s'.chip = { s.chip with txn := none } := by
  have hd := distinct_of_valid f.valid
  obtain ⟨s', h1, h2, h3, h4, h5, h6⟩ := drive_transaction (s := s) (op := s.cfg.opRdid) (bs := [0, 0, 0])
    (ans := [(idBytes (Chip.identifier s.cfg s.chip.kind)).1, (idBytes (Chip.identifier s.cfg s.chip.kind)).2])
    (R := fun k => k = { s.chip with txn := none })
    f.quiet f.cs h.1 (by simp [Config.opcodes]) (.inl h.2) ⟨by tauto, .inl (by simp [Txn.start])⟩
    (by
      have h1 : s.cfg.opRdid ≠ s.cfg.opRdsr1 := by tauto
      have h2 : s.cfg.opRdid ≠ s.cfg.opRead := by tauto
      refine ⟨?_, ?_, trivial⟩ <;> simp [Chip.answer, Txn.start, h1, h2])
    (fun d _ => ⟨_, by
      simp only [Chip.command, Txn.pushAll_op, show (Txn.start s.cfg.opRdid).op = s.cfg.opRdid from rfl,
        hd.1.2.2.2.2.2.2.2.1.symm, hd.2.1.2.2.2.2.2.2.1.symm, hd.2.2.1.2.2.2.2.2.1.symm, hd.2.2.2.1.2.2.2.2.1.symm,
        hd.2.2.2.2.1.2.2.2.1.symm, hd.2.2.2.2.2.1.2.2.1.symm, hd.2.2.2.2.2.2.1.2.1.symm, hd.2.2.2.2.2.2.2.1.1.symm,
        if_false, if_true]
      rw [if_pos (by simp [Txn.start])], rfl⟩) []
  exact ⟨s', ⟨by simpa [drive, Driver.rdid] using h1, by simpa [dummies] using h2⟩, h3, h4, h5, h6⟩

/-- RDUID (R130): the eight bytes of the unique identifier. -/
theorem ran_rduid (f : Free s) (h : ChipReady s) :
    ∃ s', Ran (Driver.rduid s.cfg) s s' [s.cfg.opRduid :: dummies s.cfg 12] ∧
      s'.rx = (List.range 8).map Config.uniqueId ∧
      s'.choices = s.choices ∧ s'.asked = s.asked ∧ s'.chip = { s.chip with txn := none } := by
  have hd := distinct_of_valid f.valid
  obtain ⟨s', h1, h2, h3, h4, h5, h6⟩ := drive_transaction (s := s) (op := s.cfg.opRduid) (bs := dummies s.cfg 4)
    (ans := (List.range 8).map Config.uniqueId) (R := fun k => k = { s.chip with txn := none })
    f.quiet f.cs h.1 (by simp [Config.opcodes]) (.inl h.2)
    ⟨by tauto, .inr ⟨by tauto, by tauto, .inr (by simp [Txn.start, dummies])⟩⟩
    (by
      have h1 : s.cfg.opRduid ≠ s.cfg.opRdsr1 := by tauto
      have h2 : s.cfg.opRduid ≠ s.cfg.opRead := by tauto
      have h3 : s.cfg.opRduid ≠ s.cfg.opRdid := by tauto
      simp [Answers, List.range_succ, Chip.answer, Txn.start, dummies, h1, h2, h3])
    (fun d _ => ⟨_, by
      have h1 : s.cfg.opRduid ≠ s.cfg.opRead := by tauto
      have h2 : s.cfg.opRduid ≠ s.cfg.opRdsr1 := by tauto
      have h3 : s.cfg.opRduid ≠ s.cfg.opRdid := by tauto
      simp only [Chip.command, Txn.pushAll_op, show (Txn.start s.cfg.opRduid).op = s.cfg.opRduid from rfl,
        hd.1.2.2.2.2.2.2.2.2.symm, hd.2.1.2.2.2.2.2.2.2.symm, hd.2.2.2.2.1.2.2.2.2.symm, hd.2.2.2.2.2.1.2.2.2.symm,
        hd.2.2.2.2.2.2.1.2.2.symm, hd.2.2.2.2.2.2.2.1.2.symm, h1, h2, h3, if_false]
      rw [if_pos (by simp [Txn.start, dummies])], rfl⟩) []
  exact ⟨s', ⟨by simpa [drive, Driver.rduid] using h1, by simpa [dummies] using h2⟩, h3, h4, h5, h6⟩

/-- RDSR1 (R124, R77): one status byte, as the chip and the environment give it. -/
theorem ran_rdsr1 (f : Free s) (h : s.chip.kind ≠ .absent) :
    ∃ s', Ran (Driver.rdsr1 s.cfg) s s' [s.cfg.opRdsr1 :: dummies s.cfg 1] ∧
      s'.rx = [statusByte s.chip.busy (nextAnswer s)] ∧
      s'.choices = s.choices.tail ∧ s'.asked = (answered s).asked ∧
      s'.chip = { s.chip with busy := busyAfterRead s.chip.busy (nextAnswer s), txn := none } := by
  let b := statusByte s.chip.busy (nextAnswer s)
  let k : Chip := { s.chip with busy := busyAfterRead s.chip.busy (nextAnswer s) }
  let s1 : State := { s with cs := true, rx := [], chip := { s.chip with txn := none }, history := .sel :: s.history }
  let s2 : State := { s1 with
    chip := { s.chip with txn := some (Txn.start s.cfg.opRdsr1) }, draws := s.draws + 1
    history := .x s.cfg.opRdsr1 (Config.freeByte s.draws) :: s1.history }
  let s3 : State := { s2 with
    chip := { k with txn := some ((Txn.start s.cfg.opRdsr1).push s.cfg.dummyOut) }, rx := [b]
    choices := s.choices.tail, asked := (answered s).asked, history := .x s.cfg.dummyOut b :: s2.history }
  let s4 : State := { s3 with
    cs := false, chip := { k with txn := none }, draws := s.draws + 1 + s.cfg.pageSize
    history := .des :: s3.history }
  have p1 : perform .sel s = .go s1 := perform_sel f.cs
  have p2 : perform (.send s.cfg.opRdsr1) s1 = .go s2 :=
    perform_op (s := s1) rfl h rfl (by simp [s1, Config.opcodes]) (.inr rfl)
  have hd := distinct_of_valid f.valid
  have p3 : perform .recv s2 = .go s3 := by
    have ht := take_of_txn (c := s.cfg) (k := s2.chip) (t := Txn.start s.cfg.opRdsr1) h rfl s.cfg.dummyOut
    have ha : s2.chip.answer s.cfg (Txn.start s.cfg.opRdsr1) = .status := by
      unfold Chip.answer; exact if_pos (show (Txn.start s.cfg.opRdsr1).op = s.cfg.opRdsr1 from rfl)
    rw [ha] at ht
    show onBus (busXfer true s.cfg.dummyOut s2) = .go s3
    unfold busXfer
    rw [if_neg (by simp [s2, s1]), busyAtOpcode_self (s := s2) (.inr (.inl (by simp [s2])))]
    unfold transfer
    rw [show s2.cfg = s.cfg from rfl, ht]
    rfl
  have p4 : perform .des s3 = .go s4 := by
    have hr := release_of_txn (c := s.cfg) (k := s3.chip) (d := s3.draws)
      (t := (Txn.start s.cfg.opRdsr1).push s.cfg.dummyOut) h rfl
    have hc : s3.chip.command s.cfg ((Txn.start s.cfg.opRdsr1).push s.cfg.dummyOut) s3.draws
        = .ok { k with txn := none } := by
      simp only [Chip.command, Txn.push_op, show (Txn.start s.cfg.opRdsr1).op = s.cfg.opRdsr1 from rfl,
        hd.1.2.2.1.symm, hd.2.1.2.1.symm, hd.2.2.1.1.symm, hd.2.2.2.1.1, hd.2.2.2.1.2.1, hd.2.2.2.1.2.2.1,
        hd.2.2.2.1.2.2.2.1, if_false, if_true]
      rw [if_pos (by simp [Txn.start])]
    rw [hc] at hr
    show onBus (busDeselect s3) = .go s4
    unfold busDeselect
    rw [if_neg (by simp [s3, s2, s1]), show s3.cfg = s.cfg from rfl, hr]
    rfl
  refine ⟨s4, ⟨?_, ⟨⟨rfl, ⟨rfl, rfl, rfl, rfl, rfl⟩, ⟨rfl, rfl, rfl, rfl⟩, rfl, f.cs.symm⟩, ⟨rfl, rfl⟩, rfl, rfl⟩⟩,
    rfl, rfl, rfl, rfl⟩
  show drive [.sel, .send s.cfg.opRdsr1, .recv, .des] s = .done s4
  rw [drive_go f.quiet p1, drive_go (s := s1) f.quiet p2, drive_go (s := s2) f.quiet p3,
    drive_go (s := s3) f.quiet p4]
  rfl

/-- The status byte reads busy exactly when the chip is busy and the environment says so. -/
theorem statusBusy_statusByte (busy : ChipBusy) (v : Byte) :
    statusBusy (statusByte busy v) = (decide (busy ≠ .ready) && statusBusy v) := by
  unfold statusByte
  split
  next h => simp [h, statusBusy, clearBusyBit]
  next h => simp [h]

/-- A poll that does not read busy ends the busy-wait, and leaves the chip ready (R140). -/
theorem ran_waitReady (f : Free s) (h : s.chip.kind ≠ .absent) (hv : statusBusy (nextAnswer s) = false) :
    ∃ s', Ran (Driver.waitReady s.cfg) s s' [s.cfg.opRdsr1 :: dummies s.cfg 1] ∧
      s'.choices = s.choices.tail ∧ s'.asked = (answered s).asked ∧
      s'.chip = { s.chip with busy := .ready, txn := none } := by
  obtain ⟨s', h1, h2, h3, h4, h5⟩ := ran_rdsr1 f h
  refine ⟨s', ⟨?_, h1.did⟩, h3, h4, by rw [h5, busyAfterRead, if_neg (by simp [hv])]⟩
  unfold Driver.waitReady Driver.poll
  rw [h1.then, drive_go (h1.did.quiet f.quiet) (s' := s')]
  · rfl
  · simp [perform, waitTest, polledStatus, h2, statusBusy_statusByte, hv]

/-- A poll that reads busy asks for another (R140), without end as there is no limit. -/
theorem drive_poll_busy (f : Free s) (h : s.chip.kind ≠ .absent) (hb : s.chip.busy ≠ .ready)
    (hv : statusBusy (nextAnswer s) = true) (hl : s.cfg.pollLimit = none) (polls : Nat) (rest : List Micro) :
    ∃ s', drive (Driver.poll s.cfg polls ++ rest) s = .paused (Driver.poll s.cfg (polls + 1) ++ rest) s' ∧
      Did s s' [s.cfg.opRdsr1 :: dummies s.cfg 1] ∧
      s'.choices = s.choices.tail ∧ s'.asked = (answered s).asked ∧ s'.chip = { s.chip with txn := none } := by
  obtain ⟨s', h1, h2, h3, h4, h5⟩ := ran_rdsr1 f h
  refine ⟨s', ?_, h1.did, h3, h4, by rw [h5, busyAfterRead, if_pos hv]⟩
  unfold Driver.poll
  rw [List.append_assoc, h1.then, List.singleton_append, drive_cons_of_quiet (h1.did.quiet f.quiet)]
  have hc := h1.did.block.cfg
  simp [perform, waitTest, polledStatus, h2, statusBusy_statusByte, hv, hb, hc, hl, Driver.poll]

end Ready

/-! ### Without a chip (R80) -/

section Absent

variable {s : State}

theorem drive_sends_absent {bs : List Byte} {s : State} (q : quiet s = true) (hcs : s.cs = true)
    (hk : s.chip.kind = .absent) (rest : List Micro) :
    ∃ ev d, drive (bs.map Micro.send ++ rest) s = drive rest { s with draws := d, history := ev ++ s.history }
      ∧ Transfers ev bs := by
  induction bs generalizing s with
  | nil => exact ⟨[], s.draws, rfl, .nil⟩
  | cons b bs ih =>
    have hp : perform (.send b) s = .go { s with
        draws := s.draws + 1, history := .x b (Config.freeByte s.draws) :: s.history } := by
      have htake : s.chip.take s.cfg b = .ok (.any, s.chip) := by unfold Chip.take; rw [hk]
      simp only [perform, busXfer, busyAtOpcode_self (s := s) (.inl hk), transfer, hcs, htake, onBus, answerByte, drawByte, not_true_eq_false, if_false,
        Bool.false_eq_true]
    obtain ⟨ev, d, hd, hev⟩ := ih (s := { s with
      draws := s.draws + 1, history := .x b (Config.freeByte s.draws) :: s.history }) q hcs hk
    refine ⟨ev ++ [.x b (Config.freeByte s.draws)], d, ?_, hev.cons b _⟩
    rw [List.map_cons, List.cons_append, drive_go q hp, hd, List.append_assoc]
    rfl

theorem drive_recvs_absent (n : Nat) {s : State} (q : quiet s = true) (hcs : s.cs = true)
    (hk : s.chip.kind = .absent) (rest : List Micro) :
    ∃ ev got ch asked, drive (List.replicate n Micro.recv ++ rest) s
        = drive rest { s with rx := s.rx ++ got, choices := ch, asked := asked, history := ev ++ s.history }
      ∧ Transfers ev (List.replicate n s.cfg.dummyOut) ∧ got.length = n
      ∧ (n ≤ s.choices.length → got = s.choices.take n ∧ ch = s.choices.drop n ∧ asked = s.asked) := by
  induction n generalizing s with
  | zero => exact ⟨[], [], s.choices, s.asked, by simp, .nil, rfl, by simp⟩
  | succ n ih =>
    have hp : perform .recv s = .go { answered s with
        rx := s.rx ++ [nextAnswer s], history := .x s.cfg.dummyOut (nextAnswer s) :: s.history } := by
      have htake : s.chip.take s.cfg s.cfg.dummyOut = .ok (.any, s.chip) := by unfold Chip.take; rw [hk]
      show onBus (busXfer true s.cfg.dummyOut s) = _
      unfold busXfer
      rw [if_neg (by simp [hcs]), busyAtOpcode_self (s := s) (.inl hk)]
      unfold transfer
      rw [htake]
      rfl
    obtain ⟨ev, got, ch, ak, hd, hev, hl, hc⟩ := ih (s := { answered s with
      rx := s.rx ++ [nextAnswer s], history := .x s.cfg.dummyOut (nextAnswer s) :: s.history }) q hcs hk
    refine ⟨ev ++ [.x s.cfg.dummyOut (nextAnswer s)], nextAnswer s :: got, ch, ak, ?_, hev.cons _ _, by simp [hl], ?_⟩
    · rw [List.replicate_succ, List.cons_append, drive_go q hp, hd]
      simp [answered]
    · intro hn
      rcases hs : s.choices with _ | ⟨v, vs⟩
      · simp [hs] at hn
      · obtain ⟨h1, h2, h3⟩ := hc (by simp only [answered, hs, List.tail_cons]; simpa [hs] using hn)
        simp only [answered, hs, List.tail_cons] at h1 h2 h3
        simp [nextAnswer, hs, h1, h2, h3]

/-- A whole transaction without a chip: it completes, and the kept answers are the environment's (R80). -/
theorem ran_absent (f : Free s) (hk : s.chip.kind = .absent) (sent : List Byte) (n : Nat) :
    ∃ s', Ran (Driver.transaction sent n) s s' [sent ++ dummies s.cfg n] ∧ s'.rx.length = n ∧
      s'.chip = { s.chip with txn := none } ∧
      (n ≤ s.choices.length → s'.rx = s.choices.take n ∧ s'.choices = s.choices.drop n ∧ s'.asked = s.asked) := by
  obtain ⟨ev1, d1, h1, e1⟩ := drive_sends_absent (bs := sent) (s := { s with
    cs := true, rx := [], chip := { s.chip with txn := none }, history := .sel :: s.history }) f.quiet rfl hk
    (List.replicate n Micro.recv ++ [.des])
  obtain ⟨ev2, got, ch, ak, h2, e2, hl, hc⟩ := drive_recvs_absent n (s := { s with
    cs := true, rx := [], chip := { s.chip with txn := none }, draws := d1, history := ev1 ++ .sel :: s.history })
    f.quiet rfl hk [.des]
  refine ⟨{ s with
    cs := false, rx := got, chip := { s.chip with txn := none }, choices := ch, asked := ak
    draws := d1 + s.cfg.pageSize, history := .des :: (ev2 ++ (ev1 ++ .sel :: s.history)) }, ⟨?_, ⟨⟨rfl, ⟨rfl, rfl,
    rfl, rfl, rfl⟩, ⟨rfl, rfl, rfl, rfl⟩, rfl, f.cs.symm⟩, ⟨rfl, rfl⟩, rfl, ?_⟩⟩, hl, rfl, hc⟩
  · unfold Driver.transaction
    rw [drive_go f.quiet (perform_sel f.cs), h1, h2]
    have hp : perform .des { s with
        cs := true, rx := got, chip := { s.chip with txn := none }, choices := ch, asked := ak
        draws := d1, history := ev2 ++ (ev1 ++ .sel :: s.history) } = .go { s with
        cs := false, rx := got, chip := { s.chip with txn := none }, choices := ch, asked := ak
        draws := d1 + s.cfg.pageSize, history := .des :: (ev2 ++ (ev1 ++ .sel :: s.history)) } := by
      have hr : Chip.release s.cfg { s.chip with txn := none } d1 = .ok { s.chip with txn := none } := by
        unfold Chip.release; simp only [hk]
      simp only [perform, busDeselect, onBus, not_true_eq_false, if_false, hr]
    exact (drive_go (s := { s with
        cs := true, rx := got, chip := { s.chip with txn := none }, choices := ch, asked := ak
        draws := d1, history := ev2 ++ (ev1 ++ .sel :: s.history) }) f.quiet hp).trans rfl
  · simp only [framesFrom]
    rw [e2, e1]
    simp [framesFrom, dummies]

/-- Without a chip too, a poll that does not read busy ends the busy-wait (R80, R140). -/
theorem ran_waitReady_absent (f : Free s) (hk : s.chip.kind = .absent) {v : Byte} {more : List Byte}
    (hch : s.choices = v :: more) (hv : statusBusy v = false) :
    ∃ s', Ran (Driver.waitReady s.cfg) s s' [s.cfg.opRdsr1 :: dummies s.cfg 1] ∧ s'.choices = more ∧
      s'.chip = { s.chip with txn := none } := by
  obtain ⟨s', h, _, hc, hx⟩ := ran_absent f hk [s.cfg.opRdsr1] 1
  obtain ⟨h1, h2, -⟩ := hx (by simp [hch])
  refine ⟨s', ⟨?_, h.did⟩, by rw [h2, hch]; rfl, hc⟩
  unfold Driver.waitReady Driver.poll Driver.rdsr1
  rw [h.then, drive_go (h.did.quiet f.quiet) (s' := s')]
  · rfl
  · simp [perform, waitTest, polledStatus, h1, hch, hv]

end Absent

end Sys2Proof.Machine
end

