-- ==== Sys2Proof/Laws/Driver.lean ====
section
/-! SUPPORT. One lemma per driver primitive, with a ready chip and an environment that has settled on ready answers. -/

namespace Sys2Proof.Machine

section

variable {s : State}

/-! ### Ready answers -/

theorem ReadyFor.next {n : Nat} (h : ReadyFor (n + 1) s) : statusBusy (nextAnswer s) = false := by
  obtain ⟨hl, hr⟩ := h
  unfold nextAnswer
  rcases hs : s.choices with _ | ⟨v, vs⟩
  · simp [hs] at hl
  · exact hr v (by simp [hs])

theorem ReadyFor.tail {n : Nat} {s' : State} (h : ReadyFor (n + 1) s) (hc : s'.choices = s.choices.tail) :
    ReadyFor n s' := by
  obtain ⟨hl, hr⟩ := h
  rcases hs : s.choices with _ | ⟨v, vs⟩
  · simp [hs] at hl
  · rw [hs] at hc hl hr
    exact ⟨by rw [hc]; simpa using hl, fun w hw => hr w (by rw [hc] at hw; simp at hw ⊢; exact .inr hw)⟩

theorem ReadyFor.asked {n : Nat} (h : ReadyFor (n + 1) s) : (answered s).asked = s.asked := by
  have : s.choices ≠ [] := by intro h0; simp [ReadyFor, h0] at h
  simp [answered, this]

theorem ReadyFor.mono {n m : Nat} (h : ReadyFor n s) (hm : m ≤ n) : ReadyFor m s :=
  ⟨le_trans hm h.1, fun v hv => h.2 v ((List.take_prefix_take_left hm).subset hv)⟩

theorem ReadyFor.congr {n : Nat} {s' : State} (h : ReadyFor n s) (hc : s'.choices = s.choices) : ReadyFor n s' := by
  unfold ReadyFor; rw [hc]; exact h

/-! ### The primitives -/

/-- `programPage` (R145): write-enable, program, one poll; the page is in the flash as R75 says. -/
theorem ran_programPage (f : Free s) (h : ChipReady s) (hv : ReadyFor 1 s) {a : Addr} {d : List Byte}
    (hl : d.length = s.cfg.pageSize) (hr : a.toNat + d.length ≤ flashSize s) :
    ∃ s' n, Ran (Driver.programPage s.cfg a d) s s' ((programCommands a d).map (wireBytes s.cfg)) ∧
      s'.choices = s.choices.tail ∧ s'.asked = s.asked ∧ s'.chip = { s.chip with
        mem := Memory.program s.cfg.erasedByte s.chip.mem a.toNat d n, busy := .ready, wel := false, txn := none } := by
  obtain ⟨s1, r1, c1, k1, e1⟩ := ran_wren f h
  have f1 := r1.did.free f
  have g1 := r1.did.block.cfg
  obtain ⟨s2, n, r2, c2, k2, e2⟩ := ran_pp f1 (by rw [ChipReady, e1]; exact h) (a := a) (d := d) (by rw [e1])
    (by rw [g1]; exact hl) (by unfold flashSize; rw [e1]; exact hr)
  have f2 := r2.did.free f1
  have g2 := r2.did.block.cfg.trans g1
  have v2 : ReadyFor 1 s2 := hv.congr (c2.trans c1)
  obtain ⟨s3, r3, c3, k3, e3⟩ := ran_waitReady f2 (by rw [e2, e1]; exact h.1) v2.next
  refine ⟨s3, n, ?_, by rw [c3, c2, c1], by rw [k3, v2.asked, k2, k1], by rw [e3, e2, e1, g1]⟩
  rw [g1] at r2
  rw [g2] at r3
  simpa [Driver.programPage, programCommands, wireBytes, encode] using (r1.append r2).append r3

/-- `eraseSector` (R146): write-enable, the erase of the granularity, one poll; the region is erased (R74). -/
theorem ran_eraseSector (f : Free s) (h : ChipReady s) (hv : ReadyFor 1 s) {a : Addr} {g : Nat}
    (hg : g ∈ Config.eraseSizes) (hr : a.toNat < flashSize s) :
    ∃ s', Ran (Driver.eraseSector s.cfg a g) s s' ([.wren, eraseInstr a g, .rdsr1].map (wireBytes s.cfg)) ∧
      s'.choices = s.choices.tail ∧ s'.asked = s.asked ∧ s'.chip = { s.chip with
        mem := Memory.erase s.chip.mem (a.toNat / g * g) g, busy := .ready, wel := false, txn := none } := by
  obtain ⟨s1, r1, c1, k1, e1⟩ := ran_wren f h
  have f1 := r1.did.free f
  have g1 := r1.did.block.cfg
  obtain ⟨s2, r2, c2, k2, e2⟩ := ran_erase f1 (by rw [ChipReady, e1]; exact h) (a := a) hg (by rw [e1])
    (by unfold flashSize; rw [e1]; exact hr)
  have f2 := r2.did.free f1
  have g2 := r2.did.block.cfg.trans g1
  have v2 : ReadyFor 1 s2 := hv.congr (c2.trans c1)
  obtain ⟨s3, r3, c3, k3, e3⟩ := ran_waitReady f2 (by rw [e2, e1]; exact h.1) v2.next
  refine ⟨s3, ?_, by rw [c3, c2, c1], by rw [k3, v2.asked, k2, k1], by rw [e3, e2, e1]⟩
  rw [g1] at r2
  rw [g2] at r3
  have := (r1.append r2).append r3
  simpa [Driver.eraseSector, wireBytes, encode] using this

/-- `eraseChip` (R147): write-enable, chip erase, one poll; every byte is erased (R74). -/
theorem ran_eraseChip (f : Free s) (h : ChipReady s) (hv : ReadyFor 1 s) :
    ∃ s', Ran (Driver.eraseChip s.cfg) s s' ([.wren, .ce, .rdsr1].map (wireBytes s.cfg)) ∧
      s'.choices = s.choices.tail ∧ s'.asked = s.asked ∧
      s'.chip = { s.chip with mem := [], busy := .ready, wel := false, txn := none } := by
  obtain ⟨s1, r1, c1, k1, e1⟩ := ran_wren f h
  have f1 := r1.did.free f
  have g1 := r1.did.block.cfg
  obtain ⟨s2, r2, c2, k2, e2⟩ := ran_ce f1 (by rw [ChipReady, e1]; exact h) (by rw [e1])
  have f2 := r2.did.free f1
  have g2 := r2.did.block.cfg.trans g1
  have v2 : ReadyFor 1 s2 := hv.congr (c2.trans c1)
  obtain ⟨s3, r3, c3, k3, e3⟩ := ran_waitReady f2 (by rw [e2, e1]; exact h.1) v2.next
  refine ⟨s3, ?_, by rw [c3, c2, c1], by rw [k3, v2.asked, k2, k1], by rw [e3, e2, e1]⟩
  rw [g1] at r2
  rw [g2] at r3
  simpa [Driver.eraseChip, wireBytes, encode] using (r1.append r2).append r3

end

end Sys2Proof.Machine
end

