-- ==== Sys2Proof/Laws/Cache.lean ====
section
/-! SUPPORT. Geometry of the parameters, and one lemma for a sector load and one for a flush. -/

namespace Sys2Proof.Machine

/-! ### Geometry (R5, R6) -/

section Geometry

variable {c : Config} (h : c.Valid)
include h

theorem pageSize_pos : 0 < c.pageSize := h.1

theorem blockSize_pos : 0 < c.blockSize := by have := h.1; unfold Config.blockSize Config.pagesPerBlock; omega

theorem sectorSize_pos : 0 < c.sectorSize := by
  have := h.2.1
  simp [Config.eraseSizes] at this; omega

/-- The pages of a sector fill it. -/
theorem pagesPerSector_mul : c.pagesPerSector * c.pageSize = c.sectorSize :=
  Nat.div_mul_cancel (Nat.dvd_trans (Dvd.intro_left 2 rfl) h.2.2.1)

/-- The blocks of a sector fill it. -/
theorem blocksPerSector_mul : c.blocksPerSector * c.blockSize = c.sectorSize := Nat.div_mul_cancel h.2.2.1

theorem pagesPerSector_pos : 0 < c.pagesPerSector := by
  have h1 := pagesPerSector_mul h
  have h2 := sectorSize_pos h
  rcases Nat.eq_zero_or_pos c.pagesPerSector with h0 | h0
  · rw [h0] at h1; omega
  · exact h0

theorem blocksPerSector_pos : 0 < c.blocksPerSector := by
  have h1 := blocksPerSector_mul h
  have h2 := sectorSize_pos h
  rcases Nat.eq_zero_or_pos c.blocksPerSector with h0 | h0
  · rw [h0] at h1; omega
  · exact h0

/-- A block never straddles two sectors (R54, R160). -/
theorem resolve_fits (b : Nat) : (resolve c b).2 + c.blockSize ≤ c.sectorSize := by
  have h1 : b % c.blocksPerSector + 1 ≤ c.blocksPerSector := Nat.mod_lt _ (blocksPerSector_pos h)
  calc (resolve c b).2 + c.blockSize = (b % c.blocksPerSector + 1) * c.blockSize := by
        unfold resolve; rw [Nat.add_mul, Nat.one_mul]
    _ ≤ c.blocksPerSector * c.blockSize := Nat.mul_le_mul_right _ h1
    _ = c.sectorSize := blocksPerSector_mul h

/-- The byte-address form of `resolve` (R53, R54). -/
theorem resolve_address (b : Nat) : (resolve c b).1 * c.sectorSize + (resolve c b).2 = b * c.blockSize := by
  unfold resolve
  simp only
  conv_lhs => rw [← blocksPerSector_mul h]
  rw [← Nat.mul_assoc, ← Nat.add_mul, Nat.div_add_mod' b c.blocksPerSector]

/-- No known capacity is the sentinel (R29). -/
theorem cap_ne_unknown : BitVec.ofNat 32 Config.capA ≠ c.capUnknown ∧ BitVec.ofNat 32 Config.capB ≠ c.capUnknown := by
  have hb := h.2.2.2.2.2.1
  unfold Config.capUnknown
  generalize c.capacityBits = n at *
  obtain rfl | rfl | rfl | rfl | rfl | rfl | rfl | rfl | rfl :
    n = 24 ∨ n = 25 ∨ n = 26 ∨ n = 27 ∨ n = 28 ∨ n = 29 ∨ n = 30 ∨ n = 31 ∨ n = 32 := by omega
  all_goals decide

/-- A known identifier has a known capacity (R29). -/
theorem lookup_ne_unknown {id : Word16} (hid : id = c.idA ∨ id = c.idB) : lookup c id ≠ c.capUnknown := by
  unfold lookup
  split_ifs with h1 h2
  · exact (cap_ne_unknown h).1
  · exact (cap_ne_unknown h).2
  · exact absurd hid (by simp [h1, h2])

end Geometry

theorem flashSize_le (s : State) : flashSize s ≤ 2 ^ 24 := by
  unfold flashSize Chip.size; split <;> simp [Config.capA, Config.capB]

theorem toNat_addrOf {n : Nat} (h : n < 2 ^ 24) : (addrOf n).toNat = n := by
  simp only [addrOf, BitVec.toNat_ofNat]; exact Nat.mod_eq_of_lt h

/-! ### Slices -/

theorem length_splice {buf data : List Byte} {off : Nat} : (splice buf off data).length = buf.length := by
  unfold splice; simp; omega

theorem getElem?_splice {buf data : List Byte} {off i : Nat} (hf : off + data.length ≤ buf.length) :
    (splice buf off data)[i]? = if off ≤ i ∧ i < off + data.length then data[i - off]? else buf[i]? := by
  unfold splice
  rw [List.take_of_length_le (by omega : data.length ≤ buf.length - off)]
  by_cases h1 : i < off
  · rw [List.append_assoc, List.getElem?_append_left (by simp; omega), List.getElem?_take_of_lt h1, if_neg (by omega)]
  · by_cases h2 : i < off + data.length
    · rw [List.append_assoc, List.getElem?_append_right (by simp; omega), List.getElem?_append_left (by simp; omega),
        if_pos (by omega)]
      congr 1; simp; omega
    · rw [List.getElem?_append_right (by simp; omega), if_neg (by omega), List.getElem?_drop]
      congr 1; simp; omega

theorem length_slice {buf : List Byte} {off n : Nat} (h : off + n ≤ buf.length) : (slice buf off n).length = n := by
  unfold slice; simp; omega

theorem getElem?_slice {buf : List Byte} {off n i : Nat} (h : i < n) : (slice buf off n)[i]? = buf[off + i]? := by
  unfold slice; rw [List.getElem?_take_of_lt h, List.getElem?_drop]

/-- Reading back a slice just written. -/
theorem slice_splice {buf data : List Byte} {off : Nat} (hf : off + data.length ≤ buf.length) :
    slice (splice buf off data) off data.length = data := by
  apply List.ext_getElem?
  intro i
  by_cases hi : i < data.length
  · rw [getElem?_slice hi, getElem?_splice hf, if_pos (by omega)]; congr 1; omega
  · rw [List.getElem?_eq_none (by rw [length_slice (by rw [length_splice]; omega)]; omega),
      List.getElem?_eq_none (by omega)]

/-! ### Runs that also write the cache -/

/-- A run that sent these transactions and left alone everything but the cache, the driver's values and the chip. -/
structure Moved (s s' : State) (sent : List (List Byte)) : Prop where
  cfg : s'.cfg = s.cfg
  busy : s'.busy = s.busy
  identity : SameIdentity s s'
  seq : s'.seq = s.seq
  cs : s'.cs = s.cs
  host : SameHostSide s s'
  result : s'.result = s.result
  frames : framesFrom s'.history [] = sent.reverse ++ framesFrom s.history []

theorem Did.moved {s s' : State} {x : List (List Byte)} (h : Did s s' x) : Moved s s' x :=
  ⟨h.block.cfg, h.block.cache.busy, h.block.identity, h.block.seq, h.block.cs, h.host, h.result, h.frames⟩

theorem Moved.refl (s : State) : Moved s s [] := (Did.refl s).moved

theorem Moved.trans {a b c : State} {x y : List (List Byte)} (h : Moved a b x) (k : Moved b c y) :
    Moved a c (x ++ y) :=
  ⟨k.cfg.trans h.cfg, k.busy.trans h.busy, h.identity.trans k.identity, k.seq.trans h.seq, k.cs.trans h.cs,
    h.host.trans k.host, k.result.trans h.result, by
      rw [k.frames, h.frames, List.reverse_append, List.append_assoc]⟩

theorem Moved.free {s s' : State} {x : List (List Byte)} (h : Moved s s' x) (f : Free s) : Free s' :=
  ⟨(quiet_congr h.host.inbox).trans f.quiet, h.cs.trans f.cs, h.cfg ▸ f.valid⟩

theorem Moved.sentAfter {s s' : State} {x : List (List Byte)} (h : Moved s s' x) : SentAfter s s' x := by
  unfold SentAfter Machine.frames
  rw [h.frames, List.reverse_append, List.reverse_reverse]

/-- A state write is done at once. -/
theorem drive_write {s s' : State} {m : Micro} (q : quiet s = true) (hp : perform m s = .go s') :
    drive [m] s = .done s' := by rw [drive_go q hp]; rfl

theorem drive_trans {p p' : List Micro} {a b : State} (h : drive p a = .done b) :
    drive (p ++ p') a = drive p' b := by rw [drive_append, h]; rfl

theorem SameChip.refl (s : State) : SameChip s s := ⟨rfl, rfl, rfl, rfl⟩
theorem SameChip.trans {a b c : State} (h : SameChip a b) (k : SameChip b c) : SameChip a c :=
  ⟨k.1.trans h.1, k.2.trans h.2, k.3.trans h.3, k.4.trans h.4⟩
theorem SameChip.of_txn {s s' : State} {x : Option Txn} (h : s'.chip = { s.chip with txn := x }) : SameChip s s' := by
  constructor <;> rw [h]
theorem SameChip.ready {s s' : State} (h : SameChip s s') (k : ChipReady s) : ChipReady s' :=
  ⟨by rw [h.kind]; exact k.1, by rw [h.busy]; exact k.2⟩
theorem SameChip.size {s s' : State} (h : SameChip s s') : flashSize s' = flashSize s := by
  unfold flashSize; rw [h.kind]

/-! ### The load (R162) -/

/-- The pages `k` to `k + n - 1` of a load. -/
theorem drive_loadPages {sector : Nat} (n : Nat) {k : Nat} {s : State} (f : Free s) (h : ChipReady s)
    (hb : (k + n) * s.cfg.pageSize ≤ s.buffer.length)
    (hr : sectorBase s.cfg sector + (k + n) * s.cfg.pageSize ≤ flashSize s) :
    ∃ s', drive ((List.range' k n).flatMap (fun p =>
        Driver.readBytes s.cfg (addrOf (pageAddr s.cfg sector p)) s.cfg.pageSize ++ [.storePage p])) s = .done s' ∧
      Moved s s' ((List.range' k n).map fun p =>
        wireBytes s.cfg (.read (addrOf (pageAddr s.cfg sector p)) s.cfg.pageSize)) ∧
      s'.loaded = s.loaded ∧ s'.dirty = s.dirty ∧ s'.sectorNumber = s.sectorNumber ∧ SameChip s s' ∧
      s'.choices = s.choices ∧ s'.asked = s.asked ∧ s'.buffer.length = s.buffer.length ∧
      ∀ i, s'.buffer[i]? = if k * s.cfg.pageSize ≤ i ∧ i < (k + n) * s.cfg.pageSize
        then some (flash s (sectorBase s.cfg sector + i)) else s.buffer[i]? := by
  induction n generalizing k s with
  | zero =>
    refine ⟨s, rfl, .refl s, rfl, rfl, rfl, .refl s, rfl, rfl, rfl, fun i => ?_⟩
    rw [if_neg (by simp only [Nat.add_zero]; omega)]
  | succ n ih =>
    have hk : (k + 1) * s.cfg.pageSize ≤ (k + (n + 1)) * s.cfg.pageSize := Nat.mul_le_mul_right _ (by omega)
    have hk1 : (k + 1) * s.cfg.pageSize = k * s.cfg.pageSize + s.cfg.pageSize := by rw [Nat.add_mul, Nat.one_mul]
    have hps := pageSize_pos f.valid
    have hsz := flashSize_le s
    have hadr : (addrOf (pageAddr s.cfg sector k)).toNat = pageAddr s.cfg sector k := by
      apply toNat_addrOf; unfold pageAddr; omega
    obtain ⟨s1, r1, x1, c1, k1, e1⟩ := ran_read f h (a := addrOf (pageAddr s.cfg sector k)) (n := s.cfg.pageSize)
      (by rw [hadr]; unfold pageAddr; omega)
    have f1 := r1.did.free f
    let s2 : State := { s1 with buffer := splice s1.buffer (k * s1.cfg.pageSize) s1.rx }
    have d2 : drive [.storePage k] s1 = .done s2 := drive_write f1.quiet rfl
    have m1 : Moved s1 s2 [] := ⟨rfl, rfl, ⟨rfl, rfl, rfl, rfl⟩, rfl, rfl, ⟨rfl, rfl⟩, rfl, rfl⟩
    have m2 := r1.did.moved.trans m1
    have t2 : SameChip s s2 := .of_txn e1
    have b1 : s1.buffer = s.buffer := r1.did.block.cache.buffer
    have g2 : s2.cfg = s.cfg := m2.cfg
    have f2 := m2.free f
    have hb2 : s2.buffer.length = s.buffer.length := by simp only [s2, length_splice, b1]
    obtain ⟨s3, d3, m3, l3, di3, se3, ch3, co3, as3, bl3, bu3⟩ := ih (k := k + 1) (s := s2) f2 (t2.ready h)
      (by rw [g2, hb2]; convert hb using 2; omega) (by rw [g2, t2.size]; convert hr using 3; omega)
    rw [g2] at d3 m3 bu3
    refine ⟨s3, ?_, ?_, l3.trans r1.did.block.cache.loaded, di3.trans r1.did.block.cache.dirty,
      se3.trans r1.did.block.cache.sectorNumber, t2.trans ch3, co3.trans c1, as3.trans k1, bl3.trans hb2, fun i => ?_⟩
    · rw [List.range'_succ, List.flatMap_cons]
      rw [drive_trans (b := s2)]
      · exact d3
      · unfold Driver.readBytes; rw [r1.then]; exact d2
    · rw [List.range'_succ, List.map_cons]
      have := m2.trans m3
      simpa [wireBytes, encode] using this
    · rw [bu3 i]
      have hfl : flash s2 (sectorBase s.cfg sector + i) = flash s (sectorBase s.cfg sector + i) := by
        unfold flash; rw [t2.mem, g2]
      have hrx : s1.rx.length = s.cfg.pageSize := by rw [x1]; simp
      have hcfg1 : s1.cfg = s.cfg := r1.did.block.cfg
      have e : k + 1 + n = k + (n + 1) := by omega
      rw [hfl, e]
      by_cases hi : (k + 1) * s.cfg.pageSize ≤ i ∧ i < (k + (n + 1)) * s.cfg.pageSize
      · rw [if_pos hi, if_pos ⟨by omega, hi.2⟩]
      · rw [if_neg hi]
        simp only [s2]
        rw [getElem?_splice (by rw [hrx, hcfg1, b1]; omega), hrx, hcfg1, b1]
        by_cases hi2 : k * s.cfg.pageSize ≤ i ∧ i < k * s.cfg.pageSize + s.cfg.pageSize
        · rw [if_pos hi2, if_pos ⟨hi2.1, by omega⟩, x1, Memory.readRange, List.getElem?_map,
            List.getElem?_range (by omega), hadr]
          simp only [Option.map_some, flash, pageAddr]
          congr 2; omega
        · rw [if_neg hi2, if_neg (by omega)]

/-- A sector load (R162): the buffer holds the sector's flash bytes, and the cache is Clean unless it was dirty. -/
theorem drive_loadSector {sector : Nat} {s : State} (f : Free s) (h : ChipReady s) (hb : BufferFull s)
    (hr : sectorBase s.cfg sector + s.cfg.sectorSize ≤ flashSize s) :
    ∃ s', drive (Cache.loadSector s.cfg sector) s = .done s' ∧
      Moved s s' ((loadCommands s.cfg sector).map (wireBytes s.cfg)) ∧
      s'.loaded = true ∧ s'.dirty = s.dirty ∧ s'.sectorNumber = BitVec.ofNat 32 sector ∧ SameChip s s' ∧
      s'.choices = s.choices ∧ s'.asked = s.asked ∧ BufferFull s' ∧
      ∀ i, i < s.cfg.sectorSize → s'.buffer[i]? = some (flash s (sectorBase s.cfg sector + i)) := by
  let s0 : State := { s with loaded := false }
  have hp := pagesPerSector_mul f.valid
  obtain ⟨s1, d1, m1, l1, di1, se1, ch1, co1, as1, bl1, bu1⟩ := drive_loadPages (sector := sector)
    s.cfg.pagesPerSector (k := 0) (s := s0) ⟨f.quiet, f.cs, f.valid⟩ h (by simp [s0, hp]; omega) (by simpa [s0, hp, flashSize] using hr)
  have f1 := m1.free (s := s0) ⟨f.quiet, f.cs, f.valid⟩
  let s2 : State := { s1 with sectorNumber := BitVec.ofNat 32 sector }
  let s3 : State := { s2 with loaded := true }
  refine ⟨s3, ?_, ?_, rfl, di1, rfl, ⟨ch1.1, ch1.2, ch1.3, ch1.4⟩, co1, as1, ?_, fun i hi => ?_⟩
  · unfold Cache.loadSector
    rw [drive_go f.quiet (s' := s0) rfl, List.range_eq_range', drive_trans d1, drive_go f1.quiet (s' := s2) rfl,
      drive_go (s := s2) f1.quiet (s' := s3) rfl]
    rfl
  · have h0 : Moved s s0 [] := ⟨rfl, rfl, ⟨rfl, rfl, rfl, rfl⟩, rfl, rfl, ⟨rfl, rfl⟩, rfl, rfl⟩
    have h3 : Moved s1 s3 [] := ⟨rfl, rfl, ⟨rfl, rfl, rfl, rfl⟩, rfl, rfl, ⟨rfl, rfl⟩, rfl, rfl⟩
    have := (h0.trans m1).trans h3
    simpa [loadCommands, List.range_eq_range', s0, Function.comp_def] using this
  · show s1.buffer.length = s1.cfg.sectorSize
    rw [bl1, m1.cfg]; exact hb
  · have := bu1 i
    simp only [Nat.zero_mul, Nat.zero_add] at this
    rw [show s3.buffer = s1.buffer from rfl, this, if_pos ⟨Nat.zero_le _, by rw [show s0.cfg = s.cfg from rfl, hp]; exact hi⟩]
    rfl

/-! ### The flush (R163) -/

/-- Programming the pages `k` to `k + n - 1` of an erased sector. -/
theorem ran_programPages {sector : Nat} {buf : List Byte} (n : Nat) {k : Nat} {s : State} (f : Free s)
    (h : ChipReady s) (hw : FlashWf s) (hv : ReadyFor n s)
    (hb : (k + n) * s.cfg.pageSize ≤ buf.length)
    (hr : sectorBase s.cfg sector + (k + n) * s.cfg.pageSize ≤ flashSize s)
    (he : ∀ x, sectorBase s.cfg sector + k * s.cfg.pageSize ≤ x → x < sectorBase s.cfg sector + (k + n) * s.cfg.pageSize →
      flash s x = s.cfg.erasedByte)
    (hc : s.chip.wel = false) :
    ∃ s', Ran ((List.range' k n).flatMap (fun p =>
        Driver.programPage s.cfg (addrOf (pageAddr s.cfg sector p)) (slice buf (p * s.cfg.pageSize) s.cfg.pageSize)))
        s s' (((List.range' k n).flatMap fun p => programCommands (addrOf (pageAddr s.cfg sector p))
          (slice buf (p * s.cfg.pageSize) s.cfg.pageSize)).map (wireBytes s.cfg)) ∧
      s'.choices = s.choices.drop n ∧ s'.asked = s.asked ∧ ChipReady s' ∧ s'.chip.kind = s.chip.kind ∧
      s'.chip.wel = false ∧ FlashWf s' ∧
      ∀ x, flash s' x = if sectorBase s.cfg sector + k * s.cfg.pageSize ≤ x ∧
          x < sectorBase s.cfg sector + (k + n) * s.cfg.pageSize
        then buf.getD (x - sectorBase s.cfg sector) 0 else flash s x := by
  induction n generalizing k s with
  | zero =>
    refine ⟨s, .nil s, rfl, rfl, h, rfl, hc, hw, fun x => ?_⟩
    rw [if_neg (by simp only [Nat.add_zero]; omega)]
  | succ n ih =>
    have hk : (k + 1) * s.cfg.pageSize ≤ (k + (n + 1)) * s.cfg.pageSize := Nat.mul_le_mul_right _ (by omega)
    have hk1 : (k + 1) * s.cfg.pageSize = k * s.cfg.pageSize + s.cfg.pageSize := by rw [Nat.add_mul, Nat.one_mul]
    have hps := pageSize_pos f.valid
    have hsz := flashSize_le s
    have hadr : (addrOf (pageAddr s.cfg sector k)).toNat = pageAddr s.cfg sector k := by
      apply toNat_addrOf; unfold pageAddr; omega
    have hlen : (slice buf (k * s.cfg.pageSize) s.cfg.pageSize).length = s.cfg.pageSize := length_slice (by omega)
    obtain ⟨s1, m, r1, c1, k1, e1⟩ := ran_programPage f h (hv.mono (by omega))
      (a := addrOf (pageAddr s.cfg sector k)) hlen (by rw [hadr, hlen]; unfold pageAddr; omega)
    rw [hadr] at e1
    have f1 := r1.did.free f
    have g1 := r1.did.block.cfg
    have w1 : FlashWf s1 := by unfold FlashWf; rw [e1, g1]; exact Memory.wf_program hw
    have fl1 : ∀ x, flash s1 x = if pageAddr s.cfg sector k ≤ x ∧ x < pageAddr s.cfg sector k + s.cfg.pageSize
        then buf.getD (x - sectorBase s.cfg sector) 0 else flash s x := by
      intro x
      unfold flash
      rw [e1, g1]
      by_cases hx : pageAddr s.cfg sector k ≤ x ∧ x < pageAddr s.cfg sector k + s.cfg.pageSize
      · rw [if_pos hx]
        obtain ⟨i, rfl⟩ := Nat.exists_eq_add_of_le hx.1
        have hi : i < (slice buf (k * s.cfg.pageSize) s.cfg.pageSize).length := by rw [hlen]; omega
        have her := he (pageAddr s.cfg sector k + i) (by unfold pageAddr; omega) (by unfold pageAddr at hx ⊢; omega)
        unfold flash at her
        simp only
        rw [Memory.read_program hw hi, if_pos her]
        have := getElem?_slice (buf := buf) (off := k * s.cfg.pageSize) (n := s.cfg.pageSize) (i := i) (by omega)
        rw [List.getElem?_eq_getElem hi] at this
        rw [List.getD_eq_getElem?_getD, show pageAddr s.cfg sector k + i - sectorBase s.cfg sector
          = k * s.cfg.pageSize + i by unfold pageAddr; omega, ← this]
        rfl
      · rw [if_neg hx]
        simp only
        rw [Memory.read_program_other hw (by rw [hlen]; omega)]
    obtain ⟨s2, r2, c2, a2, h2, k2, wl2, w2, fl2⟩ := ih (k := k + 1) (s := s1) f1
      ⟨by rw [e1]; exact h.1, by rw [e1]⟩ w1 (hv.tail c1) (by rw [g1]; convert hb using 2; omega)
      (by rw [g1, show flashSize s1 = flashSize s by unfold flashSize; rw [e1]]; convert hr using 3; omega)
      (fun x hx1 hx2 => by
        rw [g1] at hx1 hx2 ⊢
        rw [fl1, if_neg (by unfold pageAddr; omega)]
        exact he x (by omega) (by rw [show k + 1 + n = k + (n + 1) by omega] at hx2; exact hx2))
      (by rw [e1])
    rw [g1] at r2 fl2
    refine ⟨s2, ?_, by rw [c2, c1]; simp, a2.trans k1, h2, k2.trans (by rw [e1]), wl2, w2, fun x => ?_⟩
    · rw [List.range'_succ, List.flatMap_cons, List.flatMap_cons, List.map_append]
      exact r1.append r2
    · rw [fl2, fl1, show k + 1 + n = k + (n + 1) by omega]
      unfold pageAddr
      by_cases hx : sectorBase s.cfg sector + k * s.cfg.pageSize ≤ x ∧
          x < sectorBase s.cfg sector + (k + (n + 1)) * s.cfg.pageSize
      · rw [if_pos hx]
        split
        · rfl
        · rw [if_pos (by omega)]
      · rw [if_neg hx, if_neg (by omega), if_neg (by omega)]

/-- A flush of a dirty sector (R163): the sector's flash bytes become the buffer's, nothing else of the flash changes,
and `dirty` is cleared. -/
theorem drive_flushSector {sector : Nat} {s : State} (f : Free s) (h : ChipReady s) (hw : FlashWf s)
    (hv : ReadyFor (s.cfg.pagesPerSector + 1) s) (hb : BufferFull s)
    (hr : sectorBase s.cfg sector + s.cfg.sectorSize ≤ flashSize s) :
    ∃ s', drive (Cache.flushSector s.cfg sector s.buffer) s = .done s' ∧
      Moved s s' ((flushCommands s.cfg sector s.buffer).map (wireBytes s.cfg)) ∧
      s'.loaded = s.loaded ∧ s'.dirty = false ∧ s'.sectorNumber = s.sectorNumber ∧ s'.buffer = s.buffer ∧
      s'.choices = s.choices.drop (s.cfg.pagesPerSector + 1) ∧ s'.asked = s.asked ∧ ChipReady s' ∧
      s'.chip.kind = s.chip.kind ∧ s'.chip.wel = false ∧ FlashWf s' ∧
      ∀ x, flash s' x = if sectorBase s.cfg sector ≤ x ∧ x < sectorBase s.cfg sector + s.cfg.sectorSize
        then s.buffer.getD (x - sectorBase s.cfg sector) 0 else flash s x := by
  have hp := pagesPerSector_mul f.valid
  have hss := sectorSize_pos f.valid
  have hsz := flashSize_le s
  have hadr : (addrOf (sectorBase s.cfg sector)).toNat = sectorBase s.cfg sector := toNat_addrOf (by omega)
  have hdiv : sectorBase s.cfg sector / s.cfg.sectorSize * s.cfg.sectorSize = sectorBase s.cfg sector := by
    unfold sectorBase; rw [Nat.mul_div_cancel _ hss]
  obtain ⟨s1, r1, c1, k1, e1⟩ := ran_eraseSector f h (hv.mono (by omega)) (a := addrOf (sectorBase s.cfg sector))
    f.valid.2.1 (by rw [hadr]; omega)
  rw [hadr, hdiv] at e1
  have f1 := r1.did.free f
  have g1 := r1.did.block.cfg
  have w1 : FlashWf s1 := by unfold FlashWf; rw [e1, g1]; exact Memory.wf_erase hw
  have fl1 : ∀ x, flash s1 x = if sectorBase s.cfg sector ≤ x ∧ x < sectorBase s.cfg sector + s.cfg.sectorSize
      then s.cfg.erasedByte else flash s x := fun x => by unfold flash; rw [e1, g1]; exact Memory.read_erase
  obtain ⟨s2, r2, c2, a2, h2, k2, wl2, w2, fl2⟩ := ran_programPages (sector := sector) (buf := s.buffer)
    s.cfg.pagesPerSector (k := 0) (s := s1) f1 ⟨by rw [e1]; exact h.1, by rw [e1]⟩ w1 (hv.tail c1)
    (by rw [g1, Nat.zero_add, hp]; exact le_of_eq hb.symm)
    (by rw [g1, Nat.zero_add, hp, show flashSize s1 = flashSize s by unfold flashSize; rw [e1]]; exact hr)
    (fun x hx1 hx2 => by
      rw [g1] at hx1 hx2 ⊢
      rw [Nat.zero_mul, Nat.add_zero] at hx1
      rw [Nat.zero_add, hp] at hx2
      rw [fl1, if_pos ⟨hx1, hx2⟩])
    (by rw [e1])
  rw [g1] at r2 fl2
  have f2 := r2.did.free f1
  let s3 : State := { s2 with dirty := false }
  have cache2 := (r1.did.block.trans r2.did.block).cache
  refine ⟨s3, ?_, ?_, cache2.loaded, rfl, cache2.sectorNumber, cache2.buffer, ?_, a2.trans k1, h2,
    k2.trans (by rw [e1]), wl2, w2, fun x => ?_⟩
  · unfold Cache.flushSector
    rw [List.append_assoc, r1.then, List.range_eq_range', r2.then, drive_go f2.quiet (s' := s3) rfl]
    rfl
  · have h3 : Moved s2 s3 [] := ⟨rfl, rfl, ⟨rfl, rfl, rfl, rfl⟩, rfl, rfl, ⟨rfl, rfl⟩, rfl, rfl⟩
    have := (r1.append r2).did.moved.trans h3
    rw [List.append_nil, ← List.map_append] at this
    rw [flushCommands, List.range_eq_range']
    exact this
  · show s2.choices = _
    rw [c2, c1, List.drop_tail]
  · show flash s2 x = _
    rw [fl2, fl1, Nat.zero_mul, Nat.add_zero, Nat.zero_add, hp]
    by_cases hx : sectorBase s.cfg sector ≤ x ∧ x < sectorBase s.cfg sector + s.cfg.sectorSize
    · simp only [if_pos hx]
    · simp only [if_neg hx]

end Sys2Proof.Machine
end

