-- ==== Sys2Proof/Laws/Decode.lean ====
section
/-! SUPPORT. The fields of requests, addresses and identifiers: putting together and taking apart. -/

namespace Sys2Proof

/-! ### Request words -/

section Host

variable {c : Config} {op : BitVec 4} {blk : Word32}

/-- The number a request word is (R100). -/
theorem hostWord_toNat (h : c.blkBits ≤ 32) (hb : blk.toNat < 2 ^ c.blkBits) :
    (hostWord c op blk).toNat = op.toNat * 2 ^ c.blkBits + blk.toNat ∧
      (hostWord c op blk).toNat < 2 ^ (c.blkBits + 4) := by
  have hlt : op.toNat * 2 ^ c.blkBits + blk.toNat < 2 ^ (c.blkBits + 4) := by
    have : (op.toNat + 1) * 2 ^ c.blkBits ≤ 2 ^ 4 * 2 ^ c.blkBits := Nat.mul_le_mul_right _ op.isLt
    rw [Nat.add_mul] at this
    rw [Nat.pow_add]; omega
  have hle : 2 ^ (c.blkBits + 4) ≤ 2 ^ 36 := Nat.pow_le_pow_right (by omega) (by omega)
  rw [hostWord, BitVec.toNat_ofNat, Nat.mod_eq_of_lt (by omega)]
  exact ⟨rfl, hlt⟩

/-- The code of a request word (R100, R101). -/
theorem hostOp_hostWord (h : c.blkBits ≤ 32) (hb : blk.toNat < 2 ^ c.blkBits) :
    hostOp c (hostWord c op blk) = op := by
  rw [hostOp, (hostWord_toNat h hb).1, Nat.add_comm, Nat.add_mul_div_right _ _ (by positivity),
    Nat.div_eq_of_lt hb, Nat.zero_add]
  exact BitVec.eq_of_toNat_eq (by simp)

/-- The block field of a request word (R100). -/
theorem hostBlk_hostWord (h : c.blkBits ≤ 32) (hb : blk.toNat < 2 ^ c.blkBits) :
    hostBlk c (hostWord c op blk) = blk := by
  rw [hostBlk, (hostWord_toNat h hb).1, Nat.add_comm, Nat.add_mul_mod_self_right, Nat.mod_eq_of_lt hb]
  exact BitVec.eq_of_toNat_eq (by simp)

/-- A request word decodes as its two fields (R100). -/
theorem decodeHost_hostWord (h : c.blkBits ≤ 32) (hb : blk.toNat < 2 ^ c.blkBits) (data : List Byte) :
    decodeHost c (hostWord c op blk) data = decodeRequest c op blk data := by
  rw [decodeHost, if_pos (hostWord_toNat h hb).2, hostOp_hostWord h hb, hostBlk_hostWord h hb]

/-- The sixteen codes, ascending. -/
theorem codes_nodup : ((List.range 16).map (BitVec.ofNat 4)).Nodup := by decide

theorem mem_codes (op : BitVec 4) : op ∈ (List.range 16).map (BitVec.ofNat 4) :=
  List.mem_map.2 ⟨op.toNat, List.mem_range.2 op.isLt, by simp⟩

theorem mem_reservedCodes : op ∈ c.reservedCodes ↔ op ∉ c.hostCodes := by
  simp [Config.reservedCodes, List.mem_filter, mem_codes op]

theorem reservedCodes_nodup : c.reservedCodes.Nodup := codes_nodup.filter _

/-- Six codes name no operation (R103). -/
theorem reservedCodes_length (h : c.hostCodes.Nodup) : c.reservedCodes.length = 6 := by
  have hp : ((List.range 16).map (BitVec.ofNat 4)).Perm (c.hostCodes ++ c.reservedCodes) := by
    refine (List.perm_ext_iff_of_nodup codes_nodup (h.append reservedCodes_nodup ?_)).2 fun x => ?_
    · intro x hx hy; exact mem_reservedCodes.1 hy hx
    · simp only [mem_codes x, List.mem_append, mem_reservedCodes, true_iff]; exact Classical.em _
  have := hp.length_eq
  simp only [List.length_map, List.length_range, List.length_append, Config.hostCodes, List.length_cons,
    List.length_nil] at this
  omega

/-- The `n`-th reserved code names no operation, and decodes to the `n`-th reserved instruction (R103). -/
theorem decodeReserved_reservedCode (h : c.hostCodes.Nodup) {n : Nat} (hn : n < 6) :
    reservedCode c n ∉ c.hostCodes ∧ decodeReserved c (reservedCode c n) = reservedInstrs.getD n .reservedF := by
  have hlt : n < c.reservedCodes.length := by rw [reservedCodes_length h]; exact hn
  have e : reservedCode c n = c.reservedCodes[n] := by simp [reservedCode, List.getD_eq_getElem?_getD, hlt]
  rw [e]
  exact ⟨mem_reservedCodes.1 (List.getElem_mem hlt), by
    rw [decodeReserved, reservedCodes_nodup.idxOf_getElem n hlt]⟩

/-- The operation each of the ten codes names (R101). -/
theorem decodeRequest_codes (h : c.hostCodes.Nodup) (blk : Word32) (data : List Byte) :
    decodeRequest c c.codeInit blk data = .ok .init ∧
    decodeRequest c c.codeReadBlock blk data = .ok (.readBlock blk) ∧
    decodeRequest c c.codeWriteBlock blk data
      = (if data.length = c.blockSize then .ok (.writeBlock blk data) else .error .wrongLength) ∧
    decodeRequest c c.codeFlush blk data = .ok .flush ∧
    decodeRequest c c.codeReformat blk data = .ok .reformat ∧
    decodeRequest c c.codeBlockCount blk data = .ok .blockCount ∧
    decodeRequest c c.codeTotalSize blk data = .ok .totalSize ∧
    decodeRequest c c.codeBlockSize blk data = .ok .blockSize ∧
    decodeRequest c c.codeSupportsDma blk data = .ok .supportsDma ∧
    decodeRequest c c.codeIsBusy blk data = .ok .isBusy := by
  have hn := List.nodup_reverse.2 h
  simp only [Config.hostCodes, List.reverse_cons, List.reverse_nil, List.nil_append, List.cons_append,
    List.nodup_cons, List.mem_cons, List.not_mem_nil, not_or, or_false] at hn
  simp [decodeRequest, hn]

/-- A request with a code that names no operation is one of the six reserved instructions (R103). -/
theorem decodeRequest_reserved (h : op ∉ c.hostCodes) (data : List Byte) :
    decodeRequest c op blk data = .ok (decodeReserved c op) := by
  simp only [Config.hostCodes, List.mem_cons, List.not_mem_nil, or_false, not_or] at h
  simp [decodeRequest, h]

end Host

/-! ### Addresses and identifiers -/

/-- Three received bytes and the bytes of the address they make (R50, R93). -/
theorem addrBytes_joinAddr (b2 b1 b0 : Byte) : addrBytes (joinAddr b2 b1 b0) = [b2, b1, b0] := by
  unfold addrBytes joinAddr
  congr 1
  · apply BitVec.eq_of_getLsbD_eq
    intro i hi
    simp only [BitVec.getLsbD_append, BitVec.getLsbD_extractLsb', hi, decide_true, Bool.true_and]
    rw [if_neg (by omega), if_neg (by omega)]; congr 1; omega
  · congr 1
    · apply BitVec.eq_of_getLsbD_eq
      intro i hi
      simp only [BitVec.getLsbD_append, BitVec.getLsbD_extractLsb', hi, decide_true, Bool.true_and]
      rw [if_neg (by omega), if_pos (by omega)]; congr 1; omega
    · congr 1
      apply BitVec.eq_of_getLsbD_eq
      intro i hi
      simp only [BitVec.getLsbD_append, BitVec.getLsbD_extractLsb', hi, decide_true, Bool.true_and]
      rw [if_pos (by omega)]; congr 1; omega

/-- An identifier from its own two bytes (R94). -/
theorem joinId_idBytes (id : Word16) : joinId (idBytes id).1 (idBytes id).2 = id := by
  unfold joinId idBytes
  apply BitVec.eq_of_getLsbD_eq
  intro i hi
  simp only [BitVec.getLsbD_append, BitVec.getLsbD_extractLsb']
  by_cases h : i < 8
  · simp [h]
  · simp [h, show i - 8 < 8 by omega]; congr 1; omega

end Sys2Proof
end

