-- ==== Sys2Proof/Laws/State.lean ====
section
/-! SUPPORT. One lemma for each field of `State` and each named update of it, so that no proof unfolds a record update. -/

namespace Sys2Proof.Machine

/-! ### A response -/

@[simp] theorem respond_cfg (st : Option (BitVec 1)) (v : Option Word32) (d : Option (List Byte)) (s : State) :
    (respond st v d s).cfg = s.cfg := rfl
@[simp] theorem respond_loaded (st : Option (BitVec 1)) (v : Option Word32) (d : Option (List Byte)) (s : State) :
    (respond st v d s).loaded = s.loaded := rfl
@[simp] theorem respond_dirty (st : Option (BitVec 1)) (v : Option Word32) (d : Option (List Byte)) (s : State) :
    (respond st v d s).dirty = s.dirty := rfl
@[simp] theorem respond_sectorNumber (st : Option (BitVec 1)) (v : Option Word32) (d : Option (List Byte)) (s : State) :
    (respond st v d s).sectorNumber = s.sectorNumber := rfl
@[simp] theorem respond_buffer (st : Option (BitVec 1)) (v : Option Word32) (d : Option (List Byte)) (s : State) :
    (respond st v d s).buffer = s.buffer := rfl
@[simp] theorem respond_busy (st : Option (BitVec 1)) (v : Option Word32) (d : Option (List Byte)) (s : State) :
    (respond st v d s).busy = s.busy := rfl
@[simp] theorem respond_deviceId (st : Option (BitVec 1)) (v : Option Word32) (d : Option (List Byte)) (s : State) :
    (respond st v d s).deviceId = s.deviceId := rfl
@[simp] theorem respond_capacity (st : Option (BitVec 1)) (v : Option Word32) (d : Option (List Byte)) (s : State) :
    (respond st v d s).capacity = s.capacity := rfl
@[simp] theorem respond_pageCount (st : Option (BitVec 1)) (v : Option Word32) (d : Option (List Byte)) (s : State) :
    (respond st v d s).pageCount = s.pageCount := rfl
@[simp] theorem respond_initialized (st : Option (BitVec 1)) (v : Option Word32) (d : Option (List Byte)) (s : State) :
    (respond st v d s).initialized = s.initialized := rfl
@[simp] theorem respond_seq (st : Option (BitVec 1)) (v : Option Word32) (d : Option (List Byte)) (s : State) :
    (respond st v d s).seq = s.seq := rfl
@[simp] theorem respond_cs (st : Option (BitVec 1)) (v : Option Word32) (d : Option (List Byte)) (s : State) :
    (respond st v d s).cs = s.cs := rfl
@[simp] theorem respond_rx (st : Option (BitVec 1)) (v : Option Word32) (d : Option (List Byte)) (s : State) :
    (respond st v d s).rx = s.rx := rfl
@[simp] theorem respond_result (st : Option (BitVec 1)) (v : Option Word32) (d : Option (List Byte)) (s : State) :
    (respond st v d s).result = s.result := rfl
@[simp] theorem respond_chip (st : Option (BitVec 1)) (v : Option Word32) (d : Option (List Byte)) (s : State) :
    (respond st v d s).chip = s.chip := rfl
@[simp] theorem respond_choices (st : Option (BitVec 1)) (v : Option Word32) (d : Option (List Byte)) (s : State) :
    (respond st v d s).choices = s.choices := rfl
@[simp] theorem respond_asked (st : Option (BitVec 1)) (v : Option Word32) (d : Option (List Byte)) (s : State) :
    (respond st v d s).asked = s.asked := rfl
@[simp] theorem respond_inbox (st : Option (BitVec 1)) (v : Option Word32) (d : Option (List Byte)) (s : State) :
    (respond st v d s).inbox = s.inbox := rfl
@[simp] theorem respond_history (st : Option (BitVec 1)) (v : Option Word32) (d : Option (List Byte)) (s : State) :
    (respond st v d s).history = s.history := rfl

/-! ### An answer used up -/

@[simp] theorem answered_cfg (s : State) : (answered s).cfg = s.cfg := rfl
@[simp] theorem answered_loaded (s : State) : (answered s).loaded = s.loaded := rfl
@[simp] theorem answered_dirty (s : State) : (answered s).dirty = s.dirty := rfl
@[simp] theorem answered_sectorNumber (s : State) : (answered s).sectorNumber = s.sectorNumber := rfl
@[simp] theorem answered_buffer (s : State) : (answered s).buffer = s.buffer := rfl
@[simp] theorem answered_busy (s : State) : (answered s).busy = s.busy := rfl
@[simp] theorem answered_deviceId (s : State) : (answered s).deviceId = s.deviceId := rfl
@[simp] theorem answered_capacity (s : State) : (answered s).capacity = s.capacity := rfl
@[simp] theorem answered_pageCount (s : State) : (answered s).pageCount = s.pageCount := rfl
@[simp] theorem answered_initialized (s : State) : (answered s).initialized = s.initialized := rfl
@[simp] theorem answered_seq (s : State) : (answered s).seq = s.seq := rfl
@[simp] theorem answered_cs (s : State) : (answered s).cs = s.cs := rfl
@[simp] theorem answered_rx (s : State) : (answered s).rx = s.rx := rfl
@[simp] theorem answered_result (s : State) : (answered s).result = s.result := rfl
@[simp] theorem answered_chip (s : State) : (answered s).chip = s.chip := rfl
@[simp] theorem answered_draws (s : State) : (answered s).draws = s.draws := rfl
@[simp] theorem answered_inbox (s : State) : (answered s).inbox = s.inbox := rfl
@[simp] theorem answered_responses (s : State) : (answered s).responses = s.responses := rfl
@[simp] theorem answered_history (s : State) : (answered s).history = s.history := rfl
@[simp] theorem answered_choices (s : State) : (answered s).choices = s.choices.tail := rfl

/-! ### A timed input comes nearer -/

@[simp] theorem tick_cfg (s : State) : (tick s).cfg = s.cfg := by unfold tick; split <;> rfl
@[simp] theorem tick_loaded (s : State) : (tick s).loaded = s.loaded := by unfold tick; split <;> rfl
@[simp] theorem tick_dirty (s : State) : (tick s).dirty = s.dirty := by unfold tick; split <;> rfl
@[simp] theorem tick_sectorNumber (s : State) : (tick s).sectorNumber = s.sectorNumber := by unfold tick; split <;> rfl
@[simp] theorem tick_buffer (s : State) : (tick s).buffer = s.buffer := by unfold tick; split <;> rfl
@[simp] theorem tick_busy (s : State) : (tick s).busy = s.busy := by unfold tick; split <;> rfl
@[simp] theorem tick_deviceId (s : State) : (tick s).deviceId = s.deviceId := by unfold tick; split <;> rfl
@[simp] theorem tick_capacity (s : State) : (tick s).capacity = s.capacity := by unfold tick; split <;> rfl
@[simp] theorem tick_pageCount (s : State) : (tick s).pageCount = s.pageCount := by unfold tick; split <;> rfl
@[simp] theorem tick_initialized (s : State) : (tick s).initialized = s.initialized := by unfold tick; split <;> rfl
@[simp] theorem tick_seq (s : State) : (tick s).seq = s.seq := by unfold tick; split <;> rfl
@[simp] theorem tick_cs (s : State) : (tick s).cs = s.cs := by unfold tick; split <;> rfl
@[simp] theorem tick_rx (s : State) : (tick s).rx = s.rx := by unfold tick; split <;> rfl
@[simp] theorem tick_result (s : State) : (tick s).result = s.result := by unfold tick; split <;> rfl
@[simp] theorem tick_chip (s : State) : (tick s).chip = s.chip := by unfold tick; split <;> rfl
@[simp] theorem tick_choices (s : State) : (tick s).choices = s.choices := by unfold tick; split <;> rfl
@[simp] theorem tick_asked (s : State) : (tick s).asked = s.asked := by unfold tick; split <;> rfl
@[simp] theorem tick_draws (s : State) : (tick s).draws = s.draws := by unfold tick; split <;> rfl
@[simp] theorem tick_responses (s : State) : (tick s).responses = s.responses := by unfold tick; split <;> rfl
@[simp] theorem tick_history (s : State) : (tick s).history = s.history := by unfold tick; split <;> rfl

/-! ### The page count -/

@[simp] theorem latchPageCount_cfg (s : State) : (latchPageCount s).cfg = s.cfg := by
  unfold latchPageCount; split <;> rfl
@[simp] theorem latchPageCount_loaded (s : State) : (latchPageCount s).loaded = s.loaded := by
  unfold latchPageCount; split <;> rfl
@[simp] theorem latchPageCount_dirty (s : State) : (latchPageCount s).dirty = s.dirty := by
  unfold latchPageCount; split <;> rfl
@[simp] theorem latchPageCount_sectorNumber (s : State) : (latchPageCount s).sectorNumber = s.sectorNumber := by
  unfold latchPageCount; split <;> rfl
@[simp] theorem latchPageCount_buffer (s : State) : (latchPageCount s).buffer = s.buffer := by
  unfold latchPageCount; split <;> rfl
@[simp] theorem latchPageCount_busy (s : State) : (latchPageCount s).busy = s.busy := by
  unfold latchPageCount; split <;> rfl
@[simp] theorem latchPageCount_deviceId (s : State) : (latchPageCount s).deviceId = s.deviceId := by
  unfold latchPageCount; split <;> rfl
@[simp] theorem latchPageCount_capacity (s : State) : (latchPageCount s).capacity = s.capacity := by
  unfold latchPageCount; split <;> rfl
@[simp] theorem latchPageCount_initialized (s : State) : (latchPageCount s).initialized = s.initialized := by
  unfold latchPageCount; split <;> rfl
@[simp] theorem latchPageCount_seq (s : State) : (latchPageCount s).seq = s.seq := by
  unfold latchPageCount; split <;> rfl
@[simp] theorem latchPageCount_cs (s : State) : (latchPageCount s).cs = s.cs := by
  unfold latchPageCount; split <;> rfl
@[simp] theorem latchPageCount_rx (s : State) : (latchPageCount s).rx = s.rx := by
  unfold latchPageCount; split <;> rfl
@[simp] theorem latchPageCount_result (s : State) : (latchPageCount s).result = s.result := by
  unfold latchPageCount; split <;> rfl
@[simp] theorem latchPageCount_chip (s : State) : (latchPageCount s).chip = s.chip := by
  unfold latchPageCount; split <;> rfl
@[simp] theorem latchPageCount_choices (s : State) : (latchPageCount s).choices = s.choices := by
  unfold latchPageCount; split <;> rfl
@[simp] theorem latchPageCount_asked (s : State) : (latchPageCount s).asked = s.asked := by
  unfold latchPageCount; split <;> rfl
@[simp] theorem latchPageCount_inbox (s : State) : (latchPageCount s).inbox = s.inbox := by
  unfold latchPageCount; split <;> rfl
@[simp] theorem latchPageCount_responses (s : State) : (latchPageCount s).responses = s.responses := by
  unfold latchPageCount; split <;> rfl
@[simp] theorem latchPageCount_history (s : State) : (latchPageCount s).history = s.history := by
  unfold latchPageCount; split <;> rfl

/-! ### The end of an operation -/

@[simp] theorem complete_cfg (op : Op) (s : State) : (complete op s).cfg = s.cfg := by cases op <;> rfl
@[simp] theorem complete_loaded (op : Op) (s : State) : (complete op s).loaded = s.loaded := by cases op <;> rfl
@[simp] theorem complete_dirty (op : Op) (s : State) : (complete op s).dirty = s.dirty := by cases op <;> rfl
@[simp] theorem complete_sectorNumber (op : Op) (s : State) : (complete op s).sectorNumber = s.sectorNumber := by cases op <;> rfl
@[simp] theorem complete_buffer (op : Op) (s : State) : (complete op s).buffer = s.buffer := by cases op <;> rfl
@[simp] theorem complete_deviceId (op : Op) (s : State) : (complete op s).deviceId = s.deviceId := by cases op <;> rfl
@[simp] theorem complete_capacity (op : Op) (s : State) : (complete op s).capacity = s.capacity := by cases op <;> rfl
@[simp] theorem complete_pageCount (op : Op) (s : State) : (complete op s).pageCount = s.pageCount := by cases op <;> rfl
@[simp] theorem complete_initialized (op : Op) (s : State) : (complete op s).initialized = s.initialized := by cases op <;> rfl
@[simp] theorem complete_cs (op : Op) (s : State) : (complete op s).cs = s.cs := by cases op <;> rfl
@[simp] theorem complete_rx (op : Op) (s : State) : (complete op s).rx = s.rx := by cases op <;> rfl
@[simp] theorem complete_chip (op : Op) (s : State) : (complete op s).chip = s.chip := by cases op <;> rfl
@[simp] theorem complete_choices (op : Op) (s : State) : (complete op s).choices = s.choices := by cases op <;> rfl
@[simp] theorem complete_asked (op : Op) (s : State) : (complete op s).asked = s.asked := by cases op <;> rfl
@[simp] theorem complete_inbox (op : Op) (s : State) : (complete op s).inbox = s.inbox := by cases op <;> rfl
@[simp] theorem complete_history (op : Op) (s : State) : (complete op s).history = s.history := by cases op <;> rfl
@[simp] theorem complete_seq (op : Op) (s : State) : (complete op s).seq = .idle := by cases op <;> rfl
@[simp] theorem complete_busy (op : Op) (s : State) :
    (complete op s).busy = if op.holdsBusy then false else s.busy := by cases op <;> rfl

/-! ### An operation given up -/

@[simp] theorem abandon_cfg (op : Op) (s : State) : (abandon op s).cfg = s.cfg := by cases op <;> rfl
@[simp] theorem abandon_loaded (op : Op) (s : State) : (abandon op s).loaded = s.loaded := by cases op <;> rfl
@[simp] theorem abandon_dirty (op : Op) (s : State) : (abandon op s).dirty = s.dirty := by cases op <;> rfl
@[simp] theorem abandon_sectorNumber (op : Op) (s : State) : (abandon op s).sectorNumber = s.sectorNumber := by cases op <;> rfl
@[simp] theorem abandon_buffer (op : Op) (s : State) : (abandon op s).buffer = s.buffer := by cases op <;> rfl
@[simp] theorem abandon_deviceId (op : Op) (s : State) : (abandon op s).deviceId = s.deviceId := by cases op <;> rfl
@[simp] theorem abandon_capacity (op : Op) (s : State) : (abandon op s).capacity = s.capacity := by cases op <;> rfl
@[simp] theorem abandon_pageCount (op : Op) (s : State) : (abandon op s).pageCount = s.pageCount := by cases op <;> rfl
@[simp] theorem abandon_initialized (op : Op) (s : State) : (abandon op s).initialized = s.initialized := by cases op <;> rfl
@[simp] theorem abandon_cs (op : Op) (s : State) : (abandon op s).cs = s.cs := by cases op <;> rfl
@[simp] theorem abandon_rx (op : Op) (s : State) : (abandon op s).rx = s.rx := by cases op <;> rfl
@[simp] theorem abandon_chip (op : Op) (s : State) : (abandon op s).chip = s.chip := by cases op <;> rfl
@[simp] theorem abandon_choices (op : Op) (s : State) : (abandon op s).choices = s.choices := by cases op <;> rfl
@[simp] theorem abandon_asked (op : Op) (s : State) : (abandon op s).asked = s.asked := by cases op <;> rfl
@[simp] theorem abandon_inbox (op : Op) (s : State) : (abandon op s).inbox = s.inbox := by cases op <;> rfl
@[simp] theorem abandon_history (op : Op) (s : State) : (abandon op s).history = s.history := by cases op <;> rfl
@[simp] theorem abandon_seq (op : Op) (s : State) : (abandon op s).seq = .idle := by cases op <;> rfl

/-! ### A reset -/

@[simp] theorem blockReset_cfg (k : Chip) (d : Nat) (s : State) : (blockReset k d s).cfg = s.cfg := rfl
@[simp] theorem blockReset_loaded (k : Chip) (d : Nat) (s : State) : (blockReset k d s).loaded = false := rfl
@[simp] theorem blockReset_dirty (k : Chip) (d : Nat) (s : State) : (blockReset k d s).dirty = false := rfl
@[simp] theorem blockReset_sectorNumber (k : Chip) (d : Nat) (s : State) : (blockReset k d s).sectorNumber = 0 := rfl
@[simp] theorem blockReset_buffer (k : Chip) (d : Nat) (s : State) : (blockReset k d s).buffer = List.replicate s.cfg.sectorSize 0 := rfl
@[simp] theorem blockReset_busy (k : Chip) (d : Nat) (s : State) : (blockReset k d s).busy = false := rfl
@[simp] theorem blockReset_deviceId (k : Chip) (d : Nat) (s : State) : (blockReset k d s).deviceId = 0 := rfl
@[simp] theorem blockReset_capacity (k : Chip) (d : Nat) (s : State) : (blockReset k d s).capacity = 0 := rfl
@[simp] theorem blockReset_pageCount (k : Chip) (d : Nat) (s : State) : (blockReset k d s).pageCount = 0 := rfl
@[simp] theorem blockReset_initialized (k : Chip) (d : Nat) (s : State) : (blockReset k d s).initialized = false := rfl
@[simp] theorem blockReset_seq (k : Chip) (d : Nat) (s : State) : (blockReset k d s).seq = .idle := rfl
@[simp] theorem blockReset_cs (k : Chip) (d : Nat) (s : State) : (blockReset k d s).cs = false := rfl
@[simp] theorem blockReset_rx (k : Chip) (d : Nat) (s : State) : (blockReset k d s).rx = [] := rfl
@[simp] theorem blockReset_result (k : Chip) (d : Nat) (s : State) : (blockReset k d s).result = .none := rfl
@[simp] theorem blockReset_chip (k : Chip) (d : Nat) (s : State) : (blockReset k d s).chip = k := rfl
@[simp] theorem blockReset_choices (k : Chip) (d : Nat) (s : State) : (blockReset k d s).choices = s.choices := rfl
@[simp] theorem blockReset_asked (k : Chip) (d : Nat) (s : State) : (blockReset k d s).asked = s.asked := rfl
@[simp] theorem blockReset_draws (k : Chip) (d : Nat) (s : State) : (blockReset k d s).draws = d := rfl
@[simp] theorem blockReset_inbox (k : Chip) (d : Nat) (s : State) : (blockReset k d s).inbox = s.inbox := rfl
@[simp] theorem blockReset_responses (k : Chip) (d : Nat) (s : State) : (blockReset k d s).responses = s.responses := rfl
@[simp] theorem blockReset_history (k : Chip) (d : Nat) (s : State) : (blockReset k d s).history = s.history := rfl

/-! ### A word to run next -/

@[simp] theorem withFetchWord_cfg (s : State) (n w : Nat) : (s.withFetchWord n w).cfg = s.cfg := rfl
@[simp] theorem withFetchWord_loaded (s : State) (n w : Nat) : (s.withFetchWord n w).loaded = s.loaded := rfl
@[simp] theorem withFetchWord_dirty (s : State) (n w : Nat) : (s.withFetchWord n w).dirty = s.dirty := rfl
@[simp] theorem withFetchWord_sectorNumber (s : State) (n w : Nat) : (s.withFetchWord n w).sectorNumber = s.sectorNumber := rfl
@[simp] theorem withFetchWord_buffer (s : State) (n w : Nat) : (s.withFetchWord n w).buffer = s.buffer := rfl
@[simp] theorem withFetchWord_busy (s : State) (n w : Nat) : (s.withFetchWord n w).busy = s.busy := rfl
@[simp] theorem withFetchWord_deviceId (s : State) (n w : Nat) : (s.withFetchWord n w).deviceId = s.deviceId := rfl
@[simp] theorem withFetchWord_capacity (s : State) (n w : Nat) : (s.withFetchWord n w).capacity = s.capacity := rfl
@[simp] theorem withFetchWord_pageCount (s : State) (n w : Nat) : (s.withFetchWord n w).pageCount = s.pageCount := rfl
@[simp] theorem withFetchWord_initialized (s : State) (n w : Nat) : (s.withFetchWord n w).initialized = s.initialized := rfl
@[simp] theorem withFetchWord_seq (s : State) (n w : Nat) : (s.withFetchWord n w).seq = s.seq := rfl
@[simp] theorem withFetchWord_cs (s : State) (n w : Nat) : (s.withFetchWord n w).cs = s.cs := rfl
@[simp] theorem withFetchWord_rx (s : State) (n w : Nat) : (s.withFetchWord n w).rx = s.rx := rfl
@[simp] theorem withFetchWord_result (s : State) (n w : Nat) : (s.withFetchWord n w).result = s.result := rfl
@[simp] theorem withFetchWord_chip (s : State) (n w : Nat) : (s.withFetchWord n w).chip = s.chip := rfl
@[simp] theorem withFetchWord_choices (s : State) (n w : Nat) : (s.withFetchWord n w).choices = s.choices := rfl
@[simp] theorem withFetchWord_asked (s : State) (n w : Nat) : (s.withFetchWord n w).asked = s.asked := rfl
@[simp] theorem withFetchWord_draws (s : State) (n w : Nat) : (s.withFetchWord n w).draws = s.draws := rfl
@[simp] theorem withFetchWord_responses (s : State) (n w : Nat) : (s.withFetchWord n w).responses = s.responses := rfl
@[simp] theorem withFetchWord_history (s : State) (n w : Nat) : (s.withFetchWord n w).history = s.history := rfl

/-! ### `withBlockOf` -/

@[simp] theorem withBlockOf_cfg (s b : State) : (s.withBlockOf b).cfg = s.cfg := rfl
@[simp] theorem withBlockOf_seq (s b : State) : (s.withBlockOf b).seq = s.seq := rfl
@[simp] theorem withBlockOf_cs (s b : State) : (s.withBlockOf b).cs = s.cs := rfl
@[simp] theorem withBlockOf_rx (s b : State) : (s.withBlockOf b).rx = s.rx := rfl
@[simp] theorem withBlockOf_result (s b : State) : (s.withBlockOf b).result = s.result := rfl
@[simp] theorem withBlockOf_chip (s b : State) : (s.withBlockOf b).chip = s.chip := rfl
@[simp] theorem withBlockOf_choices (s b : State) : (s.withBlockOf b).choices = s.choices := rfl
@[simp] theorem withBlockOf_asked (s b : State) : (s.withBlockOf b).asked = s.asked := rfl
@[simp] theorem withBlockOf_draws (s b : State) : (s.withBlockOf b).draws = s.draws := rfl
@[simp] theorem withBlockOf_inbox (s b : State) : (s.withBlockOf b).inbox = s.inbox := rfl
@[simp] theorem withBlockOf_responses (s b : State) : (s.withBlockOf b).responses = s.responses := rfl
@[simp] theorem withBlockOf_history (s b : State) : (s.withBlockOf b).history = s.history := rfl
@[simp] theorem withBlockOf_loaded (s b : State) : (s.withBlockOf b).loaded = b.loaded := rfl
@[simp] theorem withBlockOf_dirty (s b : State) : (s.withBlockOf b).dirty = b.dirty := rfl
@[simp] theorem withBlockOf_sectorNumber (s b : State) : (s.withBlockOf b).sectorNumber = b.sectorNumber := rfl
@[simp] theorem withBlockOf_buffer (s b : State) : (s.withBlockOf b).buffer = b.buffer := rfl
@[simp] theorem withBlockOf_busy (s b : State) : (s.withBlockOf b).busy = b.busy := rfl
@[simp] theorem withBlockOf_deviceId (s b : State) : (s.withBlockOf b).deviceId = b.deviceId := rfl
@[simp] theorem withBlockOf_capacity (s b : State) : (s.withBlockOf b).capacity = b.capacity := rfl
@[simp] theorem withBlockOf_pageCount (s b : State) : (s.withBlockOf b).pageCount = b.pageCount := rfl
@[simp] theorem withBlockOf_initialized (s b : State) : (s.withBlockOf b).initialized = b.initialized := rfl

end Sys2Proof.Machine
end

