-- ==== Sys2Proof/Laws/Host.lean ====
section
/-! SUPPORT. The host's data operations: the blocks of a detected device, hits and misses, evictions, and from a run to the
operation's next state. -/

namespace Sys2Proof.Machine

variable {s : State}

/-! ### The blocks of a detected device (R29, R30, R43, R56) -/

/-- The blocks fill the capacity, and so do the sectors; every address fits the wire. -/
theorem record_fills (hv : s.cfg.Valid) (hr : RecordOk s) :
    blockCountOf s * s.cfg.blockSize = s.capacity.toNat ∧ s.cfg.sectorSize ∣ s.capacity.toNat ∧
      s.capacity.toNat ≤ 2 ^ 23 := by
  have hcap : s.capacity.toNat = Config.capA ∨ s.capacity.toNat = Config.capB := by
    rw [hr.1]; have := hr.2.1; rw [hr.1] at this
    unfold lookup at *
    split_ifs at *
    · left; decide
    · right; decide
    · exact absurd rfl this
  have hss : s.cfg.sectorSize ∣ s.capacity.toNat := by
    have := hv.2.1
    simp only [Config.eraseSizes, List.mem_cons, List.not_mem_nil, or_false] at this
    rcases hcap with h | h <;> rcases this with h' | h' | h' <;> rw [h, h'] <;> decide
  have hbs : s.cfg.blockSize ∣ s.capacity.toNat := hv.2.2.1.trans hss
  have hle : s.capacity.toNat ≤ 2 ^ 23 := by rcases hcap with h | h <;> rw [h] <;> decide
  refine ⟨?_, hss, hle⟩
  unfold blockCountOf
  rw [hr.2.2, BitVec.toNat_ofNat, Nat.mod_eq_of_lt (lt_of_le_of_lt (Nat.div_le_self _ _) (by omega))]
  have : s.capacity.toNat / s.cfg.pageSize / Config.pagesPerBlock = s.capacity.toNat / s.cfg.blockSize := by
    rw [Nat.div_div_eq_div_mul, Config.blockSize, Nat.mul_comm]
  rw [this, Nat.div_mul_cancel hbs]

/-- A sector that starts within a multiple of the sector size ends within it. -/
theorem sector_fits {c : Config} (hv : c.Valid) {sector size : Nat} (hd : c.sectorSize ∣ size)
    (h : sectorBase c sector < size) : sectorBase c sector + c.sectorSize ≤ size := by
  obtain ⟨m, rfl⟩ := hd
  have hss := sectorSize_pos hv
  unfold sectorBase at *
  rw [Nat.mul_comm c.sectorSize m] at *
  have : sector < m := Nat.lt_of_mul_lt_mul_right h
  calc sector * c.sectorSize + c.sectorSize = (sector + 1) * c.sectorSize := by rw [Nat.add_mul, Nat.one_mul]
    _ ≤ m * c.sectorSize := Nat.mul_le_mul_right _ this

/-- The sector of an admitted block is within the device. -/
theorem admitted_sector (hv : s.cfg.Valid) (hr : RecordOk s) {b : Nat} (hb : b < blockCountOf s) :
    sectorBase s.cfg (resolve s.cfg b).1 + s.cfg.sectorSize ≤ s.capacity.toNat := by
  obtain ⟨h1, h2, -⟩ := record_fills hv hr
  refine sector_fits hv h2 ?_
  have := resolve_address hv b
  have hlt : b * s.cfg.blockSize < s.capacity.toNat := by
    rw [← h1]; exact Nat.mul_lt_mul_of_pos_right hb (blockSize_pos hv)
  unfold sectorBase; omega

theorem resolve_lt {c : Config} (blk : Word32) : (resolve c blk.toNat).1 < 2 ^ 32 :=
  lt_of_le_of_lt (Nat.div_le_self _ _) blk.isLt

theorem hit_iff {sector : Nat} (h : sector < 2 ^ 32) :
    hit s sector = true ↔ s.loaded = true ∧ s.sectorNumber.toNat = sector := by
  unfold hit
  simp only [Bool.and_eq_true, beq_iff_eq]
  constructor
  · rintro ⟨h1, h2⟩; exact ⟨h1, by rw [h2, BitVec.toNat_ofNat, Nat.mod_eq_of_lt h]⟩
  · rintro ⟨h1, h2⟩; exact ⟨h1, by rw [← h2, BitVec.ofNat_toNat, BitVec.setWidth_eq]⟩

/-! ### Flash bytes -/

@[simp] theorem length_flashBytes (s : State) (a n : Nat) : (flashBytes s a n).length = n := by simp [flashBytes]

theorem getElem?_flashBytes {a n i : Nat} (h : i < n) : (flashBytes s a n)[i]? = some (flash s (a + i)) := by
  unfold flashBytes Memory.readRange
  rw [List.getElem?_map, List.getElem?_range h]; rfl

/-- A list of the right length whose elements are the flash's is the flash's bytes. -/
theorem eq_flashBytes {l : List Byte} {a n : Nat} (hl : l.length = n)
    (h : ∀ i, i < n → l[i]? = some (flash s (a + i))) : l = flashBytes s a n := by
  apply List.ext_getElem?
  intro i
  by_cases hi : i < n
  · rw [h i hi, getElem?_flashBytes hi]
  · rw [List.getElem?_eq_none (by omega), List.getElem?_eq_none (by simp; omega)]

/-- A slice of flash bytes is the flash's bytes there. -/
theorem slice_flashBytes {a n off m : Nat} (h : off + m ≤ n) :
    slice (flashBytes s a n) off m = flashBytes s (a + off) m := by
  apply eq_flashBytes (length_slice (by simpa using h))
  intro i hi
  rw [getElem?_slice hi, getElem?_flashBytes (by omega), Nat.add_assoc]

theorem flashBytes_congr {t : State} {a n : Nat} (h : ∀ i, i < n → flash t (a + i) = flash s (a + i)) :
    flashBytes t a n = flashBytes s a n :=
  eq_flashBytes (by simp) fun i hi => by rw [getElem?_flashBytes hi, h i hi]

/-! ### An eviction (R164): flush, then load -/

/-- Write the dirty sector back, then load another (R163, R162, R68). -/
theorem drive_evict {sector : Nat} (f : Free s) (h : ChipReady s) (hw : FlashWf s) (hb : BufferFull s)
    (hv : ReadyFor (pollsPerFlush s.cfg) s)
    (hold : sectorBase s.cfg s.sectorNumber.toNat + s.cfg.sectorSize ≤ flashSize s)
    (hr : sectorBase s.cfg sector + s.cfg.sectorSize ≤ flashSize s) :
    ∃ u, drive (Cache.flushSector s.cfg s.sectorNumber.toNat s.buffer ++ Cache.loadSector s.cfg sector) s = .done u ∧
      Moved s u ((flushCommands s.cfg s.sectorNumber.toNat s.buffer ++ loadCommands s.cfg sector).map
        (wireBytes s.cfg)) ∧
      u.loaded = true ∧ u.dirty = false ∧ u.sectorNumber = BitVec.ofNat 32 sector ∧
      u.choices = s.choices.drop (pollsPerFlush s.cfg) ∧ ChipReady u ∧ u.chip.kind = s.chip.kind ∧ FlashWf u ∧
      (∀ x, flash u x = if sectorBase s.cfg s.sectorNumber.toNat ≤ x ∧
          x < sectorBase s.cfg s.sectorNumber.toNat + s.cfg.sectorSize
        then s.buffer.getD (x - sectorBase s.cfg s.sectorNumber.toNat) 0 else flash s x) ∧
      u.buffer = flashBytes u (sectorBase s.cfg sector) s.cfg.sectorSize := by
  obtain ⟨m, d1, m1, -, di1, -, b1, c1, -, h1, k1, -, w1, f1⟩ := drive_flushSector f h hw hv hb hold
  have g1 := m1.cfg
  have z1 : flashSize m = flashSize s := by unfold flashSize; rw [k1]
  obtain ⟨u, d2, m2, l2, di2, s2, ch2, c2, -, b2, bu2⟩ := drive_loadSector (sector := sector) (m1.free f) h1
    (by show m.buffer.length = m.cfg.sectorSize; rw [b1, g1]; exact hb) (by rw [g1, z1]; exact hr)
  rw [g1] at d2 m2 bu2
  have fu : ∀ x, flash u x = flash m x := fun x => by unfold flash; rw [ch2.mem, m2.cfg]
  refine ⟨u, by rw [drive_trans d1, d2], ?_, l2, di2.trans di1, s2, by rw [c2, c1]; rfl, ch2.ready h1,
    ch2.kind.trans k1, ?_, fun x => by rw [fu, f1], ?_⟩
  · rw [List.map_append]; exact m1.trans m2
  · unfold FlashWf; rw [ch2.mem, m2.cfg]; exact w1
  · refine eq_flashBytes (by rw [b2, m2.cfg, g1]) fun i hi => ?_
    rw [bu2 i hi, fu]

/-! ### From a run to an operation -/

/-- A data operation that takes the guard and runs to its end gives its response there. -/
theorem start_done {op : Op} {prog : List Micro} {t u : State} (h : drive prog t = .done u) :
    start op prog t = .next (complete op u) := by
  unfold start; rw [h]; rfl

/-- What a completed read, write, flush or reformat leaves alone. -/
theorem servedFrame_complete {op : Op} {u : State} {sent : List (List Byte)} (b : Bool)
    (hm : Moved { s with busy := b } u sent) (hk : u.chip.kind = s.chip.kind) (hop : op.holdsBusy = b)
    (hd : ∀ r, op ≠ .direct r) : ServedFrame s (complete op u) where
  cfg := by simp [hm.cfg]
  identity := ⟨by simp [hm.identity.1], by simp [hm.identity.2], by simp [hm.identity.3], by simp [hm.identity.4]⟩
  cs := by simp [hm.cs]
  kind := by simp [hk]
  inbox := by simp [hm.host.1]
  result := by
    have := hm.result
    cases op <;> first | exact this | exact absurd rfl (hd _)
  seq := by simp
  busy := by
    rw [complete_busy, hop]
    cases b
    · exact hm.busy
    · rfl

/-- The transactions of a completed operation are those of its run. -/
theorem sentAfter_complete {op : Op} {u : State} {sent : List (List Byte)} (b : Bool)
    (hm : Moved { s with busy := b } u sent) : SentAfter s (complete op u) sent := by
  have := hm.sentAfter
  unfold SentAfter frames at *
  simpa using this

/-- A response given to an idle block. -/
theorem responded_complete {u : State} {sent : List (List Byte)} (b : Bool) (hm : Moved { s with busy := b } u sent) :
    (∀ off, Responded s (complete (.readBlock off) u) (some u.cfg.statusSuccess) none
      (some (slice u.buffer off u.cfg.blockSize))) ∧
    Responded s (complete .writeBlock u) (some u.cfg.statusSuccess) none none ∧
    Responded s (complete .flush u) none none none ∧ Responded s (complete .reformat u) none none none := by
  have e := hm.host.2
  refine ⟨fun off => ⟨_, congrArg (List.cons _) e, ?_, by simp, ?_⟩, ⟨_, congrArg (List.cons _) e, ?_, by simp, by simp⟩,
    ⟨_, congrArg (List.cons _) e, by simp, by simp, by simp⟩, ⟨_, congrArg (List.cons _) e, by simp, by simp, by simp⟩⟩
  · intro x hx; simpa using hx
  · intro x hx; simpa using hx
  · intro x hx; simpa using hx

/-! ### Admitted requests -/

/-- An admitted READ_BLOCK takes the guard and makes the block's sector resident. -/
theorem exec_readBlock {blk : Word32} (hs : s.seq = .idle) (hi : s.initialized = true) (hb : s.busy = false)
    (hr : blk.toNat < blockCountOf s) :
    exec (.readBlock blk) s = start (.readBlock (resolve s.cfg blk.toNat).2)
      (Cache.ensureSector s (resolve s.cfg blk.toNat).1) { s with busy := true } := by
  simp [exec, execReadBlock, admitted, occupied, hs, hi, hb, inRange, Nat.not_le.2 hr]

/-- An admitted WRITE_BLOCK takes the guard and runs its body. -/
theorem exec_writeBlock {blk : Word32} {d : List Byte} (hs : s.seq = .idle) (hi : s.initialized = true)
    (hb : s.busy = false) (hr : blk.toNat < blockCountOf s) (hl : d.length = s.cfg.blockSize) :
    exec (.writeBlock blk d) s = start .writeBlock (writeBody s blk.toNat d) { s with busy := true } := by
  simp [exec, execWriteBlock, admitted, occupied, hs, hi, hb, inRange, Nat.not_le.2 hr, hl]

/-- An admitted FLUSH. -/
theorem exec_flush (hs : s.seq = .idle) (hi : s.initialized = true) (hb : s.busy = false) :
    exec .flush s = start .flush (Cache.flushCache s) s := by
  simp [exec, execFlush, admitted, occupied, hs, hi, hb]

/-- An admitted REFORMAT. -/
theorem exec_reformat (hs : s.seq = .idle) (hi : s.initialized = true) (hb : s.busy = false) :
    exec .reformat s = start .reformat (Driver.eraseChip s.cfg ++ [.invalidate]) s := by
  simp [exec, execReformat, admitted, occupied, hs, hi, hb]

/-! ### A serving block -/

theorem Serving.free_taken (sv : Serving s) : Free { s with busy := true } :=
  ⟨sv.calm.2.2.1, sv.calm.2.1, sv.calm.2.2.2⟩

theorem Moved.of_busy_false {u : State} {x : List (List Byte)} (hb : s.busy = false) (m : Moved s u x) :
    Moved { s with busy := false } u x :=
  ⟨m.1, m.2.trans hb, ⟨m.3.1, m.3.2, m.3.3, m.3.4⟩, m.4, m.5, ⟨m.6.1, m.6.2⟩, m.7, m.8⟩

theorem hit_false {blk : Word32} (h : ¬ (s.loaded = true ∧ s.sectorNumber.toNat = (resolve s.cfg blk.toNat).1)) :
    hit s (resolve s.cfg blk.toNat).1 = false := by
  rw [← hit_iff (resolve_lt blk)] at h; simpa using h

/-- The cached sector is within the device. -/
theorem Serving.cached_fits (sv : Serving s) (hl : s.loaded = true) :
    sectorBase s.cfg s.sectorNumber.toNat + s.cfg.sectorSize ≤ flashSize s :=
  sector_fits sv.calm.2.2.2 (by rw [sv.size]; exact (record_fills sv.calm.2.2.2 sv.record).2.1) (sv.sector hl)

/-- The sector of an admitted block is within the device. -/
theorem Serving.block_fits (sv : Serving s) {blk : Word32} (hr : blk.toNat < blockCountOf s) :
    sectorBase s.cfg (resolve s.cfg blk.toNat).1 + s.cfg.sectorSize ≤ flashSize s := by
  rw [sv.size]; exact admitted_sector sv.calm.2.2.2 sv.record hr

/-- A block's bytes in its sector are its bytes in the flash. -/
theorem slice_block (hv : s.cfg.Valid) (b : Nat) :
    slice (flashBytes s (sectorBase s.cfg (resolve s.cfg b).1) s.cfg.sectorSize) (resolve s.cfg b).2 s.cfg.blockSize
      = flashBytes s (b * s.cfg.blockSize) s.cfg.blockSize := by
  rw [slice_flashBytes (resolve_fits hv b), ← resolve_address hv b]; rfl

theorem disjoint_sectors {c : Config} {a b i : Nat} (h : a ≠ b) (hi : i < c.sectorSize) :
    ¬ (sectorBase c a ≤ sectorBase c b + i ∧ sectorBase c b + i < sectorBase c a + c.sectorSize) := by
  unfold sectorBase
  intro ⟨h1, h2⟩
  rcases Nat.lt_or_gt_of_ne h with h | h
  · have : (a + 1) * c.sectorSize ≤ b * c.sectorSize := Nat.mul_le_mul_right _ h
    rw [Nat.add_mul, Nat.one_mul] at this; omega
  · have : (b + 1) * c.sectorSize ≤ a * c.sectorSize := Nat.mul_le_mul_right _ h
    rw [Nat.add_mul, Nat.one_mul] at this; omega

/-- What was written back is what the flash holds. -/
theorem flashBytes_written {t : State} {buf : List Byte} {base n : Nat} (hl : buf.length = n)
    (h : ∀ x, flash t x = if base ≤ x ∧ x < base + n then buf.getD (x - base) 0 else flash s x) :
    flashBytes t base n = buf := by
  symm
  refine eq_flashBytes hl fun i hi => ?_
  rw [h, if_pos ⟨by omega, by omega⟩, Nat.add_sub_cancel_left, List.getD_eq_getElem?_getD,
    List.getElem?_eq_getElem (by omega)]
  rfl

/-- `ensureSector` of another sector from Empty or Clean is a load (R164). -/
theorem drive_ensure_clean {blk : Word32} (sv : Serving s) (hr : blk.toNat < blockCountOf s) (hdi : s.dirty = false)
    (hn : ¬ (s.loaded = true ∧ s.sectorNumber.toNat = (resolve s.cfg blk.toNat).1)) :
    ∃ u, drive (Cache.ensureSector s (resolve s.cfg blk.toNat).1) { s with busy := true } = .done u ∧
      Moved { s with busy := true } u ((loadCommands s.cfg (resolve s.cfg blk.toNat).1).map (wireBytes s.cfg)) ∧
      u.loaded = true ∧ u.dirty = false ∧ u.sectorNumber.toNat = (resolve s.cfg blk.toNat).1 ∧ SameChip s u ∧
      u.choices = s.choices ∧
      u.buffer = flashBytes s (sectorBase s.cfg (resolve s.cfg blk.toNat).1) s.cfg.sectorSize := by
  obtain ⟨u, d, m, l, di, se, ch, c, -, b, bu⟩ := drive_loadSector (s := { s with busy := true })
    (sector := (resolve s.cfg blk.toNat).1) sv.free_taken sv.chip sv.buffer (sv.block_fits hr)
  refine ⟨u, ?_, m, l, di.trans hdi, ?_, ⟨ch.1, ch.2, ch.3, ch.4⟩, c, ?_⟩
  · have e : Cache.ensureSector s (resolve s.cfg blk.toNat).1 =
        Cache.loadSector s.cfg (resolve s.cfg blk.toNat).1 := by
      unfold Cache.ensureSector Cache.flushCache; simp [hit_false hn, hdi]
    rw [e]; exact d
  · rw [se, BitVec.toNat_ofNat, Nat.mod_eq_of_lt (resolve_lt blk)]
  · exact eq_flashBytes (by rw [b, m.cfg]) bu

/-- `ensureSector` of another sector from Dirty is an eviction and a load (R164). -/
theorem drive_ensure_dirty {blk : Word32} (sv : Serving s) (hr : blk.toNat < blockCountOf s) (hdi : s.dirty = true)
    (hn : s.sectorNumber.toNat ≠ (resolve s.cfg blk.toNat).1) (hv : ReadyFor (pollsPerFlush s.cfg) s) :
    ∃ u, drive (Cache.ensureSector s (resolve s.cfg blk.toNat).1) { s with busy := true } = .done u ∧
      Moved { s with busy := true } u ((flushCommands s.cfg s.sectorNumber.toNat s.buffer ++
        loadCommands s.cfg (resolve s.cfg blk.toNat).1).map (wireBytes s.cfg)) ∧
      u.loaded = true ∧ u.dirty = false ∧ u.sectorNumber.toNat = (resolve s.cfg blk.toNat).1 ∧ ChipReady u ∧
      u.chip.kind = s.chip.kind ∧ FlashWf u ∧ u.choices = s.choices.drop (pollsPerFlush s.cfg) ∧
      u.buffer = flashBytes s (sectorBase s.cfg (resolve s.cfg blk.toNat).1) s.cfg.sectorSize ∧
      (∀ x, flash u x = if sectorBase s.cfg s.sectorNumber.toNat ≤ x ∧
          x < sectorBase s.cfg s.sectorNumber.toNat + s.cfg.sectorSize
        then s.buffer.getD (x - sectorBase s.cfg s.sectorNumber.toNat) 0 else flash s x) := by
  obtain ⟨u, d, m, l, di, se, c, h, k, w, fl, bu⟩ := drive_evict (s := { s with busy := true })
    (sector := (resolve s.cfg blk.toNat).1) sv.free_taken sv.chip sv.flash sv.buffer hv
    (sv.cached_fits (sv.flags hdi)) (sv.block_fits hr)
  refine ⟨u, ?_, m, l, di, ?_, h, k, w, c, ?_, fl⟩
  · have e : Cache.ensureSector s (resolve s.cfg blk.toNat).1 = Cache.flushSector s.cfg s.sectorNumber.toNat s.buffer ++
        Cache.loadSector s.cfg (resolve s.cfg blk.toNat).1 := by
      unfold Cache.ensureSector Cache.flushCache; simp [hit_false (fun h => hn h.2), hdi]
    rw [e]; exact d
  · rw [se, BitVec.toNat_ofNat, Nat.mod_eq_of_lt (resolve_lt blk)]
  · rw [bu]
    refine flashBytes_congr fun i hi => ?_
    rw [fl, if_neg (disjoint_sectors hn hi)]; rfl

/-- The last two writes of a `writeBlock` (R167). -/
theorem drive_copyIn {u : State} {off : Nat} {data : List Byte} (q : quiet u = true) :
    drive [.copyIn off data, .setDirty true] u =
      .done { u with buffer := splice u.buffer off data, dirty := true } := by
  rw [drive_go q (s' := { u with buffer := splice u.buffer off data }) rfl]
  exact drive_write (s := { u with buffer := splice u.buffer off data }) q rfl

end Sys2Proof.Machine
end

