-- ==== Sys2Proof/Laws/Device.lean ====
section
/-! SUPPORT. The block device as an array of blocks: what makes a sector resident, what a served operation leaves, and
polls and runs of steps. -/

namespace Sys2Proof.Machine

/-! ### Blocks of one sector -/

/-- Two blocks of a sector do not overlap in it (R54, R160). -/
theorem resolve_disjoint {c : Config} (hv : c.Valid) {a b : Nat} (h1 : (resolve c a).1 = (resolve c b).1) (h : a ≠ b)
    {i : Nat} (hi : i < c.blockSize) :
    ¬ ((resolve c a).2 ≤ (resolve c b).2 + i ∧ (resolve c b).2 + i < (resolve c a).2 + c.blockSize) := by
  have ha := resolve_address hv a
  have hb := resolve_address hv b
  rw [h1] at ha
  rintro ⟨h2, h3⟩
  rcases Nat.lt_or_gt_of_ne h with h | h
  · have : (a + 1) * c.blockSize ≤ b * c.blockSize := Nat.mul_le_mul_right _ h
    rw [Nat.add_mul, Nat.one_mul] at this; omega
  · have : (b + 1) * c.blockSize ≤ a * c.blockSize := Nat.mul_le_mul_right _ h
    rw [Nat.add_mul, Nat.one_mul] at this; omega

/-! ### A sector made resident (R164) -/

/-- After `ensureSector` the block's sector is cached; the array of blocks is the same, and a Clean cache equals the
flash (R65, R66). -/
theorem drive_ensure {s : State} {blk : Word32} (sv : Serving s) (hr : blk.toNat < blockCountOf s)
    (hv : ReadyFor (pollsPerFlush s.cfg) s) :
    ∃ u k sent, drive (Cache.ensureSector s (resolve s.cfg blk.toNat).1) { s with busy := true } = .done u ∧
      Moved { s with busy := true } u sent ∧
      u.loaded = true ∧ u.sectorNumber.toNat = (resolve s.cfg blk.toNat).1 ∧ ChipReady u ∧
      u.chip.kind = s.chip.kind ∧ FlashWf u ∧ BufferFull u ∧
      u.choices = s.choices.drop k ∧ k ≤ pollsPerFlush s.cfg ∧
      (Coherent s → Coherent u ∧ ∀ b, b < blockCountOf s → logicalBlock u b = logicalBlock s b) := by
  by_cases hh : s.loaded = true ∧ s.sectorNumber.toNat = (resolve s.cfg blk.toNat).1
  · refine ⟨{ s with busy := true }, 0, [], ?_, Moved.refl _, hh.1, hh.2, sv.chip, rfl, sv.flash, sv.buffer, rfl,
      Nat.zero_le _, fun hc => ⟨hc, fun _ _ => rfl⟩⟩
    unfold Cache.ensureSector; rw [if_pos ((hit_iff (resolve_lt blk)).2 hh)]; rfl
  · by_cases hdi : s.dirty = true
    · have hn : s.sectorNumber.toNat ≠ (resolve s.cfg blk.toNat).1 := fun e => hh ⟨sv.flags hdi, e⟩
      obtain ⟨u, d, m, l, di, se, h, k, w, c, bu, fl⟩ := drive_ensure_dirty sv hr hdi hn hv
      have cf : u.cfg = s.cfg := m.cfg
      have bfull : BufferFull u := by rw [BufferFull, bu, cf]; simp
      refine ⟨u, _, _, d, m, l, se, h, k, w, bfull, c, le_refl _, fun hc => ⟨?_, fun b hb => ?_⟩⟩
      · intro _ _ i hi
        rw [cf] at hi ⊢
        rw [bu, getElem?_flashBytes hi, se]
        show _ = some (flash u (sectorBase s.cfg _ + i))
        rw [fl, if_neg (disjoint_sectors hn hi)]
      · have hfit := resolve_fits sv.calm.2.2.2 b
        have hadd := resolve_address sv.calm.2.2.2 b
        unfold logicalBlock
        rw [cf, se]
        by_cases hb1 : (resolve s.cfg blk.toNat).1 = (resolve s.cfg b).1
        · rw [if_pos ⟨l, hb1⟩, if_neg (fun e => hn (e.2.trans hb1.symm)), bu, hb1, slice_block sv.calm.2.2.2]
        · rw [if_neg (fun e => hb1 e.2)]
          by_cases hb2 : s.sectorNumber.toNat = (resolve s.cfg b).1
          · rw [if_pos ⟨sv.flags hdi, hb2⟩]
            symm
            refine eq_flashBytes (length_slice (by rw [sv.buffer]; exact hfit)) fun i hi => ?_
            have hblen := sv.buffer
            unfold BufferFull at hblen
            rw [getElem?_slice hi, fl, hb2, ← hadd]
            unfold sectorBase
            rw [if_pos ⟨by omega, by omega⟩, List.getD_eq_getElem?_getD]
            rw [show (resolve s.cfg b).1 * s.cfg.sectorSize + (resolve s.cfg b).2 + i
              - (resolve s.cfg b).1 * s.cfg.sectorSize = (resolve s.cfg b).2 + i by omega,
              List.getElem?_eq_getElem (by omega)]
            rfl
          · rw [if_neg (fun e => hb2 e.2)]
            refine flashBytes_congr fun i hi => ?_
            rw [fl, if_neg]
            have := disjoint_sectors (c := s.cfg) (i := (resolve s.cfg b).2 + i) hb2 (by omega)
            unfold sectorBase at this ⊢
            rw [← hadd]; omega
    · have hdi : s.dirty = false := by simpa using hdi
      obtain ⟨u, d, m, l, di, se, ch, c, bu⟩ := drive_ensure_clean sv hr hdi hh
      have cf : u.cfg = s.cfg := m.cfg
      have fl : ∀ x, flash u x = flash s x := fun x => by unfold flash; rw [ch.mem, cf]
      have bfull : BufferFull u := by rw [BufferFull, bu, cf]; simp
      refine ⟨u, 0, _, d, m, l, se, ch.ready sv.chip, ch.kind, by unfold FlashWf; rw [ch.mem, cf]; exact sv.flash,
        bfull, c, Nat.zero_le _, fun hc => ⟨?_, fun b hb => ?_⟩⟩
      · intro _ _ i hi
        rw [cf] at hi ⊢
        rw [bu, getElem?_flashBytes hi, se, fl]; rfl
      · have hfit := resolve_fits sv.calm.2.2.2 b
        have hadd := resolve_address sv.calm.2.2.2 b
        unfold logicalBlock
        rw [cf, se]
        have hfb : flashBytes u (b * s.cfg.blockSize) s.cfg.blockSize =
            flashBytes s (b * s.cfg.blockSize) s.cfg.blockSize := flashBytes_congr fun i _ => fl _
        by_cases hb1 : (resolve s.cfg blk.toNat).1 = (resolve s.cfg b).1
        · rw [if_pos ⟨l, hb1⟩, if_neg (fun e => hh ⟨e.1, e.2.trans hb1.symm⟩), bu, hb1, slice_block sv.calm.2.2.2]
        · rw [if_neg (fun e => hb1 e.2), hfb]
          split
          next hb2 =>
            symm
            refine eq_flashBytes (length_slice (by rw [sv.buffer]; exact hfit)) fun i hi => ?_
            rw [getElem?_slice hi, hc hb2.1 hdi _ (by omega), hb2.2, ← hadd, Nat.add_assoc]
          · rfl

/-- A served operation leaves the block serving. -/
theorem Serving.of_served {s t : State} (sv : Serving s) (f : ServedFrame s t) (h : ChipReady t) (w : FlashWf t)
    (b : BufferFull t) (d : DirtyLoaded t)
    (hs : t.loaded = true → sectorBase s.cfg t.sectorNumber.toNat < flashSize s) : Serving t where
  calm := ⟨f.seq, f.cs.trans sv.calm.2.1, (quiet_congr f.inbox).trans sv.calm.2.2.1, f.cfg ▸ sv.calm.2.2.2⟩
  chip := h
  initialized := f.identity.4.trans sv.initialized
  record := by unfold RecordOk; rw [f.cfg, f.identity.1, f.identity.2, f.identity.3]; exact sv.record
  size := by unfold flashSize; rw [f.kind, f.identity.2]; exact sv.size
  free := f.busy
  buffer := b
  flags := d
  flash := w
  sector := by unfold flashSize; rw [f.cfg, f.kind]; exact hs

theorem ServedFrame.blockCount {s t : State} (f : ServedFrame s t) : blockCountOf t = blockCountOf s := by
  unfold blockCountOf; rw [f.identity.3]

theorem Serving.sector_lt {s : State} (sv : Serving s) {blk : Word32} (hr : blk.toNat < blockCountOf s) :
    sectorBase s.cfg (resolve s.cfg blk.toNat).1 < flashSize s := by
  have := sv.block_fits hr; have := sectorSize_pos sv.calm.2.2.2; omega

/-- The answers left after an operation that used `k` of them. -/
theorem ReadyFor.drop {s t : State} {m k n : Nat} (c : t.choices = s.choices.drop k) (hk : k ≤ m)
    (h : ReadyFor (m + n) s) : ReadyFor n t := by
  refine ⟨by rw [c, List.length_drop]; have := h.1; omega, fun v hv => h.2 v ?_⟩
  rw [c] at hv
  have h1 : v ∈ (s.choices.take (k + n)) := by rw [List.take_add]; exact List.mem_append_right _ hv
  exact (List.take_subset_take_left _ (by omega)) h1

/-! ### Polls and runs of steps (R140) -/

/-- A poll that reads ready ends the busy-wait. -/
theorem drive_poll_ready {s : State} (f : Free s) (h : s.chip.kind ≠ .absent)
    (hv : statusBusy (nextAnswer s) = false) (n : Nat) (rest : List Micro) :
    ∃ s', drive (Driver.poll s.cfg n ++ rest) s = drive rest s' ∧ Did s s' [s.cfg.opRdsr1 :: dummies s.cfg 1] ∧
      s'.choices = s.choices.tail ∧ s'.chip = { s.chip with busy := .ready, txn := none } := by
  obtain ⟨s', h1, h2, h3, h4, h5⟩ := ran_rdsr1 f h
  refine ⟨s', ?_, h1.did, h3, by rw [h5, busyAfterRead, if_neg (by simp [hv])]⟩
  unfold Driver.poll
  rw [List.append_assoc, h1.then, List.singleton_append, drive_go (h1.did.quiet f.quiet) (s' := s')]
  simp [perform, waitTest, polledStatus, h2, statusBusy_statusByte, hv]

/-- A step of a running operation when no input is presented. -/
theorem step_run {s : State} {op : Op} {rest : List Micro} (hc : cacheState s ≠ none) (q : quiet s = true)
    (h : s.seq = .run op rest) : step s = settle op (drive rest s) := by
  have hp : presented s = none := by
    unfold presented
    unfold quiet at q
    split at q
    · cases q
    next h1 =>
      split
      next h2 => exact absurd h2 (by intro e; exact h1 _ _ _ e)
      next h2 => rw [if_neg (by rw [h]; simp)]
      · rfl
  unfold step
  rw [if_neg hc, hp]
  simp [resume, h, start]

theorem run_succ (k : Nat) (s : State) : Host.Core.run core (k + 1) s = match step s with
    | .next s' => Host.Core.run core k s'
    | .fault r => .fault r
    | .refused r => .refused r := by
  rcases hs : step s with s' | r | r
  all_goals
    have h : core.step s = _ := hs
    simp only [Host.Core.run, h]

/-- One step more. -/
theorem run_snoc {k : Nat} {s t : State} (h : Host.Core.run core k s = .next t) :
    Host.Core.run core (k + 1) s = step t := by
  induction k generalizing s with
  | zero =>
    cases h
    rw [run_succ]
    cases step t <;> rfl
  | succ k ih =>
    rw [run_succ] at h ⊢
    rcases hs : step s with s' | r | r <;> rw [hs] at h
    · exact ih h
    · cases h
    · cases h

end Sys2Proof.Machine
end

