-- ==== Sys2Proof/Laws/Step.lean ====
section
/-! SUPPORT. What a step can do: the inversion of `perform`, `drive`, `exec`, `callPrimitive` and `step`, and the one
induction every invariant of the machine goes through. -/

namespace Sys2Proof.Machine

/-! ### One micro-operation -/

/-- A poll that reads busy leaves the state alone and asks for another poll. -/
theorem perform_again {m : Micro} {s s' : State} {more : List Micro} (h : perform m s = .again more s') :
    ∃ n, m = .untilReady n ∧ more = Driver.poll s.cfg (n + 1) ∧ s' = s := by
  cases m <;> simp only [perform] at h <;> try (unfold onBus at h; split at h <;> simp at h)
  all_goals try cases h
  next n =>
    unfold waitTest at h
    split at h
    · cases h
    · split at h
      · cases h; exact ⟨n, rfl, rfl, rfl⟩
      · split at h
        · cases h
        · cases h; exact ⟨n, rfl, rfl, rfl⟩

/-- Only a busy-wait is given up, and it leaves the state alone. -/
theorem perform_giveUp {m : Micro} {s s' : State} (h : perform m s = .giveUp s') :
    ∃ n, m = .untilReady n ∧ s' = s := by
  cases m <;> simp only [perform] at h <;> try (unfold onBus at h; split at h <;> simp at h)
  all_goals try cases h
  next n =>
    unfold waitTest at h
    split at h
    · cases h
    · split at h
      · cases h
      · split at h
        · cases h; exact ⟨n, rfl, rfl⟩
        · cases h

/-! ### A run -/

/-- A property of what is left to do and the state, kept by every micro-operation, holds wherever a run ends. -/
theorem drive_invariant {I : List Micro → State → Prop}
    (hgo : ∀ m rest s s', I (m :: rest) s → perform m (tick s) = .go s' → I rest s')
    (hagain : ∀ n rest s, I (.untilReady n :: rest) s → I (Driver.poll s.cfg (n + 1) ++ rest) (tick s))
    (hgive : ∀ n rest s, I (.untilReady n :: rest) s → I [] (tick s))
    {prog : List Micro} {s : State} (h : I prog s) :
    match drive prog s with
    | .done s' => I [] s'
    | .paused rest s' => I rest s'
    | .gaveUp s' => I [] s'
    | .stopped _ => True := by
  induction prog generalizing s with
  | nil => exact h
  | cons m rest ih =>
    rw [drive]
    by_cases hi : interrupted s
    · rw [if_pos hi]; exact h
    · rw [if_neg hi]
      rcases hp : perform m (tick s) with s' | ⟨more, s'⟩ | s' | e
      · exact ih (hgo m rest s s' h hp)
      · obtain ⟨n, rfl, rfl, rfl⟩ := perform_again hp
        simpa using hagain n rest s h
      · obtain ⟨n, rfl, rfl⟩ := perform_giveUp hp
        exact hgive n rest s h
      · trivial

/-! ### The operations an instruction or a call starts -/

/-- The operations that can start in a state, with the micro-operations they unfold to. -/
inductive Started (s : State) : Op → List Micro → Prop where
  | init : s.initialized = false → s.busy = false → Started s .init (initBody s.cfg)
  | readBlock (blk : Word32) : s.initialized = true → s.busy = false →
      Started s (.readBlock (resolve s.cfg blk.toNat).2) (Cache.ensureSector s (resolve s.cfg blk.toNat).1)
  | writeBlock (blk : Word32) (data : List Byte) : s.initialized = true → s.busy = false →
      data.length = s.cfg.blockSize → Started s .writeBlock (writeBody s blk.toNat data)
  | flush : s.initialized = true → s.busy = false → Started s .flush (Cache.flushCache s)
  | reformat : s.initialized = true → s.busy = false →
      Started s .reformat (Driver.eraseChip s.cfg ++ [.invalidate])
  | wren (r : Returns) : Started s (.direct r) (Driver.wren s.cfg)
  | pp (r : Returns) (a : Addr) (d : List Byte) : Started s (.direct r) (Driver.pp s.cfg a d)
  | read (r : Returns) (a : Addr) (n : Nat) : Started s (.direct r) (Driver.read s.cfg a n)
  | rdsr1 (r : Returns) : Started s (.direct r) (Driver.rdsr1 s.cfg)
  | se4k (r : Returns) (a : Addr) : Started s (.direct r) (Driver.se4k s.cfg a)
  | be32k (r : Returns) (a : Addr) : Started s (.direct r) (Driver.be32k s.cfg a)
  | be64k (r : Returns) (a : Addr) : Started s (.direct r) (Driver.be64k s.cfg a)
  | ce (r : Returns) : Started s (.direct r) (Driver.ce s.cfg)
  | rdid (r : Returns) : Started s (.direct r) (Driver.rdid s.cfg)
  | rduid (r : Returns) : Started s (.direct r) (Driver.rduid s.cfg)
  | waitReady (r : Returns) : Started s (.direct r) (Driver.waitReady s.cfg)
  | programPage (r : Returns) (a : Addr) (d : List Byte) : Started s (.direct r) (Driver.programPage s.cfg a d)
  | eraseSector (r : Returns) (a : Addr) (g : Nat) : Started s (.direct r) (Driver.eraseSector s.cfg a g)
  | eraseChip (r : Returns) : Started s (.direct r) (Driver.eraseChip s.cfg)

/-- The state an operation starts in: a read or write takes the guard (R165). -/
def taken (op : Op) (s : State) : State := if op.holdsBusy then { s with busy := true } else s

/-- Every next state of an instruction or a call: a response given at once, or an operation started while the sequencer
was idle. -/
inductive Advance (s : State) : State → Prop where
  | answer (st : Option (BitVec 1)) (v : Option Word32) (d : Option (List Byte)) : Advance s (respond st v d s)
  | start {op : Op} {prog : List Micro} {t : State} :
      s.seq = .idle → Started s op prog → start op prog (taken op s) = .next t → Advance s t

variable {s t : State}

/-- Not occupied and not busy is idle. -/
theorem idle_of_free (ho : occupied s = false) (hb : s.busy = false) : s.seq = .idle := by
  unfold occupied at ho
  split at ho
  · assumption
  · simp [hb] at ho

theorem admitted_next {k : Host.Outcome State Fault Refusal} (h : admitted s k = .next t) :
    occupied s = false ∧ s.initialized = true ∧ k = .next t := by
  unfold admitted at h
  split at h
  · cases h
  · split at h
    · cases h
    · exact ⟨by simpa using ‹¬ occupied s = true›, by simpa using ‹¬¬ s.initialized = true›, h⟩

theorem inRange_next {blk : Word32} {k : Host.Outcome State Fault Refusal} (h : inRange blk s k = .next t) :
    blk.toNat < blockCountOf s ∧ k = .next t := by
  unfold inRange at h
  split at h
  · cases h
  · exact ⟨by omega, h⟩

theorem direct_next {r : Returns} {prog : List Micro} (h : direct r prog s = .next t)
    (hs : Started s (.direct r) prog) : Advance s t := by
  unfold direct at h
  split at h
  · exact .start ‹_› hs h
  · cases h

/-- What an instruction can lead to. -/
theorem exec_next {i : Instr} (h : exec i s = .next t) : Advance s t := by
  cases i <;> simp only [exec] at h
  case wren => exact direct_next h (.wren _)
  case pp a d =>
    unfold execPp at h
    split at h
    · cases h
    · split at h
      · cases h
      · exact direct_next h (.pp _ a d)
  case read a n => exact direct_next h (.read _ a n)
  case rdsr1 => exact direct_next h (.rdsr1 _)
  case se4k a =>
    unfold execSe4k at h; split at h
    · cases h
    · exact direct_next h (.se4k _ a)
  case be32k a =>
    unfold execBe32k at h; split at h
    · cases h
    · exact direct_next h (.be32k _ a)
  case be64k a =>
    unfold execBe64k at h; split at h
    · cases h
    · exact direct_next h (.be64k _ a)
  case ce => exact direct_next h (.ce _)
  case rdid => exact direct_next h (.rdid _)
  case rduid => exact direct_next h (.rduid _)
  case init =>
    unfold execInit at h
    split at h
    · cases h
    · split at h
      · cases h
      · split at h
        · cases h
        next h1 h2 h3 =>
          have hb : s.busy = false := by simpa using h3
          exact .start (idle_of_free (by simpa using h1) hb) (.init (by simpa using h2) hb) h
  case readBlock blk =>
    unfold execReadBlock at h
    obtain ⟨ho, hi, h⟩ := admitted_next h
    obtain ⟨-, h⟩ := inRange_next h
    split at h
    · cases h; exact .answer _ _ _
    next hb =>
      have hb : s.busy = false := by simpa using hb
      exact .start (idle_of_free ho hb) (.readBlock blk hi hb) h
  case writeBlock blk data =>
    unfold execWriteBlock at h
    obtain ⟨ho, hi, h⟩ := admitted_next h
    obtain ⟨-, h⟩ := inRange_next h
    split at h
    · cases h
    next hl =>
      split at h
      · cases h; exact .answer _ _ _
      next hb =>
        have hb : s.busy = false := by simpa using hb
        exact .start (idle_of_free ho hb) (.writeBlock blk data hi hb (by simpa using hl)) h
  case flush =>
    unfold execFlush at h
    obtain ⟨ho, hi, h⟩ := admitted_next h
    split at h
    · cases h; exact .answer _ _ _
    next hb =>
      have hb : s.busy = false := by simpa using hb
      exact .start (idle_of_free ho hb) (.flush hi hb) h
  case reformat =>
    unfold execReformat at h
    obtain ⟨ho, hi, h⟩ := admitted_next h
    split at h
    · cases h
    next hb =>
      have hb : s.busy = false := by simpa using hb
      exact .start (idle_of_free ho hb) (.reformat hi hb) h
  case blockCount => unfold execBlockCount answerSized answerQuery at h; cases h; exact .answer _ _ _
  case totalSize => unfold execTotalSize answerSized answerQuery at h; cases h; exact .answer _ _ _
  case blockSize => unfold execBlockSize answerQuery at h; cases h; exact .answer _ _ _
  case supportsDma => unfold execSupportsDma answerQuery at h; cases h; exact .answer _ _ _
  case isBusy => unfold execIsBusy answerQuery at h; cases h; exact .answer _ _ _
  all_goals cases h

/-- What a call of a primitive can lead to. -/
theorem callPrimitive_next {p : Primitive} (h : callPrimitive p s = .next t) : Advance s t := by
  cases p <;> simp only [callPrimitive] at h
  case waitReady => exact direct_next h (.waitReady _)
  case detect => exact direct_next h (.rdid _)
  case isPresent => exact direct_next h (.rdid _)
  case capacity => exact direct_next h (.rdid _)
  case readBytes a n => exact direct_next h (.read _ a n)
  case programPage a d =>
    split at h
    · cases h
    · split at h
      · cases h
      · exact direct_next h (.programPage _ a d)
  case eraseSector a g =>
    split at h
    · cases h
    · split at h
      · cases h
      · exact direct_next h (.eraseSector _ a g)
  case eraseChip => exact direct_next h (.eraseChip _)
  case readUniqueId => exact direct_next h (.rduid _)

/-- The chip after a reset of the block, or after a loss of power. -/
def Uncut (s : State) (k : Chip) : Prop :=
  k = chipAfterCut s ∨ k = (chipAfterCut s).powerUp s.cfg (drawsAfterCut s)

/-- Every next state of a step. -/
inductive Stepped (s : State) : State → Prop where
  /-- an instruction or a call was taken -/
  | input {rest : List Arrival} {t : State} : Advance { s with inbox := rest } t → Stepped s t
  /-- the block was reset, or power was lost and returned -/
  | reset {rest : List Arrival} (k : Chip) (d : Nat) : Uncut s k →
      Stepped s (blockReset k d { s with inbox := rest })
  /-- nothing was presented to an idle block -/
  | idle : s.seq = .idle → Stepped s (tick s)
  /-- a running operation went on -/
  | resume {op : Op} {rest : List Micro} {t : State} :
      s.seq = .run op rest → start op rest s = .next t → Stepped s t

/-- What a step can lead to. -/
theorem step_next (h : step s = .next t) : cacheState s ≠ none ∧ Stepped s t := by
  unfold step at h
  split at h
  · cases h
  next hc =>
    refine ⟨hc, ?_⟩
    split at h
    next input rest hp =>
      cases input <;> simp only [accept] at h
      case frame f =>
        split at h
        · exact .input (exec_next h)
        · cases h
      case primitive p => exact .input (callPrimitive_next h)
      case reset => cases h; exact .reset _ _ (.inl rfl)
      case powerLoss => cases h; exact .reset _ _ (.inr rfl)
    next hp =>
      unfold resume at h
      split at h
      next hs => cases h; exact .idle hs
      next op rest hs => exact .resume hs h

/-- What a started or resumed operation leads to. -/
theorem start_next {op : Op} {prog : List Micro} (h : start op prog s = .next t) :
    (∃ u, drive prog s = .done u ∧ t = complete op u) ∨
    (∃ rest u, drive prog s = .paused rest u ∧ t = { u with seq := .run op rest }) ∨
    (∃ u, drive prog s = .gaveUp u ∧ t = abandon op u) := by
  unfold start settle at h
  split at h
  next u hd => cases h; exact .inl ⟨u, hd, rfl⟩
  next rest u hd => cases h; exact .inr (.inl ⟨rest, u, hd, rfl⟩)
  next u hd => cases h; exact .inr (.inr ⟨u, hd, rfl⟩)
  next e hd => cases h

/-! ### The one induction -/

/-- Two states hold the same parameters, cache contents, device record, chip-select line and chip. -/
structure SameCore (s t : State) : Prop where
  cfg : t.cfg = s.cfg
  loaded : t.loaded = s.loaded
  dirty : t.dirty = s.dirty
  sectorNumber : t.sectorNumber = s.sectorNumber
  buffer : t.buffer = s.buffer
  identity : SameIdentity s t
  cs : t.cs = s.cs
  chip : t.chip = s.chip

/-- A property of what is left to do and the state that everything the machine does keeps. -/
structure Kept (I : List Micro → State → Prop) : Prop where
  congr : ∀ l s t, SameCore s t → I l s → I l t
  go : ∀ m rest s s', I (m :: rest) s → perform m s = .go s' → I rest s'
  again : ∀ n rest s, I (.untilReady n :: rest) s → I (Driver.poll s.cfg (n + 1) ++ rest) s
  giveUp : ∀ n rest s, I (.untilReady n :: rest) s → I [] s
  start : ∀ op prog s, I [] s → Started s op prog → I prog s
  reset : ∀ l s k d, I l s → Uncut s k → I [] (blockReset k d s)

theorem sameCore_tick (s : State) : SameCore s (tick s) := by
  constructor <;> first | simp | (constructor <;> simp)

theorem sameCore_taken (op : Op) (s : State) : SameCore s (taken op s) := by
  unfold taken; split <;> exact ⟨rfl, rfl, rfl, rfl, rfl, ⟨rfl, rfl, rfl, rfl⟩, rfl, rfl⟩

theorem sameCore_complete (op : Op) (s : State) : SameCore s (complete op s) := by
  constructor <;> first | simp | (constructor <;> simp)

theorem sameCore_abandon (op : Op) (s : State) : SameCore s (abandon op s) := by
  constructor <;> first | simp | (constructor <;> simp)

theorem pending_of_run {op : Op} {rest : List Micro} (h : s.seq = .run op rest) : pending s = rest := by
  unfold pending; rw [h]

theorem pending_of_idle (h : s.seq = .idle) : pending s = [] := by
  unfold pending; rw [h]

/-- A kept property of a started or resumed operation holds in the state it leads to. -/
theorem Kept.started {I : List Micro → State → Prop} (k : Kept I) {op : Op} {prog : List Micro} (hi : I prog s)
    (h : Machine.start op prog s = .next t) : I (pending t) t := by
  have key := drive_invariant (I := I)
    (fun m rest s s' hm hp => k.go m rest (tick s) s' (k.congr _ _ _ (sameCore_tick s) hm) hp)
    (fun n rest s hm => by
      have := k.again n rest (tick s) (k.congr _ _ _ (sameCore_tick s) hm)
      simpa using this)
    (fun n rest s hm => k.giveUp n rest (tick s) (k.congr _ _ _ (sameCore_tick s) hm)) hi
  rcases start_next h with ⟨u, hd, rfl⟩ | ⟨rest, u, hd, rfl⟩ | ⟨u, hd, rfl⟩
  · rw [hd] at key
    rw [pending_of_idle (by simp)]
    exact k.congr _ _ _ (sameCore_complete op u) key
  · rw [hd] at key
    exact k.congr _ u _ ⟨rfl, rfl, rfl, rfl, rfl, ⟨rfl, rfl, rfl, rfl⟩, rfl, rfl⟩ key
  · rw [hd] at key
    rw [pending_of_idle (by simp)]
    exact k.congr _ _ _ (sameCore_abandon op u) key

/-- A kept property is an invariant of the step. -/
theorem Kept.step {I : List Micro → State → Prop} (k : Kept I) (hi : I (pending s) s)
    (h : Machine.step s = .next t) : I (pending t) t := by
  obtain ⟨-, h⟩ := step_next h
  have inbox : ∀ rest, SameCore s { s with inbox := rest } := fun rest =>
    ⟨rfl, rfl, rfl, rfl, rfl, ⟨rfl, rfl, rfl, rfl⟩, rfl, rfl⟩
  cases h with
  | input h =>
    rename_i rest
    have hi' : I (pending { s with inbox := rest }) { s with inbox := rest } := k.congr _ _ _ (inbox rest) hi
    cases h with
    | answer st v d =>
      exact k.congr _ { s with inbox := rest } _ ⟨rfl, rfl, rfl, rfl, rfl, ⟨rfl, rfl, rfl, rfl⟩, rfl, rfl⟩ hi'
    | start hs hstart h =>
      rw [pending_of_idle hs] at hi'
      exact k.started (k.congr _ _ _ (sameCore_taken _ _) (k.start _ _ _ hi' hstart)) h
  | reset kk d hk =>
    exact k.reset _ _ kk d (k.congr _ _ _ (inbox _) hi) hk
  | idle hs =>
    have : pending (tick s) = pending s := by unfold pending; simp
    rw [this]
    exact k.congr _ _ _ (sameCore_tick s) hi
  | resume hs h =>
    rw [pending_of_run hs] at hi
    exact k.started hi h

end Sys2Proof.Machine
end

