-- ==== Sys2Proof/Laws/Perform.lean ====
section
/-! SUPPORT. What one micro-operation can change: a bus action nothing but the chip, the driver's values and the chip-select
line; a state write its own register. -/

namespace Sys2Proof.Machine

/-! ### The chip -/

section Chip

variable {c : Config} {k k' : Chip} {d : Nat}

/-- A transfer changes nothing of the chip but the transaction it is receiving. -/
theorem take_chip {out : Byte} {a : Answer} (h : k.take c out = .ok (a, k')) :
    k'.kind = k.kind ∧ k'.mem = k.mem ∧ k'.busy = k.busy ∧ k'.wel = k.wel := by
  unfold Chip.take at h
  split at h
  · cases h; exact ⟨rfl, rfl, rfl, rfl⟩
  · split at h
    · split at h
      · cases h
      · split at h
        · cases h
        · cases h; exact ⟨rfl, rfl, rfl, rfl⟩
    · cases h; exact ⟨rfl, rfl, rfl, rfl⟩

theorem programmed_chip {a : Nat} {data : List Byte} : (k.programmed c a data d).kind = k.kind ∧
    (Memory.wf c.erasedByte k.mem → Memory.wf c.erasedByte (k.programmed c a data d).mem) := by
  unfold Chip.programmed
  split
  · exact ⟨rfl, Memory.wf_program⟩
  · refine ⟨rfl, fun h => ?_⟩
    dsimp only
    split
    · exact Memory.wf_spoil h
    · exact h

theorem erased_chip {a g : Nat} : (k.erased a g d).kind = k.kind ∧
    (Memory.wf c.erasedByte k.mem → Memory.wf c.erasedByte (k.erased a g d).mem) := by
  refine ⟨rfl, fun h => ?_⟩
  unfold Chip.erased
  dsimp only
  split
  · exact Memory.wf_erase h
  · exact h

theorem programNow_chip {a : Nat} {data : List Byte} (h : k.programNow c a data d = .ok k') :
    k'.kind = k.kind ∧ (Memory.wf c.erasedByte k.mem → Memory.wf c.erasedByte k'.mem) := by
  unfold Chip.programNow at h
  split_ifs at h
  cases h; exact programmed_chip

theorem eraseNow_chip {a g : Nat} (h : k.eraseNow a g d = .ok k') :
    k'.kind = k.kind ∧ (Memory.wf c.erasedByte k.mem → Memory.wf c.erasedByte k'.mem) := by
  unfold Chip.eraseNow at h
  split_ifs at h
  cases h; exact erased_chip

theorem eraseAllNow_chip (h : k.eraseAllNow = .ok k') :
    k'.kind = k.kind ∧ (Memory.wf c.erasedByte k.mem → Memory.wf c.erasedByte k'.mem) := by
  unfold Chip.eraseAllNow at h
  split_ifs at h
  cases h; exact ⟨rfl, fun _ => by simp [Memory.wf]⟩

/-- A chip reached from this one is of the same kind, with its content in the canonical form if this one's is. -/
def ChipKept (c : Config) (k : Chip) : Except Refusal Chip → Prop
  | .ok k' => k'.kind = k.kind ∧ (Memory.wf c.erasedByte k.mem → Memory.wf c.erasedByte k'.mem)
  | .error _ => True

theorem ChipKept.ite {p : Prop} [Decidable p] {a b : Except Refusal Chip} (ha : ChipKept c k a) (hb : ChipKept c k b) :
    ChipKept c k (if p then a else b) := by split <;> assumption

/-- A command that takes effect keeps the kind of chip, and its content in the canonical form. -/
theorem command_kept {t : Txn} : ChipKept c k (k.command c t d) := by
  have cut : ChipKept c k Chip.cutShort := trivial
  have same : ChipKept c k (.ok { k with txn := none }) := ⟨rfl, id⟩
  have wren : ChipKept c k (.ok { k with wel := true, txn := none }) := ⟨rfl, id⟩
  have of : ∀ {r : Except Refusal Chip}, (∀ k', r = .ok k' → k'.kind = k.kind ∧
      (Memory.wf c.erasedByte k.mem → Memory.wf c.erasedByte k'.mem)) → ChipKept c k r := fun {r} h => by
    cases r with
    | error e => trivial
    | ok k' => exact h k' rfl
  have prog : ChipKept c k (k.programNow c t.address t.data.reverse d) := of fun _ h => programNow_chip h
  have erase : ∀ g, ChipKept c k (k.eraseNow t.address g d) := fun g => of fun _ h => eraseNow_chip h
  have all : ChipKept c k k.eraseAllNow := of fun _ h => eraseAllNow_chip h
  unfold Chip.command
  exact .ite (.ite wren cut) (.ite (.ite prog cut) (.ite (.ite (erase _) cut) (.ite (.ite (erase _) cut)
    (.ite (.ite (erase _) cut) (.ite (.ite all cut) (.ite (.ite same cut) (.ite (.ite same cut)
      (.ite (.ite same cut) (.ite same cut)))))))))

/-- The end of a transaction keeps the kind of chip, and its content in the canonical form. -/
theorem release_chip (h : k.release c d = .ok k') :
    k'.kind = k.kind ∧ (Memory.wf c.erasedByte k.mem → Memory.wf c.erasedByte k'.mem) := by
  unfold Chip.release at h
  split at h
  · cases h; exact ⟨rfl, id⟩
  · split at h
    · cases h
    next t _ =>
      have := command_kept (c := c) (k := k) (t := t) (d := d)
      rw [h] at this; exact this

theorem programCut_chip {a : Nat} : (k.programCut c a d).kind = k.kind ∧
    (Memory.wf c.erasedByte k.mem → Memory.wf c.erasedByte (k.programCut c a d).mem) := by
  unfold Chip.programCut
  split
  · exact ⟨rfl, Memory.wf_spoil⟩
  · exact ⟨rfl, id⟩

/-- A cut keeps the kind of chip, and its content in the canonical form. -/
theorem cut_chip : (k.cut c d).kind = k.kind ∧
    (Memory.wf c.erasedByte k.mem → Memory.wf c.erasedByte (k.cut c d).mem) := by
  unfold Chip.cut
  split
  · exact ⟨rfl, id⟩
  · split
    · exact ⟨rfl, id⟩
    next t _ =>
      split
      · split
        · exact programCut_chip
        · exact ⟨rfl, id⟩
      · have kept := command_kept (c := c) (k := k) (t := t) (d := d)
        split
        next k' hk =>
          rw [hk] at kept
          split
          · exact kept
          · exact ⟨rfl, id⟩
        · exact ⟨rfl, id⟩

/-- The return of power keeps the kind of chip, and its content in the canonical form. -/
theorem powerUp_chip : (k.powerUp c d).kind = k.kind ∧
    (Memory.wf c.erasedByte k.mem → Memory.wf c.erasedByte (k.powerUp c d).mem) := by
  unfold Chip.powerUp
  split
  · exact ⟨rfl, id⟩
  · refine ⟨rfl, fun h => ?_⟩
    dsimp only
    split
    · exact Memory.wf_spoil h
    · exact h

/-- What is left of the chip by a reset or a loss of power keeps its kind, and its content in the canonical form. -/
theorem chipAfterCut_chip (s : State) : (chipAfterCut s).kind = s.chip.kind ∧
    (FlashWf s → Memory.wf s.cfg.erasedByte (chipAfterCut s).mem) := by
  unfold chipAfterCut
  split
  · exact cut_chip
  · exact ⟨rfl, id⟩

end Chip

/-! ### Bus actions -/

/-- What a bus action leaves alone. -/
structure BusFrame (s s' : State) : Prop where
  cfg : s'.cfg = s.cfg
  cache : SameCache s s'
  identity : SameIdentity s s'
  seq : s'.seq = s.seq
  host : SameHostSide s s'
  result : s'.result = s.result
  kind : s'.chip.kind = s.chip.kind
  wf : FlashWf s → FlashWf s'

/-- The micro-operations of the chip protocol driver. -/
def isDriver : Micro → Bool
  | .sel => true
  | .des => true
  | .send _ => true
  | .recv => true
  | .untilReady _ => true
  | .refuse _ => true
  | _ => false

variable {s s' : State} {m : Micro}

theorem onBus_go {r : Except Refusal State} (h : onBus r = .go s') : r = .ok s' := by
  cases r <;> simp_all [onBus]

theorem busSelect_ok (h : busSelect s = .ok s') :
    s.cs = false ∧ s' = { s with
      cs := true, rx := [], chip := { s.chip with txn := none }, history := .sel :: s.history } := by
  unfold busSelect at h
  split at h
  · cases h
  · cases h; exact ⟨by simpa using ‹¬ s.cs = true›, rfl⟩

theorem busDeselect_ok (h : busDeselect s = .ok s') :
    s.cs = true ∧ ∃ k, s.chip.release s.cfg s.draws = .ok k ∧ s' = { s with
      cs := false, chip := k, draws := s.draws + s.cfg.pageSize, history := .des :: s.history } := by
  unfold busDeselect at h
  split at h
  · cases h
  · split at h
    · cases h
    · cases h; exact ⟨by simpa using ‹¬¬ s.cs = true›, _, by assumption, rfl⟩

/-- A transfer adds one event and keeps one byte or none; of the rest it changes the transaction the chip receives, the
chip's busy condition and the answers still to come. -/
theorem busXfer_ok {kept : Bool} {out : Byte} (h : busXfer kept out s = .ok s') :
    s.cs = true ∧ ∃ v k ch ak dr, k.kind = s.chip.kind ∧ k.mem = s.chip.mem ∧ k.wel = s.chip.wel ∧
      s' = { s with
        chip := k, choices := ch, asked := ak, draws := dr
        rx := if kept then s.rx ++ [v] else s.rx, history := .x out v :: s.history } := by
  unfold busXfer at h
  split at h
  · cases h
  · refine ⟨by simpa using ‹¬¬ s.cs = true›, ?_⟩
    obtain ⟨b, ch, ak, hb⟩ := busyAtOpcode_eq out s
    rw [hb] at h
    unfold transfer at h
    split at h
    · cases h
    next a k hk =>
      obtain ⟨h1, h2, h3, h4⟩ := take_chip hk
      cases a <;> simp only [answerByte, readStatus, drawByte, answered] at h
      · cases kept <;> simp only [Bool.false_eq_true, if_false, if_true] at h <;> cases h
        · exact ⟨_, k, _, _, _, h1, h2, h4, rfl⟩
        · exact ⟨_, k, _, _, _, h1, h2, h4, rfl⟩
      · cases h
        let v := ch.headD (Config.freeAnswer ak)
        exact ⟨statusByte k.busy v, { k with busy := busyAfterRead k.busy v }, _, _, _, h1, h2, h4, rfl⟩
      next b =>
        cases h
        exact ⟨b, k, _, _, _, h1, h2, h4, rfl⟩

/-- A bus action that goes on leaves the block alone but for the chip-select line. -/
theorem perform_driver (hm : isDriver m = true) (h : perform m s = .go s') : BusFrame s s' := by
  cases m <;> simp only [isDriver, Bool.false_eq_true] at hm <;> simp only [perform] at h
  case sel =>
    obtain ⟨-, rfl⟩ := busSelect_ok (onBus_go h)
    exact ⟨rfl, ⟨rfl, rfl, rfl, rfl, rfl⟩, ⟨rfl, rfl, rfl, rfl⟩, rfl, ⟨rfl, rfl⟩, rfl, rfl, id⟩
  case des =>
    obtain ⟨-, k, hk, rfl⟩ := busDeselect_ok (onBus_go h)
    obtain ⟨h1, h2⟩ := release_chip hk
    exact ⟨rfl, ⟨rfl, rfl, rfl, rfl, rfl⟩, ⟨rfl, rfl, rfl, rfl⟩, rfl, ⟨rfl, rfl⟩, rfl, h1, h2⟩
  case send =>
    obtain ⟨-, v, k, ch, ak, dr, h1, h2, -, rfl⟩ := busXfer_ok (onBus_go h)
    exact ⟨rfl, ⟨rfl, rfl, rfl, rfl, rfl⟩, ⟨rfl, rfl, rfl, rfl⟩, rfl, ⟨rfl, rfl⟩, rfl, h1, fun hw => by
      show Memory.wf _ k.mem; rw [h2]; exact hw⟩
  case recv =>
    obtain ⟨-, v, k, ch, ak, dr, h1, h2, -, rfl⟩ := busXfer_ok (onBus_go h)
    exact ⟨rfl, ⟨rfl, rfl, rfl, rfl, rfl⟩, ⟨rfl, rfl, rfl, rfl⟩, rfl, ⟨rfl, rfl⟩, rfl, h1, fun hw => by
      show Memory.wf _ k.mem; rw [h2]; exact hw⟩
  case untilReady =>
    unfold waitTest at h
    split at h
    · cases h
      exact ⟨rfl, ⟨rfl, rfl, rfl, rfl, rfl⟩, ⟨rfl, rfl, rfl, rfl⟩, rfl, ⟨rfl, rfl⟩, rfl, rfl, id⟩
    · split at h
      · cases h
      · split at h <;> cases h
  case refuse => cases h

/-- Nothing one micro-operation does changes the parameters, the reentrancy flag, the sequencer's position, the host's
side, or the buffer's size. -/
theorem perform_frame (h : perform m s = .go s') :
    s'.cfg = s.cfg ∧ s'.busy = s.busy ∧ s'.seq = s.seq ∧ SameHostSide s s' ∧ s'.buffer.length = s.buffer.length ∧
      s'.chip.kind = s.chip.kind ∧ (FlashWf s → FlashWf s') := by
  by_cases hm : isDriver m = true
  · have hf := perform_driver hm h
    exact ⟨hf.cfg, hf.cache.busy, hf.seq, hf.host, by rw [hf.cache.buffer], hf.kind, hf.wf⟩
  · cases m <;> simp only [isDriver, not_true_eq_false] at hm <;> simp only [perform] at h <;> cases h
    all_goals first
      | exact ⟨rfl, rfl, rfl, ⟨rfl, rfl⟩, rfl, rfl, id⟩
      | exact ⟨rfl, rfl, rfl, ⟨rfl, rfl⟩, by simp [splice]; omega, rfl, id⟩
      | exact ⟨by simp, by simp, by simp, ⟨by simp, by simp⟩, by simp, by simp, by simp [FlashWf]⟩

/-! ### Programs of the driver -/

/-- A program of the driver: bus actions only, legal from a released bus, which it leaves released. -/
structure DriverProg (prog : List Micro) : Prop where
  driver : ∀ m ∈ prog, isDriver m = true
  bus : ∀ rest, busKept false rest → busKept false (prog ++ rest)

theorem DriverProg.append {p q : List Micro} (hp : DriverProg p) (hq : DriverProg q) : DriverProg (p ++ q) :=
  ⟨fun m hm => (List.mem_append.1 hm).elim (hp.driver m) (hq.driver m), fun rest hr => by
    rw [List.append_assoc]; exact hp.bus _ (hq.bus _ hr)⟩

theorem DriverProg.nil : DriverProg [] := ⟨fun _ h => by simp at h, fun _ h => h⟩

theorem DriverProg.flatMap {l : List Nat} {f : Nat → List Micro} (h : ∀ p, DriverProg (f p)) :
    DriverProg (l.flatMap f) := by
  induction l with
  | nil => exact .nil
  | cons x l ih => rw [List.flatMap_cons]; exact (h x).append ih

theorem driverProg_transaction (sent : List Byte) (kept : Nat) : DriverProg (Driver.transaction sent kept) := by
  constructor
  · intro m hm
    simp only [Driver.transaction, List.mem_cons, List.mem_append, List.mem_map, List.mem_replicate,
      List.not_mem_nil, or_false] at hm
    rcases hm with rfl | ⟨b, -, rfl⟩ | ⟨-, rfl⟩ | rfl <;> rfl
  · intro rest hr
    unfold Driver.transaction
    refine ⟨rfl, ?_⟩
    have hrecv : ∀ n, busKept true (List.replicate n Micro.recv ++ (Micro.des :: rest)) := by
      intro n
      induction n with
      | zero => exact ⟨rfl, hr⟩
      | succ n ih => exact ⟨rfl, ih⟩
    show busKept true (_ ++ rest)
    rw [List.append_assoc, List.append_assoc]
    induction sent with
    | nil => exact hrecv kept
    | cons b sent ih => exact ⟨rfl, ih⟩

theorem driverProg_poll (c : Config) (n : Nat) : DriverProg (Driver.poll c n) :=
  (driverProg_transaction _ _).append ⟨fun m hm => by simp at hm; subst hm; rfl, fun _ h => ⟨rfl, h⟩⟩

theorem driverProg_eraseCommand (c : Config) (a : Addr) (g : Nat) : DriverProg (Driver.eraseCommand c a g) := by
  unfold Driver.eraseCommand
  split
  · exact driverProg_transaction _ _
  · split
    · exact driverProg_transaction _ _
    · split
      · exact driverProg_transaction _ _
      · exact ⟨fun m hm => by simp at hm; subst hm; rfl, fun _ h => ⟨by simp, h⟩⟩

theorem driverProg_programPage (c : Config) (a : Addr) (d : List Byte) : DriverProg (Driver.programPage c a d) :=
  ((driverProg_transaction _ _).append (driverProg_transaction _ _)).append (driverProg_poll c 0)

theorem driverProg_eraseSector (c : Config) (a : Addr) (g : Nat) : DriverProg (Driver.eraseSector c a g) :=
  ((driverProg_transaction _ _).append (driverProg_eraseCommand c a g)).append (driverProg_poll c 0)

theorem driverProg_eraseChip (c : Config) : DriverProg (Driver.eraseChip c) :=
  ((driverProg_transaction _ _).append (driverProg_transaction _ _)).append (driverProg_poll c 0)

/-- What a directly called wire command or primitive starts is a program of the driver (R150). -/
theorem Started.driverProg {r : Returns} {prog : List Micro} (h : Started s (.direct r) prog) : DriverProg prog := by
  cases h
  case waitReady => exact driverProg_poll _ 0
  case programPage => exact driverProg_programPage _ _ _
  case eraseSector => exact driverProg_eraseSector _ _ _
  case eraseChip => exact driverProg_eraseChip _
  all_goals exact driverProg_transaction _ _

/-- A run of a program of the driver, and a later part of it, leaves alone all that R150 names. -/
theorem drive_driver {prog : List Micro} (hp : ∀ m ∈ prog, isDriver m = true) :
    match drive prog s with
    | .done t => SameCache s t ∧ SameIdentity s t
    | .paused _ t => SameCache s t ∧ SameIdentity s t
    | .gaveUp t => SameCache s t ∧ SameIdentity s t
    | .stopped _ => True := by
  have ticked : ∀ u, SameCache u (tick u) ∧ SameIdentity u (tick u) := fun u => by
    constructor <;> constructor <;> simp
  have trans : ∀ {a b c : State}, SameCache a b ∧ SameIdentity a b → SameCache b c ∧ SameIdentity b c →
      SameCache a c ∧ SameIdentity a c := fun ⟨⟨a1, a2, a3, a4, a5⟩, ⟨b1, b2, b3, b4⟩⟩ ⟨⟨c1, c2, c3, c4, c5⟩, ⟨d1, d2, d3, d4⟩⟩ =>
    ⟨⟨c1.trans a1, c2.trans a2, c3.trans a3, c4.trans a4, c5.trans a5⟩,
      ⟨d1.trans b1, d2.trans b2, d3.trans b3, d4.trans b4⟩⟩
  have key := drive_invariant (s := s) (prog := prog)
    (I := fun l t => (∀ m ∈ l, isDriver m = true) ∧ SameCache s t ∧ SameIdentity s t)
    (fun m rest u u' hm h => ⟨fun x hx => hm.1 x (List.mem_cons_of_mem _ hx),
      trans (trans hm.2 (ticked u)) (by
        have := perform_driver (hm.1 m (by simp)) h
        exact ⟨this.cache, this.identity⟩)⟩)
    (fun n rest u hm => ⟨fun x hx => (List.mem_append.1 hx).elim ((driverProg_poll _ _).driver x)
      (fun h => hm.1 x (List.mem_cons_of_mem _ h)), trans hm.2 (ticked u)⟩)
    (fun n rest u hm => ⟨by simp, trans hm.2 (ticked u)⟩)
    ⟨hp, ⟨⟨rfl, rfl, rfl, rfl, rfl⟩, ⟨rfl, rfl, rfl, rfl⟩⟩⟩
  revert key
  cases drive prog s with
  | done t => exact fun h => h.2
  | paused l t => exact fun h => h.2
  | gaveUp t => exact fun h => h.2
  | stopped e => exact fun h => h

end Sys2Proof.Machine
end

