-- ==== Sys2Proof/Laws/Direct.lean ====
section
/-! SUPPORT. Wire commands called directly: from a run to the instruction's next state, a transaction with any chip, a READ
anywhere, and the transactions a chip stops. -/

namespace Sys2Proof.Machine

variable {s s' : State}

/-! ### From a run to an instruction -/

/-- The state after a direct call whose run ended here. -/
def returnedState (r : Returns) (s : State) : State := { s with result := returned s r }

/-- A run of a direct call is its next state, with the value it returns. -/
theorem direct_of_ran {r : Returns} {prog : List Micro} {sent : List (List Byte)} (hs : s.seq = .idle)
    (h : Ran prog s s' sent) : direct r prog s = .next (returnedState r s') := by
  have hi : s'.seq = .idle := h.did.block.seq.trans hs
  unfold direct start
  rw [if_pos hs, h.run]
  simp only [settle, complete, returnedState]
  rw [← hi]

theorem wireDone_of_ran {i : Instr} {r : Returns} {prog : List Micro}
    (h : Ran prog s s' [wireBytes s.cfg i]) : WireDone i s (returnedState r s') where
  block := ⟨h.did.block.cfg, ⟨h.did.block.cache.1, h.did.block.cache.2, h.did.block.cache.3, h.did.block.cache.4,
    h.did.block.cache.5⟩, ⟨h.did.block.identity.1, h.did.block.identity.2, h.did.block.identity.3,
    h.did.block.identity.4⟩, h.did.block.seq, h.did.block.cs⟩
  host := ⟨h.did.host.1, h.did.host.2⟩
  sent := h.did.sentAfter

theorem primitiveDone_of_ran {l : List Instr} {r : Returns} {prog : List Micro}
    (h : Ran prog s s' (l.map (wireBytes s.cfg))) : PrimitiveDone l s (returnedState r s') where
  block := ⟨h.did.block.cfg, ⟨h.did.block.cache.1, h.did.block.cache.2, h.did.block.cache.3, h.did.block.cache.4,
    h.did.block.cache.5⟩, ⟨h.did.block.identity.1, h.did.block.identity.2, h.did.block.identity.3,
    h.did.block.identity.4⟩, h.did.block.seq, h.did.block.cs⟩
  host := ⟨h.did.host.1, h.did.host.2⟩
  sent := h.did.sentAfter

/-! ### A transaction with any chip -/

/-- Transfers that sent these bytes, and left alone the block and the host's side. -/
structure Xferred (s u : State) (sent : List Byte) : Prop where
  block : SameBlock s u
  host : SameHostSide s u
  result : u.result = s.result
  history : ∃ ev, u.history = ev ++ s.history ∧ Transfers ev sent

theorem Xferred.refl (s : State) : Xferred s s [] := ⟨.refl s, .refl s, rfl, [], rfl, .nil⟩

theorem Xferred.cons {a b c : State} {x : Byte} {xs : List Byte} (h : Xferred a b [x]) (k : Xferred b c xs) :
    Xferred a c (x :: xs) :=
  ⟨h.block.trans k.block, h.host.trans k.host, k.result.trans h.result, by
    obtain ⟨e1, h1, t1⟩ := h.history
    obtain ⟨e2, h2, t2⟩ := k.history
    refine ⟨e2 ++ e1, by rw [h2, h1, List.append_assoc], fun hist acc => ?_⟩
    rw [List.append_assoc, t2, t1]; rfl⟩

theorem xferred_of_ok {kept : Bool} {out : Byte} (h : busXfer kept out s = .ok s') : Xferred s s' [out] := by
  obtain ⟨hcs, v, k, ch, ak, dr, -, -, -, rfl⟩ := busXfer_ok h
  exact ⟨⟨rfl, ⟨rfl, rfl, rfl, rfl, rfl⟩, ⟨rfl, rfl, rfl, rfl⟩, rfl, rfl⟩, ⟨rfl, rfl⟩, rfl, [.x out v], rfl,
    fun _ _ => rfl⟩

/-- A run that either went through to here, with these transfers, or was stopped. -/
theorem drive_sends_any {bs : List Byte} (q : quiet s = true) (rest : List Micro) :
    (∃ u, drive (bs.map Micro.send ++ rest) s = drive rest u ∧ Xferred s u bs) ∨
    ∃ e, drive (bs.map Micro.send ++ rest) s = .stopped e := by
  induction bs generalizing s with
  | nil => exact .inl ⟨s, rfl, .refl s⟩
  | cons b bs ih =>
    rw [List.map_cons, List.cons_append, drive_cons_of_quiet q]
    simp only [perform]
    rcases hx : busXfer false b s with e | u
    · exact .inr ⟨e, rfl⟩
    · have hu := xferred_of_ok hx
      rcases ih (s := u) (by rw [quiet_congr hu.host.inbox]; exact q) with ⟨v, hv, hxv⟩ | ⟨e, he⟩
      · exact .inl ⟨v, by simpa [onBus] using hv, hu.cons hxv⟩
      · exact .inr ⟨e, by simpa [onBus] using he⟩

theorem drive_recvs_any (n : Nat) (q : quiet s = true) (rest : List Micro) :
    (∃ u, drive (List.replicate n Micro.recv ++ rest) s = drive rest u ∧ Xferred s u (dummies s.cfg n)) ∨
    ∃ e, drive (List.replicate n Micro.recv ++ rest) s = .stopped e := by
  induction n generalizing s with
  | zero => exact .inl ⟨s, rfl, .refl s⟩
  | succ n ih =>
    rw [List.replicate_succ, List.cons_append, drive_cons_of_quiet q]
    simp only [perform]
    rcases hx : busXfer true s.cfg.dummyOut s with e | u
    · exact .inr ⟨e, rfl⟩
    · have hu := xferred_of_ok hx
      rcases ih (s := u) (by rw [quiet_congr hu.host.inbox]; exact q) with ⟨v, hv, hxv⟩ | ⟨e, he⟩
      · refine .inl ⟨v, by simpa [onBus] using hv, ?_⟩
        rw [hu.block.cfg] at hxv
        exact hu.cons hxv
      · exact .inr ⟨e, by simpa [onBus] using he⟩

/-- A transaction with any chip is done, with its own bytes and nothing else on the bus, or is stopped (R120). -/
theorem drive_transaction_any (f : Free s) (sent : List Byte) (kept : Nat) :
    (∃ u, Ran (Driver.transaction sent kept) s u [sent ++ dummies s.cfg kept]) ∨
    ∃ e, drive (Driver.transaction sent kept) s = .stopped e := by
  let s1 : State := { s with cs := true, rx := [], chip := { s.chip with txn := none }, history := .sel :: s.history }
  have h1 : drive (Driver.transaction sent kept) s =
      drive (sent.map Micro.send ++ (List.replicate kept Micro.recv ++ [.des])) s1 :=
    drive_go f.quiet (perform_sel f.cs)
  rw [h1]
  rcases drive_sends_any (s := s1) (bs := sent) f.quiet (List.replicate kept Micro.recv ++ [.des]) with
    ⟨u, hu, xu⟩ | ⟨e, he⟩
  swap; · exact .inr ⟨e, he⟩
  have qu : quiet u = true := by rw [quiet_congr xu.host.inbox]; exact f.quiet
  rw [hu]
  rcases drive_recvs_any (s := u) kept qu [.des] with ⟨v, hv, xv⟩ | ⟨e, he⟩
  swap; · exact .inr ⟨e, he⟩
  have qv : quiet v = true := by rw [quiet_congr xv.host.inbox]; exact qu
  rw [hv, drive_cons_of_quiet qv]
  simp only [perform]
  rcases hd : busDeselect v with e | w
  · exact .inr ⟨e, rfl⟩
  · obtain ⟨-, k, hk, rfl⟩ := busDeselect_ok hd
    have b : SameBlock s1 v := xu.block.trans xv.block
    obtain ⟨e1, y1, t1⟩ := xu.history
    obtain ⟨e2, y2, t2⟩ := xv.history
    let w : State := { v with
      cs := false, chip := k, draws := v.draws + v.cfg.pageSize, history := .des :: v.history }
    refine .inl ⟨w, ⟨?_, ⟨⟨b.cfg, ⟨b.cache.1, b.cache.2, b.cache.3, b.cache.4, b.cache.5⟩, ⟨b.identity.1, b.identity.2,
      b.identity.3, b.identity.4⟩, b.seq, f.cs.symm⟩, ⟨xv.host.inbox.trans xu.host.inbox,
      xv.host.responses.trans xu.host.responses⟩, xv.result.trans xu.result, ?_⟩⟩⟩
    · rw [h1, hu, hv, drive_cons_of_quiet qv]
      simp only [perform, hd, onBus]
      rfl
    · rw [show u.cfg = s.cfg from xu.block.cfg] at t2
      simp only [w, framesFrom]
      rw [y2, y1, t2, t1]
      simp [s1, framesFrom]

/-! ### The transaction of each wire command (R90, R121 to R130) -/

/-- A well-formed wire command called directly is one transaction: its opcode, the bytes after it, and its dummies. -/
theorem exec_wire {i : Instr} (hi : isWire i = true) (hw : i.wf s.cfg = true) :
    ∃ r op bs kept, exec i s = direct r (Driver.transaction (op :: bs) kept) s ∧
      wireBytes s.cfg i = op :: bs ++ dummies s.cfg kept ∧ op ∈ s.cfg.opcodes ∧
      (s.cfg.Valid → i ≠ .rdsr1 → op ≠ s.cfg.opRdsr1) := by
  have hd : s.cfg.Valid → s.cfg.opWren ≠ s.cfg.opRdsr1 ∧ s.cfg.opPp ≠ s.cfg.opRdsr1 ∧ s.cfg.opRead ≠ s.cfg.opRdsr1 ∧
      s.cfg.opSe4k ≠ s.cfg.opRdsr1 ∧ s.cfg.opBe32k ≠ s.cfg.opRdsr1 ∧ s.cfg.opBe64k ≠ s.cfg.opRdsr1 ∧
      s.cfg.opCe ≠ s.cfg.opRdsr1 ∧ s.cfg.opRdid ≠ s.cfg.opRdsr1 ∧ s.cfg.opRduid ≠ s.cfg.opRdsr1 := fun h => by
    have d := distinct_of_valid h
    exact ⟨d.1.2.2.1, d.2.1.2.1, d.2.2.1.1, d.2.2.2.1.1.symm, d.2.2.2.1.2.1.symm, d.2.2.2.1.2.2.1.symm,
      d.2.2.2.1.2.2.2.1.symm, d.2.2.2.1.2.2.2.2.1.symm, d.2.2.2.1.2.2.2.2.2.symm⟩
  cases i <;> simp only [isWire, Bool.false_eq_true] at hi <;>
    simp only [Instr.wf, Bool.and_eq_true, aligned, beq_iff_eq] at hw
  case wren =>
    exact ⟨.nothing, s.cfg.opWren, [], 0, rfl, by simp [wireBytes, encode, dummies], by simp [Config.opcodes],
      fun h _ => (hd h).1⟩
  case pp a d =>
    refine ⟨.nothing, s.cfg.opPp, addrBytes a ++ d, 0, ?_, by simp [wireBytes, encode, dummies],
      by simp [Config.opcodes], fun h _ => (hd h).2.1⟩
    simp only [exec, execPp, isMultiple, hw.1, hw.2, BEq.rfl, not_true_eq_false, ne_eq, if_false]
    rfl
  case read a n =>
    exact ⟨.bytes, s.cfg.opRead, addrBytes a, n, rfl, by simp [wireBytes, encode, dummies], by simp [Config.opcodes],
      fun h _ => (hd h).2.2.1⟩
  case rdsr1 =>
    exact ⟨.bytes, s.cfg.opRdsr1, [], 1, rfl, by simp [wireBytes, encode, dummies], by simp [Config.opcodes],
      fun _ h => absurd rfl h⟩
  case se4k a =>
    refine ⟨.nothing, s.cfg.opSe4k, addrBytes a, 0, ?_, by simp [wireBytes, encode, dummies],
      by simp [Config.opcodes], fun h _ => (hd h).2.2.2.1⟩
    simp only [exec, execSe4k, isMultiple, hw, BEq.rfl, not_true_eq_false, if_false]
    rfl
  case be32k a =>
    refine ⟨.nothing, s.cfg.opBe32k, addrBytes a, 0, ?_, by simp [wireBytes, encode, dummies],
      by simp [Config.opcodes], fun h _ => (hd h).2.2.2.2.1⟩
    simp only [exec, execBe32k, isMultiple, hw, BEq.rfl, not_true_eq_false, if_false]
    rfl
  case be64k a =>
    refine ⟨.nothing, s.cfg.opBe64k, addrBytes a, 0, ?_, by simp [wireBytes, encode, dummies],
      by simp [Config.opcodes], fun h _ => (hd h).2.2.2.2.2.1⟩
    simp only [exec, execBe64k, isMultiple, hw, BEq.rfl, not_true_eq_false, if_false]
    rfl
  case ce =>
    exact ⟨.nothing, s.cfg.opCe, [], 0, rfl, by simp [wireBytes, encode, dummies], by simp [Config.opcodes],
      fun h _ => (hd h).2.2.2.2.2.2.1⟩
  case rdid =>
    exact ⟨.identifier, s.cfg.opRdid, [0, 0, 0], 2, rfl, by simp [wireBytes, encode, dummies],
      by simp [Config.opcodes], fun h _ => (hd h).2.2.2.2.2.2.2.1⟩
  case rduid =>
    exact ⟨.bytes, s.cfg.opRduid, dummies s.cfg 4, 8, rfl, by simp [wireBytes, encode, dummies, List.replicate_succ],
      by simp [Config.opcodes], fun h _ => (hd h).2.2.2.2.2.2.2.2⟩

/-- A wire command that is not well formed is refused (R58). -/
theorem exec_wire_refused {i : Instr} (hi : isWire i = true) (hw : i.wf s.cfg = false) :
    exec i s = .refused .misaligned ∨ exec i s = .refused .wrongPageLength := by
  cases i <;> simp only [isWire, Bool.false_eq_true] at hi <;> simp only [Instr.wf, Bool.true_eq_false] at hw
  case pp a d =>
    simp only [exec, execPp, isMultiple]
    by_cases h1 : (a.toNat % s.cfg.pageSize == 0) = true
    · have h2 : d.length ≠ s.cfg.pageSize := by simpa [aligned, h1] using hw
      simp [h1, h2]
    · simp [h1]
  case se4k a => left; simp_all [exec, execSe4k, isMultiple, aligned]
  case be32k a => left; simp_all [exec, execBe32k, isMultiple, aligned]
  case be64k a => left; simp_all [exec, execBe64k, isMultiple, aligned]

/-! ### READ anywhere (R123, R76, U19) -/

/-- Receiving READ data at any address, from the `k`-th data byte on. -/
theorem drive_recvs_read (n : Nat) {s : State} {t : Txn} {a : Addr} {k : Nat} (q : quiet s = true) (hcs : s.cs = true)
    (hv : s.cfg.Valid) (hk : s.chip.kind ≠ .absent) (ht : s.chip.txn = some t) (ho : t.op = s.cfg.opRead)
    (hc : t.count = 3 + k) (ha : t.addr = addrBytes a) (rest : List Micro) :
    ∃ u got, drive (List.replicate n Micro.recv ++ rest) s = drive rest u ∧ Xferred s u (dummies s.cfg n) ∧
      u.cs = true ∧ u.rx = s.rx ++ got ∧ got.length = n ∧ SameChip s u ∧
      (∀ i, i < n → a.toNat + k + i < flashSize s → got[i]? = some (flash s (a.toNat + k + i))) ∧
      (∃ t', u.chip.txn = some t' ∧ t'.op = s.cfg.opRead ∧ 3 ≤ t'.count) ∧
      (a.toNat + k + n ≤ flashSize s → u.choices = s.choices) := by
  induction n generalizing s t k with
  | zero => exact ⟨s, [], rfl, .refl s, hcs, by simp, rfl, ⟨rfl, rfl, rfl, rfl⟩, by simp, ⟨t, ht, ho, by omega⟩, by simp⟩
  | succ n ih =>
    have hd := distinct_of_valid hv
    have hadr : t.address = a.toNat := by unfold Txn.address; rw [ha, addrFrom_addrBytes]
    have htake := take_of_txn (c := s.cfg) hk ht s.cfg.dummyOut
    have hans : s.chip.answer s.cfg t = if a.toNat + k < flashSize s
        then .byte (flash s (a.toNat + k)) else .any := by
      unfold Chip.answer
      rw [if_neg (by rw [ho]; tauto), if_pos ho, hadr]
      by_cases h : a.toNat + k < flashSize s
      · rw [if_pos h, if_pos ⟨by omega, by unfold flashSize at h; omega⟩, show t.count - 3 = k by omega]; rfl
      · rw [if_neg h, if_neg (by unfold flashSize at h; omega)]
    have next : ∃ w : State, ∃ v, perform .recv s = .go w ∧ Xferred s w [s.cfg.dummyOut] ∧ w.cs = true ∧
        w.rx = s.rx ++ [v] ∧ SameChip s w ∧ w.chip.txn = some (t.push s.cfg.dummyOut) ∧
        (a.toNat + k < flashSize s → v = flash s (a.toNat + k) ∧ w.choices = s.choices) := by
      rw [hans] at htake
      by_cases h : a.toNat + k < flashSize s
      · rw [if_pos h] at htake
        have hb : busXfer true s.cfg.dummyOut s = .ok { s with
            chip := { s.chip with txn := some (t.push s.cfg.dummyOut) }, rx := s.rx ++ [flash s (a.toNat + k)]
            history := .x s.cfg.dummyOut (flash s (a.toNat + k)) :: s.history } := by
          unfold busXfer
          rw [if_neg (by simp [hcs]), busyAtOpcode_self (s := s) (.inr (.inl (by simp [ht])))]
          unfold transfer
          rw [htake]; rfl
        exact ⟨_, _, by simp only [perform, hb, onBus], xferred_of_ok hb, hcs, rfl, ⟨rfl, rfl, rfl, rfl⟩, rfl,
          fun _ => ⟨rfl, rfl⟩⟩
      · rw [if_neg h] at htake
        have hb : busXfer true s.cfg.dummyOut s = .ok { answered s with
            chip := { s.chip with txn := some (t.push s.cfg.dummyOut) }, rx := s.rx ++ [nextAnswer s]
            history := .x s.cfg.dummyOut (nextAnswer s) :: s.history } := by
          unfold busXfer
          rw [if_neg (by simp [hcs]), busyAtOpcode_self (s := s) (.inr (.inl (by simp [ht])))]
          unfold transfer
          rw [htake]; rfl
        exact ⟨_, _, by simp only [perform, hb, onBus], xferred_of_ok hb, hcs, rfl, ⟨rfl, rfl, rfl, rfl⟩, rfl,
          fun h' => absurd h' h⟩
    obtain ⟨w, v, hp, xw, cw, rw', sw, tw, vw⟩ := next
    have gw : w.cfg = s.cfg := xw.block.cfg
    have zw : flashSize w = flashSize s := by unfold flashSize; rw [sw.kind]
    have fw : ∀ x, flash w x = flash s x := fun x => by unfold flash; rw [sw.mem, gw]
    obtain ⟨u, got, h1, h2, h3, h4, h5, h6, h7, h8, h9⟩ := ih (s := w) (t := t.push s.cfg.dummyOut) (k := k + 1)
      (by rw [quiet_congr xw.host.inbox]; exact q) cw (gw ▸ hv) (by rw [sw.kind]; exact hk) tw (by simp [gw, ho])
      (by simp [hc]; omega) (by unfold Txn.push; rw [if_neg (by omega)]; exact ha)
    rw [gw] at h2 h8
    rw [zw] at h7 h9
    refine ⟨u, v :: got, ?_, xw.cons h2, h3, by rw [h4, rw']; simp, by simp [h5],
      ⟨h6.1.trans sw.1, h6.2.trans sw.2, h6.3.trans sw.3, h6.4.trans sw.4⟩, ?_, h8, ?_⟩
    · rw [List.replicate_succ, List.cons_append, drive_go q hp, h1]
    · intro i hi hlt
      cases i with
      | zero => simpa using (vw (by omega)).1
      | succ i =>
        have := h7 i (by omega) (by omega)
        rw [fw] at this
        rw [List.getElem?_cons_succ, this, show a.toNat + k + (i + 1) = a.toNat + (k + 1) + i by omega]
    · intro hle
      rw [h9 (by omega), (vw (by omega)).2]

/-- READ of any address and count: it completes, and the bytes the chip has are the flash's (R123, R76). -/
theorem ran_read_any (f : Free s) (h : ChipReady s) (a : Addr) (n : Nat) :
    ∃ u, Ran (Driver.read s.cfg a n) s u [s.cfg.opRead :: addrBytes a ++ dummies s.cfg n] ∧ u.rx.length = n ∧
      (∀ i, i < n → a.toNat + i < flashSize s → u.rx[i]? = some (flash s (a.toNat + i))) ∧ SameChip s u ∧
      (a.toNat + n ≤ flashSize s → u.choices = s.choices) := by
  have hd := distinct_of_valid f.valid
  let t := (Txn.start s.cfg.opRead).pushAll (addrBytes a)
  let s2 : State := { s with
    cs := true, rx := [], chip := { s.chip with txn := some (Txn.start s.cfg.opRead) }, draws := s.draws + 1
    history := .x s.cfg.opRead (Config.freeByte s.draws) :: .sel :: s.history }
  obtain ⟨ev1, d1, h1, -, e1⟩ := drive_sends (bs := addrBytes a) (t := Txn.start s.cfg.opRead) (s := s2) f.quiet rfl h.1
    rfl ⟨by show s.cfg.opRead ≠ s.cfg.opRdsr1; tauto, .inl (by simp [Txn.start, addrBytes])⟩
    (List.replicate n Micro.recv ++ [.des])
  let s3 : State := { s2 with chip := { s.chip with txn := some t }, draws := d1, history := ev1 ++ s2.history }
  obtain ⟨u, got, g1, g2, g3, g4, g5, g6, g7, ⟨t', g8, g9, g10⟩, g11⟩ := drive_recvs_read n (s := s3) (t := t) (a := a)
    (k := 0) f.quiet rfl f.valid h.1 rfl rfl rfl rfl [.des]
  have hcmd : u.chip.command s.cfg t' u.draws = .ok { u.chip with txn := none } := by
    simp only [Chip.command, g9, show s3.cfg = s.cfg from rfl,
        hd.1.2.1.symm, hd.2.1.1.symm, hd.2.2.1.2.1, hd.2.2.1.2.2.1, hd.2.2.1.2.2.2.1, hd.2.2.1.2.2.2.2.1, if_false,
        if_true]
    rw [if_pos g10]
  have hrel : u.chip.release u.cfg u.draws = .ok { u.chip with txn := none } := by
    rw [show u.cfg = s.cfg from g2.block.cfg]
    rw [release_of_txn (by rw [g6.kind]; exact h.1) g8, hcmd]
  let w : State := { u with
    cs := false, chip := { u.chip with txn := none }, draws := u.draws + u.cfg.pageSize, history := .des :: u.history }
  have hdes : perform .des u = .go w := by
    simp only [perform, busDeselect, g3, hrel, onBus, not_true_eq_false, if_false]
    rfl
  have qu : quiet u = true := by rw [quiet_congr g2.host.inbox]; exact f.quiet
  obtain ⟨e2, y2, t2⟩ := g2.history
  refine ⟨w, ⟨?_, ?_⟩, by show u.rx.length = n; rw [g4]; simpa [s3, s2] using g5, ?_, ⟨g6.1, g6.2, g6.3, g6.4⟩, ?_⟩
  · have hread : Driver.read s.cfg a n = .sel :: .send s.cfg.opRead ::
        ((addrBytes a).map Micro.send ++ (List.replicate n Micro.recv ++ [.des])) := by
      simp [Driver.read, Driver.transaction]
    rw [hread, drive_go f.quiet (perform_sel f.cs)]
    rw [drive_go (s := { s with cs := true, rx := [], chip := { s.chip with txn := none }, history := .sel :: s.history })
      f.quiet (perform_op rfl h.1 rfl (by simp [Config.opcodes]) (.inl h.2))]
    refine h1.trans (g1.trans ((drive_go qu hdes).trans rfl))
  · have b := g2.block
    refine ⟨⟨b.cfg, ⟨b.cache.1, b.cache.2, b.cache.3, b.cache.4, b.cache.5⟩, ⟨b.identity.1, b.identity.2,
      b.identity.3, b.identity.4⟩, b.seq, f.cs.symm⟩, ⟨g2.host.inbox, g2.host.responses⟩, g2.result, ?_⟩
    show framesFrom (.des :: u.history) [] = _
    simp only [framesFrom]
    rw [y2]
    show framesFrom (e2 ++ (ev1 ++ s2.history)) [] = _
    rw [t2, e1]
    simp [s2, s3, framesFrom]
  · intro i hi hlt
    show u.rx[i]? = _
    rw [g4]
    have := g7 i hi (by simpa [s3, s2, flashSize] using hlt)
    simpa [s3, s2, flash] using this
  · intro hle
    exact g11 (by simpa [s3, s2, flashSize] using hle)

/-! ### Transactions the chip stops (R81, R42) -/

/-- A chip that is still busy stops every command but RDSR1 at its opcode (R81). -/
theorem drive_transaction_busy (f : Free s) (hk : s.chip.kind ≠ .absent) {op : Byte} (hop : op ∈ s.cfg.opcodes)
    (hb : s.chip.busy ≠ .ready) (hv : statusBusy (nextAnswer s) = true) (hne : op ≠ s.cfg.opRdsr1) (bs : List Byte)
    (n : Nat) : drive (Driver.transaction (op :: bs) n) s = .stopped .chipBusy := by
  let s1 : State := { s with cs := true, rx := [], chip := { s.chip with txn := none }, history := .sel :: s.history }
  have h1 : busyAtOpcode op s1 = { answered s with
      cs := true, rx := [], chip := { s.chip with txn := none }, history := .sel :: s.history } := by
    unfold busyAtOpcode
    rw [if_neg (by simp [s1, hk, hb, hne])]
    simp only [readStatus, busyAfterRead, show nextAnswer s1 = nextAnswer s from rfl, hv, if_true]
    rfl
  have htake : ({ s.chip with txn := none } : Chip).take s.cfg op = .error .chipBusy := by
    unfold Chip.take
    split
    · exact absurd ‹_› hk
    · simp only [not_not.2 hop, if_false]
      rw [if_pos ⟨hb, hne⟩]
  unfold Driver.transaction
  rw [drive_go f.quiet (perform_sel f.cs), List.map_cons, List.cons_append,
    drive_cons_of_quiet (s := s1) (by exact f.quiet)]
  have hx : perform (.send op) s1 = .stop .chipBusy := by
    show onBus (busXfer false op s1) = _
    unfold busXfer
    rw [if_neg (by simp [s1]), h1]
    unfold transfer
    simp only [answered, htake, onBus]
  rw [hx]

/-- A chip that the environment says has finished takes a command like a ready one (R77). -/
theorem drive_transaction_finished (f : Free s) (hk : s.chip.kind ≠ .absent) {op : Byte} (hb : s.chip.busy ≠ .ready)
    (hv : statusBusy (nextAnswer s) = false) (hne : op ≠ s.cfg.opRdsr1) (bs : List Byte) (n : Nat) (rest : List Micro) :
    drive (Driver.transaction (op :: bs) n ++ rest) s =
      drive (Driver.transaction (op :: bs) n ++ rest) s.chipFinished := by
  have hf : s.chipFinished.cs = false := f.cs
  unfold Driver.transaction
  rw [List.cons_append, drive_go f.quiet (perform_sel f.cs),
    drive_go (s := s.chipFinished) f.quiet (perform_sel hf), List.map_cons, List.cons_append, List.cons_append,
    drive_cons_of_quiet (by exact f.quiet), drive_cons_of_quiet (by exact f.quiet)]
  have hx : ∀ k : Bool, busXfer k op { s with
        cs := true, rx := [], chip := { s.chip with txn := none }, history := .sel :: s.history } =
      busXfer k op { s.chipFinished with
        cs := true, rx := [], chip := { s.chipFinished.chip with txn := none }
        history := .sel :: s.chipFinished.history } := by
    intro k
    unfold busXfer
    rw [if_neg (by simp), if_neg (by simp)]
    congr 1
    rw [busyAtOpcode_self (s := { s.chipFinished with
        cs := true, rx := [], chip := { s.chipFinished.chip with txn := none }
        history := .sel :: s.chipFinished.history }) (.inr (.inr (.inl rfl)))]
    unfold busyAtOpcode
    rw [if_neg (by simp [hk, hb, hne])]
    simp only [readStatus, busyAfterRead, nextAnswer] at hv ⊢
    simp only [hv, Bool.false_eq_true, if_false]
    rfl
  simp only [perform]
  rw [hx]

/-- A command whose effect the chip stops, at the end of its transaction. -/
theorem drive_transaction_stopped (f : Free s) (h : ChipReady s) {op : Byte} {bs : List Byte} {e : Refusal}
    (hop : op ∈ s.cfg.opcodes) (hm : Mute s.cfg (Txn.start op) bs.length)
    (hc : ∀ d, ({ s.chip with txn := some ((Txn.start op).pushAll bs) } : Chip).command s.cfg
      ((Txn.start op).pushAll bs) d = .error e) :
    drive (Driver.transaction (op :: bs) 0) s = .stopped e := by
  let s2 : State := { s with
    cs := true, rx := [], chip := { s.chip with txn := some (Txn.start op) }, draws := s.draws + 1
    history := .x op (Config.freeByte s.draws) :: .sel :: s.history }
  obtain ⟨ev1, d1, h1, -, e1⟩ := drive_sends (bs := bs) (t := Txn.start op) (s := s2) f.quiet rfl h.1 rfl hm [.des]
  unfold Driver.transaction
  rw [drive_go f.quiet (perform_sel f.cs), List.map_cons, List.cons_append]
  rw [drive_go (s := { s with cs := true, rx := [], chip := { s.chip with txn := none }, history := .sel :: s.history })
    f.quiet (perform_op rfl h.1 rfl hop (.inl h.2))]
  refine h1.trans ?_
  rw [drive_cons_of_quiet (by exact f.quiet)]
  have hrel := release_of_txn (c := s.cfg) (d := d1)
    (k := { s.chip with txn := some ((Txn.start op).pushAll bs) }) h.1 rfl
  rw [hc] at hrel
  simp only [perform, busDeselect, onBus, s2, hrel, not_true_eq_false, if_false]

/-- A PP whose effect the chip stops. -/
theorem drive_pp_stopped (f : Free s) (h : ChipReady s) {a : Addr} {d : List Byte} {e : Refusal}
    (hl : d.length = s.cfg.pageSize) (he : ∀ x m, ({ s.chip with txn := x } : Chip).programNow s.cfg a.toNat d m
      = .error e) : drive (Driver.pp s.cfg a d) s = .stopped e := by
  have hd := distinct_of_valid f.valid
  exact drive_transaction_stopped f h (op := s.cfg.opPp) (bs := addrBytes a ++ d) (by simp [Config.opcodes])
    ⟨hd.2.1.2.1, .inr ⟨hd.2.1.1, hd.2.1.2.2.2.2.2.2.1, .inl hd.2.1.2.2.2.2.2.2.2⟩⟩
    (fun m => by rw [command_pp f.valid _ _ hl]; exact he _ m)

/-- An erase whose effect the chip stops. -/
theorem drive_erase_stopped (f : Free s) (h : ChipReady s) {a : Addr} {op : Byte} {g : Nat} {e : Refusal}
    (ho : (op, g) ∈ [(s.cfg.opSe4k, 4096), (s.cfg.opBe32k, 32768), (s.cfg.opBe64k, 65536)])
    (he : ∀ x m, ({ s.chip with txn := x } : Chip).eraseNow a.toNat g m = .error e) :
    drive (Driver.transaction (op :: addrBytes a) 0) s = .stopped e := by
  have d := distinct_of_valid f.valid
  have hop : op ∈ s.cfg.opcodes ∧ op ≠ s.cfg.opRdsr1 ∧ op ≠ s.cfg.opRead ∧ op ≠ s.cfg.opRdid ∧ op ≠ s.cfg.opRduid := by
    simp only [List.mem_cons, Prod.mk.injEq, List.not_mem_nil, or_false] at ho
    rcases ho with ⟨rfl, -⟩ | ⟨rfl, -⟩ | ⟨rfl, -⟩
    · exact ⟨by simp [Config.opcodes], d.2.2.2.1.1.symm, d.2.2.1.2.1.symm, d.2.2.2.2.1.2.2.2.1, d.2.2.2.2.1.2.2.2.2⟩
    · exact ⟨by simp [Config.opcodes], d.2.2.2.1.2.1.symm, d.2.2.1.2.2.1.symm, d.2.2.2.2.2.1.2.2.1,
        d.2.2.2.2.2.1.2.2.2⟩
    · exact ⟨by simp [Config.opcodes], d.2.2.2.1.2.2.1.symm, d.2.2.1.2.2.2.1.symm, d.2.2.2.2.2.2.1.2.1,
        d.2.2.2.2.2.2.1.2.2⟩
  exact drive_transaction_stopped f h hop.1 ⟨hop.2.1, .inr ⟨hop.2.2.1, hop.2.2.2.1, .inl hop.2.2.2.2⟩⟩
    (fun m => by rw [command_erase f.valid _ _ ho]; exact he _ m)

/-- A CE without the latch set (R81). -/
theorem drive_ce_stopped (f : Free s) (h : ChipReady s) (hl : s.chip.wel = false) :
    drive (Driver.ce s.cfg) s = .stopped .chipNotWriteEnabled := by
  have d := distinct_of_valid f.valid
  exact drive_transaction_stopped f h (op := s.cfg.opCe) (bs := []) (by simp [Config.opcodes])
    ⟨d.2.2.2.1.2.2.2.1.symm, .inl (by simp [Txn.start])⟩ (fun m => by
      simp only [show ∀ t : Txn, t.pushAll [] = t from fun _ => rfl,
        Chip.command, show (Txn.start s.cfg.opCe).op = s.cfg.opCe from rfl,
        show (Txn.start s.cfg.opCe).count = 0 from rfl, d.1.2.2.2.2.2.2.1.symm, d.2.1.2.2.2.2.2.1.symm,
        d.2.2.2.2.1.2.2.1.symm, d.2.2.2.2.2.1.2.1.symm, d.2.2.2.2.2.2.1.1.symm, if_false, if_true,
        Chip.eraseAllNow, hl]
      rfl)

/-- The state after an erase called directly. -/
theorem erased_of_chip {u : State} {a : Addr} {g : Nat} (hw : FlashWf s) (ha : a.toNat % g = 0) (hcfg : u.cfg = s.cfg)
    (e : u.chip = { s.chip with
      mem := Memory.erase s.chip.mem (a.toNat / g * g) g, busy := .other, wel := false, txn := none }) :
    Erased a.toNat g s (returnedState .nothing u) := by
  rw [show a.toNat / g * g = a.toNat from Nat.div_mul_cancel (Nat.dvd_of_mod_eq_zero ha)] at e
  constructor
  · simp [returnedState, e]
  · simp [returnedState, e]
  · simp [returnedState, e]
  · intro x h1 h2; simp only [flash, returnedState, e, hcfg, Memory.read_erase]; rw [if_pos ⟨h1, h2⟩]
  · intro x h1; simp only [flash, returnedState, e, hcfg, Memory.read_erase]; rw [if_neg (by omega)]
  · simp only [FlashWf, returnedState, e, hcfg]; exact Memory.wf_erase hw

/-! ### Addresses the chip does not have (log 15) -/

/-- A free target is aligned and lies in the chip. -/
theorem strayTarget_fits {size n d p : Nat} (hn : 0 < n) (hs : n ≤ size) (h : Chip.strayTarget size n d = some p) :
    p % n = 0 ∧ p + n ≤ size := by
  unfold Chip.strayTarget at h
  split at h
  next =>
    cases h
    have hlt := Nat.mod_lt (Config.freeTarget d) (Nat.div_pos hs hn)
    generalize Config.freeTarget d % (size / n) = q at *
    refine ⟨Nat.mul_mod_left _ _, ?_⟩
    calc q * n + n = (q + 1) * n := by rw [Nat.add_mul, Nat.one_mul]
      _ ≤ size / n * n := Nat.mul_le_mul_right _ hlt
      _ ≤ size := Nat.div_mul_le_self _ _
  next => cases h

/-- A present chip holds a whole number of the largest erase regions. -/
theorem le_flashSize (hk : s.chip.kind ≠ .absent) {n : Nat} (h : n ≤ 65536) : n ≤ flashSize s := by
  unfold flashSize
  cases hs : s.chip.kind with
  | partA => simp only [Chip.size, Config.capA]; omega
  | partB => simp only [Chip.size, Config.capB]; omega
  | absent => exact absurd hs hk

/-- The state after a program called directly at an address the chip does not have. -/
theorem strayed_of_programmed {u : State} {a n d : Nat} {data : List Byte} (hk : s.chip.kind ≠ .absent)
    (hw : FlashWf s) (hcfg : u.cfg = s.cfg) (hl : data.length = n) (hn : 0 < n) (hle : n ≤ 65536)
    (hr : flashSize s < a + n) (e : u.chip = s.chip.programmed s.cfg a data d) :
    Strayed n (Chip.strayTarget (flashSize s) n d) s (returnedState .nothing u) := by
  unfold Chip.programmed at e
  rw [hl, if_neg (by rw [← flashSize]; omega)] at e
  refine ⟨by simp [returnedState, e], by simp [returnedState, e], by simp [returnedState, e],
    fun p hp => strayTarget_fits hn (le_flashSize hk hle) hp, fun x hx => ?_, ?_⟩
  · simp only [flash, returnedState, e, hcfg]
    unfold flashSize at hx
    split
    next p hp => exact Memory.read_spoil_other hw (hx p hp)
    next => rfl
  · simp only [FlashWf, returnedState, e, hcfg]
    split
    · exact Memory.wf_spoil hw
    · exact hw

/-- The state after an erase called directly at an address the chip does not have. -/
theorem strayed_of_erased {u : State} {a g d : Nat} (hk : s.chip.kind ≠ .absent) (hw : FlashWf s)
    (hcfg : u.cfg = s.cfg) (hn : 0 < g) (hle : g ≤ 65536) (hr : flashSize s ≤ a) (e : u.chip = s.chip.erased a g d) :
    Strayed g (Chip.strayTarget (flashSize s) g d) s (returnedState .nothing u) ∧
      ∀ p, Chip.strayTarget (flashSize s) g d = some p → ∀ x, p ≤ x → x < p + g →
        flash (returnedState .nothing u) x = s.cfg.erasedByte := by
  unfold Chip.erased Chip.regionTarget at e
  rw [if_neg (by rw [← flashSize]; omega)] at e
  refine ⟨⟨by simp [returnedState, e], by simp [returnedState, e], by simp [returnedState, e],
    fun p hp => strayTarget_fits hn (le_flashSize hk hle) hp, fun x hx => ?_, ?_⟩, fun p hp x h1 h2 => ?_⟩
  · simp only [flash, returnedState, e, hcfg]
    unfold flashSize at hx
    split
    next p hp => rw [Memory.read_erase, if_neg (by have := hx p hp; omega)]
    next => rfl
  · simp only [FlashWf, returnedState, e, hcfg]
    split
    · exact Memory.wf_erase hw
    · exact hw
  · unfold flashSize at hp
    simp only [flash, returnedState, e, hcfg, hp]
    rw [Memory.read_erase, if_pos ⟨h1, h2⟩]

end Sys2Proof.Machine
end

