-- ==== Sys2Proof/Laws/Invariants.lean ====
section
/-! SUPPORT. What the machine's programs do to the flags, the bus and the device record: one lemma for each program and
one for each micro-operation. -/

namespace Sys2Proof.Machine

/-! ### The flags (R23) -/

theorem flagsKept_head {l d : Bool} {rest : List Micro} (h : flagsKept l d rest) : d = true → l = true := by
  cases rest with
  | nil => exact h
  | cons m rest => exact h.1

/-- The driver writes neither flag. -/
theorem flagsKept_driver {prog : List Micro} (hp : ∀ m ∈ prog, isDriver m = true) {l d : Bool} {rest : List Micro}
    (h : d = true → l = true) : flagsKept l d (prog ++ rest) ↔ flagsKept l d rest := by
  induction prog with
  | nil => rfl
  | cons m prog ih =>
    have ih := ih fun x hx => hp x (List.mem_cons_of_mem _ hx)
    have hm := hp m (by simp)
    rw [List.cons_append]
    cases m <;> simp only [isDriver, Bool.false_eq_true] at hm <;> simp only [flagsKept] <;>
      exact ⟨fun x => ih.1 x.2, fun x => ⟨h, ih.2 x⟩⟩

/-- A load of a cache that is not dirty leaves it Clean (R162). -/
theorem flagsKept_load (c : Config) (sector : Nat) {rest : List Micro} {l : Bool} (h : flagsKept true false rest) :
    flagsKept l false (Cache.loadSector c sector ++ rest) := by
  unfold Cache.loadSector
  refine ⟨by simp, ?_⟩
  show flagsKept false false ((_ ++ _) ++ rest)
  rw [List.append_assoc]
  generalize List.range c.pagesPerSector = ps
  induction ps with
  | nil => exact ⟨by simp, by simp, h⟩
  | cons p ps ih =>
    rw [List.flatMap_cons, List.append_assoc, List.append_assoc]
    exact (flagsKept_driver (driverProg_transaction _ _).driver (by simp)).2 ⟨by simp, ih⟩

/-- A flush clears `dirty` (R163). -/
theorem flagsKept_flush (c : Config) (sector : Nat) (buf : List Byte) {rest : List Micro} {l d : Bool}
    (hl : d = true → l = true) (h : flagsKept l false rest) :
    flagsKept l d (Cache.flushSector c sector buf ++ rest) := by
  unfold Cache.flushSector
  rw [List.append_assoc, flagsKept_driver ((driverProg_eraseSector _ _ _).append
    (DriverProg.flatMap fun p => driverProg_programPage _ _ _)).driver hl]
  exact ⟨hl, h⟩

/-- `ensureSector` leaves the cache loaded, and Dirty only if it was (R164). -/
theorem flagsKept_ensure {s : State} (sector : Nat) {rest : List Micro} (hs : DirtyLoaded s)
    (h : ∀ d, flagsKept true d rest) :
    flagsKept s.loaded s.dirty (Cache.ensureSector s sector ++ rest) := by
  unfold Cache.ensureSector Cache.flushCache
  split
  next hh =>
    have hl : s.loaded = true := by unfold hit at hh; simp at hh; exact hh.1
    rw [hl]; exact h _
  · split
    next hd =>
      rw [hd, List.append_assoc]
      exact flagsKept_flush _ _ _ (fun _ => hs hd) (flagsKept_load _ _ (h _))
    next hd =>
      rw [show s.dirty = false by simpa using hd]
      exact flagsKept_load _ _ (h _)

/-- One micro-operation keeps the flags right. -/
theorem flagsKept_perform {m : Micro} {rest : List Micro} {s s' : State} (hi : flagsKept s.loaded s.dirty (m :: rest))
    (hp : perform m s = .go s') : flagsKept s'.loaded s'.dirty rest := by
  by_cases hm : isDriver m = true
  · have hf := perform_driver hm hp
    rw [hf.cache.1, hf.cache.2]
    exact (flagsKept_driver (prog := [m]) (by simpa using hm) (flagsKept_head hi)).1 hi
  · cases m <;> simp only [isDriver, not_true_eq_false] at hm <;> simp only [perform] at hp <;> cases hp <;>
      simp only [flagsKept] at hi ⊢
    all_goals first | exact hi.2 | (simp; exact hi.2)

/-! ### The bus (R35) -/

theorem busKept_flush {s : State} {rest : List Micro} (h : busKept false rest) :
    busKept false (Cache.flushCache s ++ rest) := by
  unfold Cache.flushCache Cache.flushSector
  split
  · rw [List.append_assoc]
    exact ((driverProg_eraseSector _ _ _).append (DriverProg.flatMap fun p => driverProg_programPage _ _ _)).bus _ h
  · exact h

theorem busKept_load (c : Config) (sector : Nat) {rest : List Micro} (h : busKept false rest) :
    busKept false (Cache.loadSector c sector ++ rest) := by
  unfold Cache.loadSector
  show busKept false ((_ ++ _) ++ rest)
  rw [List.append_assoc]
  generalize List.range c.pagesPerSector = ps
  induction ps with
  | nil => exact h
  | cons p ps ih =>
    rw [List.flatMap_cons, List.append_assoc, List.append_assoc]
    exact (driverProg_transaction _ _).bus _ ih

theorem busKept_ensure {s : State} (sector : Nat) {rest : List Micro} (h : busKept false rest) :
    busKept false (Cache.ensureSector s sector ++ rest) := by
  unfold Cache.ensureSector
  split
  · exact h
  · rw [List.append_assoc]; exact busKept_flush (busKept_load _ _ h)

/-- One micro-operation keeps the use of the bus legal. -/
theorem busKept_perform {m : Micro} {rest : List Micro} {s s' : State} (hi : busKept s.cs (m :: rest))
    (hp : perform m s = .go s') : busKept s'.cs rest := by
  cases m <;> simp only [perform] at hp <;> simp only [busKept] at hi ⊢
  case sel => obtain ⟨-, rfl⟩ := busSelect_ok (onBus_go hp); exact hi.2
  case des => obtain ⟨-, k, -, rfl⟩ := busDeselect_ok (onBus_go hp); exact hi.2
  case send => obtain ⟨-, v, k, ch, ak, dr, -, -, -, rfl⟩ := busXfer_ok (onBus_go hp); exact hi.2
  case recv => obtain ⟨-, v, k, ch, ak, dr, -, -, -, rfl⟩ := busXfer_ok (onBus_go hp); exact hi.2
  case untilReady =>
    unfold waitTest at hp
    split at hp
    · cases hp; exact hi.2
    · split at hp
      · cases hp
      · split at hp <;> cases hp
  case refuse => cases hp
  all_goals (cases hp; simpa using hi)

/-- An illegal bus action is the chip's doing in no case. -/
theorem take_legal {c : Config} {k : Chip} {out : Byte} : k.take c out ≠ .error .illegalBusAction := by
  intro h
  unfold Chip.take at h
  split at h
  · cases h
  · split at h
    · split at h
      · cases h
      · split at h <;> cases h
    · cases h

theorem legal_ite {p : Prop} [Decidable p] {a b : Except Refusal Chip} (ha : a ≠ .error .illegalBusAction)
    (hb : b ≠ .error .illegalBusAction) :
    (if p then a else b) ≠ .error .illegalBusAction := by split <;> assumption

theorem command_legal {c : Config} {k : Chip} {t : Txn} {d : Nat} :
    k.command c t d ≠ .error .illegalBusAction := by
  unfold Chip.command Chip.programNow Chip.eraseNow Chip.eraseAllNow Chip.cutShort
  simp only
  repeat' apply legal_ite
  all_goals simp

theorem release_legal {c : Config} {k : Chip} {d : Nat} : k.release c d ≠ .error .illegalBusAction := by
  intro h
  unfold Chip.release Chip.cutShort at h
  split at h
  · cases h
  · split at h
    · cases h
    · exact command_legal h

/-- A micro-operation that is legal where it stands is not refused as illegal. -/
theorem perform_legal {m : Micro} {rest : List Micro} {s : State} (h : busKept s.cs (m :: rest)) :
    perform m s ≠ .stop .illegalBusAction := by
  have error : ∀ {r : Except Refusal State}, r ≠ .error .illegalBusAction →
      onBus r ≠ .stop .illegalBusAction := by
    intro r hr; cases r
    · intro hc; simp only [onBus, Progress.stop.injEq] at hc; exact hr (by rw [hc])
    · simp [onBus]
  have xfer : ∀ {kept out}, s.cs = true → busXfer kept out s ≠ .error .illegalBusAction := by
    intro kept out hcs
    unfold busXfer transfer
    rw [if_neg (by simp [hcs])]
    split
    next e he => intro hc; cases hc; exact take_legal he
    · simp
  cases m <;> simp only [busKept] at h <;> simp only [perform]
  case sel => exact error (by unfold busSelect; rw [h.1]; simp)
  case des =>
    refine error ?_
    unfold busDeselect
    rw [if_neg (by simp [h.1])]
    split
    next e he => intro hc; cases hc; exact release_legal he
    · simp
  case send => exact error (xfer h.1)
  case recv => exact error (xfer h.1)
  case untilReady =>
    unfold waitTest
    split
    · simp
    · split
      · simp
      · split <;> simp
  case refuse r => simpa using h.1
  all_goals simp

/-! ### The device record (R28) and the guard (R27) -/

theorem noLatch_driver {prog : List Micro} (hp : ∀ m ∈ prog, isDriver m = true) : prog.filter isLatch = [] := by
  rw [List.filter_eq_nil_iff]
  intro m hm; have := hp m hm
  cases m <;> simp_all [isDriver, isLatch]

theorem noLatch_ensure {s : State} (sector : Nat) : (Cache.ensureSector s sector).filter isLatch = [] := by
  have load : (Cache.loadSector s.cfg sector).filter isLatch = [] := by
    unfold Cache.loadSector
    rw [List.filter_cons_of_neg (by simp [isLatch]), List.filter_append]
    generalize List.range s.cfg.pagesPerSector = ps
    induction ps with
    | nil => rfl
    | cons p ps ih =>
      rw [List.flatMap_cons, List.filter_append, List.filter_append,
        show (Driver.readBytes s.cfg (addrOf (pageAddr s.cfg sector p)) s.cfg.pageSize).filter isLatch = [] from
          noLatch_driver (driverProg_transaction _ _).driver]
      exact ih
  unfold Cache.ensureSector Cache.flushCache Cache.flushSector
  split
  · rfl
  · rw [List.filter_append, load, List.append_nil]
    split
    · rw [List.filter_append, noLatch_driver ((driverProg_eraseSector _ _ _).append
        (DriverProg.flatMap fun p => driverProg_programPage _ _ _)).driver]
      rfl
    · rfl

/-- No operation but INITIALIZE has a write of the device record in its program. -/
theorem Started.noLatch {op : Op} {prog : List Micro} {s : State} (h : Started s op prog) (hop : op ≠ .init) :
    prog.filter isLatch = [] := by
  cases op with
  | direct r => exact noLatch_driver h.driverProg.driver
  | init => exact absurd rfl hop
  | readBlock off => cases h; exact noLatch_ensure _
  | writeBlock => cases h; unfold writeBody; rw [List.filter_append, noLatch_ensure]; rfl
  | flush =>
    cases h
    unfold Cache.flushCache Cache.flushSector
    split
    · rw [List.filter_append, noLatch_driver ((driverProg_eraseSector _ _ _).append
        (DriverProg.flatMap fun p => driverProg_programPage _ _ _)).driver]
      rfl
    · rfl
  | reformat => cases h; rw [List.filter_append, noLatch_driver (driverProg_eraseChip _).driver]; rfl

/-- A run without such a write leaves the device record alone. -/
theorem identity_of_noLatch {op : Op} {prog : List Micro} {s t : State} (hp : prog.filter isLatch = [])
    (h : start op prog s = .next t) : SameIdentity s t := by
  have ticked : ∀ u, SameIdentity u (tick u) := fun u => by constructor <;> simp
  have key := drive_invariant (I := fun l u => (∀ m ∈ l, isLatch m = false) ∧ SameIdentity s u) (prog := prog) (s := s)
    (fun m rest u u' hm hpf => by
      refine ⟨fun x hx => hm.1 x (List.mem_cons_of_mem _ hx), (hm.2.trans (ticked u)).trans ?_⟩
      have hl := hm.1 m (by simp)
      by_cases hd : isDriver m = true
      · exact (perform_driver hd hpf).identity
      · cases m <;> first
          | exact absurd rfl hd
          | (cases hl; done)
          | (simp only [perform] at hpf; cases hpf; exact ⟨rfl, rfl, rfl, rfl⟩))
    (fun n rest u hm => ⟨fun x hx => (List.mem_append.1 hx).elim
      (fun h => by have := (driverProg_poll _ _).driver x h; cases x <;> simp_all [isDriver, isLatch])
      (fun h => hm.1 x (List.mem_cons_of_mem _ h)), hm.2.trans (ticked u)⟩)
    (fun n rest u hm => ⟨by simp, hm.2.trans (ticked u)⟩)
    ⟨fun m hm => by simpa using List.filter_eq_nil_iff.1 hp m hm, .refl s⟩
  rcases start_next h with ⟨u, hd, rfl⟩ | ⟨rest, u, hd, rfl⟩ | ⟨u, hd, rfl⟩
  · rw [hd] at key; exact key.2.trans (by constructor <;> simp)
  · rw [hd] at key; exact key.2.trans ⟨rfl, rfl, rfl, rfl⟩
  · rw [hd] at key; exact key.2.trans (by constructor <;> simp)

/-- An operation that does not hold the guard leaves it alone. -/
theorem busy_of_start {op : Op} {prog : List Micro} {s t : State} (ho : op.holdsBusy = false)
    (hb : (∃ r, op = .direct r) ∨ s.busy = false) (h : start op prog s = .next t) : t.busy = s.busy := by
  have key := drive_invariant (I := fun _ u => u.busy = s.busy) (prog := prog) (s := s)
    (fun m rest u u' hm hpf => by rw [(perform_frame hpf).2.1]; simpa using hm)
    (fun n rest u hm => by simpa using hm)
    (fun n rest u hm => by simpa using hm) rfl
  rcases start_next h with ⟨u, hd, rfl⟩ | ⟨rest, u, hd, rfl⟩ | ⟨u, hd, rfl⟩
  · rw [hd] at key; simp [ho]; exact key
  · rw [hd] at key; exact key
  · rw [hd] at key
    rcases hb with ⟨r, rfl⟩ | hb
    · exact key
    · rw [hb]; cases op <;> simp_all [abandon, respond]

end Sys2Proof.Machine
end

