-- ==== Sys2Proof/Laws/PerInstr.lean ====
section
/-! SUPPORT. What holds of every instruction as syntax, one lemma for each constructor. -/

namespace Sys2Proof.Laws

theorem carried_wire {c : Config} {op : Byte} {rest : List Byte} (h : op ∈ c.opcodes) :
    ∃ o r, op :: rest = o :: r ∧ o ∈ c.opcodes := ⟨op, rest, rfl, h⟩

/-- A request word is made of its two fields (R100). -/
theorem carried_word {c : Config} {op : BitVec 4} {blk : Word32} (hv : c.Valid) (hb : blk.toNat < 2 ^ c.blkBits) :
    hostOp c (hostWord c op blk) = op ∧
      (hostWord c op blk).toNat = op.toNat * 2 ^ c.blkBits + (hostBlk c (hostWord c op blk)).toNat := by
  have h := hv.2.2.2.2.2.2.1
  rw [hostBlk_hostWord h hb, (hostWord_toNat h hb).1]
  exact ⟨hostOp_hostWord h hb, rfl⟩

/-- The word of a request without a block number. -/
theorem carried_plain {c : Config} {op : BitVec 4} (hv : c.Valid) :
    hostOp c (hostWord c op 0) = op ∧
      (hostWord c op 0).toNat = op.toNat * 2 ^ c.blkBits + (hostBlk c (hostWord c op 0)).toNat :=
  carried_word hv (by simp)

namespace Carried

/-- The code of a host request (R101, R103), for a wire command of no meaning. -/
def code (c : Config) : Instr → BitVec 4
  | .wren => 0
  | .pp _ _ => 0
  | .read _ _ => 0
  | .rdsr1 => 0
  | .se4k _ => 0
  | .be32k _ => 0
  | .be64k _ => 0
  | .ce => 0
  | .rdid => 0
  | .rduid => 0
  | .init => c.codeInit
  | .readBlock _ => c.codeReadBlock
  | .writeBlock _ _ => c.codeWriteBlock
  | .flush => c.codeFlush
  | .reformat => c.codeReformat
  | .blockCount => c.codeBlockCount
  | .totalSize => c.codeTotalSize
  | .blockSize => c.codeBlockSize
  | .supportsDma => c.codeSupportsDma
  | .isBusy => c.codeIsBusy
  | .reservedA => reservedCode c 0
  | .reservedB => reservedCode c 1
  | .reservedC => reservedCode c 2
  | .reservedD => reservedCode c 3
  | .reservedE => reservedCode c 4
  | .reservedF => reservedCode c 5

/-- How a well-formed instruction is carried (R90, R97, R100, R101, R103): a wire command's frame starts with one of the
ten opcodes; a host request's word is the operation's code above a block number, and only WRITE_BLOCK has data. -/
def Statement (i : Instr) : Prop :=
  ∀ c : Config, c.Valid → i.wf c = true →
    match encode c i with
    | .wire bytes => ∃ op rest, bytes = op :: rest ∧ op ∈ c.opcodes
    | .host word data =>
      (hostOp c word = code c i ∧ word.toNat = (code c i).toNat * 2 ^ c.blkBits + (hostBlk c word).toNat) ∧
        (data = [] ∨ ∃ b, i = .writeBlock b data)

theorem wren : Statement .wren := fun _ _ _ => carried_wire (by simp [Config.opcodes])
theorem pp (a : Addr) (d : List Byte) : Statement (.pp a d) := fun _ _ _ => carried_wire (by simp [Config.opcodes])
theorem read (a : Addr) (n : Nat) : Statement (.read a n) := fun _ _ _ => carried_wire (by simp [Config.opcodes])
theorem rdsr1 : Statement .rdsr1 := fun _ _ _ => carried_wire (by simp [Config.opcodes])
theorem se4k (a : Addr) : Statement (.se4k a) := fun _ _ _ => carried_wire (by simp [Config.opcodes])
theorem be32k (a : Addr) : Statement (.be32k a) := fun _ _ _ => carried_wire (by simp [Config.opcodes])
theorem be64k (a : Addr) : Statement (.be64k a) := fun _ _ _ => carried_wire (by simp [Config.opcodes])
theorem ce : Statement .ce := fun _ _ _ => carried_wire (by simp [Config.opcodes])
theorem rdid : Statement .rdid := fun _ _ _ => carried_wire (by simp [Config.opcodes])
theorem rduid : Statement .rduid := fun _ _ _ => carried_wire (by simp [Config.opcodes])
theorem init : Statement .init := fun _ hv _ => ⟨carried_plain hv, .inl rfl⟩
theorem readBlock (b : Word32) : Statement (.readBlock b) := fun _ hv hb =>
  ⟨carried_word hv (by simpa [Instr.wf] using hb), .inl rfl⟩
theorem writeBlock (b : Word32) (d : List Byte) : Statement (.writeBlock b d) := fun _ hv hb =>
  ⟨carried_word hv (by simp [Instr.wf] at hb; exact hb.1), .inr ⟨b, rfl⟩⟩
theorem flush : Statement .flush := fun _ hv _ => ⟨carried_plain hv, .inl rfl⟩
theorem reformat : Statement .reformat := fun _ hv _ => ⟨carried_plain hv, .inl rfl⟩
theorem blockCount : Statement .blockCount := fun _ hv _ => ⟨carried_plain hv, .inl rfl⟩
theorem totalSize : Statement .totalSize := fun _ hv _ => ⟨carried_plain hv, .inl rfl⟩
theorem blockSize : Statement .blockSize := fun _ hv _ => ⟨carried_plain hv, .inl rfl⟩
theorem supportsDma : Statement .supportsDma := fun _ hv _ => ⟨carried_plain hv, .inl rfl⟩
theorem isBusy : Statement .isBusy := fun _ hv _ => ⟨carried_plain hv, .inl rfl⟩
theorem reservedA : Statement .reservedA := fun _ hv _ => ⟨carried_plain hv, .inl rfl⟩
theorem reservedB : Statement .reservedB := fun _ hv _ => ⟨carried_plain hv, .inl rfl⟩
theorem reservedC : Statement .reservedC := fun _ hv _ => ⟨carried_plain hv, .inl rfl⟩
theorem reservedD : Statement .reservedD := fun _ hv _ => ⟨carried_plain hv, .inl rfl⟩
theorem reservedE : Statement .reservedE := fun _ hv _ => ⟨carried_plain hv, .inl rfl⟩
theorem reservedF : Statement .reservedF := fun _ hv _ => ⟨carried_plain hv, .inl rfl⟩

end Carried

end Sys2Proof.Laws
end

