-- ==== Sys2Proof/Laws/Restart.lean ====
section
/-! SUPPORT. Reset and loss of power: what a cut transaction can do to the chip, and what is left of the flash. -/

namespace Sys2Proof.Machine

variable {s : State}

/-- What a command other than a program does to the flash content when it takes effect. -/
theorem command_mem {c : Config} {k k' : Chip} {t : Txn} {d : Nat} (hp : t.op ≠ c.opPp)
    (h : k.command c t d = .ok k') :
    (k'.mem = k.mem ∧ k'.busy = k.busy) ∨
    (k'.busy = .other ∧
      ((t.op = c.opSe4k ∧ t.count = 3 ∧ k'.mem = (k.erased t.address 4096 d).mem) ∨
      (t.op ≠ c.opSe4k ∧ t.op = c.opBe32k ∧ t.count = 3 ∧ k'.mem = (k.erased t.address 32768 d).mem) ∨
      (t.op ≠ c.opSe4k ∧ t.op ≠ c.opBe32k ∧ t.op = c.opBe64k ∧ t.count = 3 ∧
        k'.mem = (k.erased t.address 65536 d).mem) ∨
      (t.op ≠ c.opSe4k ∧ t.op ≠ c.opBe32k ∧ t.op ≠ c.opBe64k ∧ t.op = c.opCe ∧ t.count = 0 ∧ k'.mem = []))) := by
  have now : ∀ {g}, k.eraseNow t.address g d = .ok k' → k'.busy = .other ∧ k'.mem = (k.erased t.address g d).mem := by
    intro g h
    unfold Chip.eraseNow at h
    split_ifs at h
    cases h; exact ⟨rfl, rfl⟩
  have all : k.eraseAllNow = .ok k' → k'.busy = .other ∧ k'.mem = [] := by
    intro h
    unfold Chip.eraseAllNow at h
    split_ifs at h
    cases h; exact ⟨rfl, rfl⟩
  unfold Chip.command Chip.cutShort at h
  simp only at h
  by_cases h1 : t.op = c.opSe4k
  · by_cases h0 : t.op = c.opWren
    · rw [if_pos h0] at h; split_ifs at h; cases h; exact .inl ⟨rfl, rfl⟩
    · rw [if_neg h0, if_neg hp, if_pos h1] at h
      split_ifs at h with hc
      exact .inr ⟨(now h).1, .inl ⟨h1, hc, (now h).2⟩⟩
  by_cases h2 : t.op = c.opBe32k
  · by_cases h0 : t.op = c.opWren
    · rw [if_pos h0] at h; split_ifs at h; cases h; exact .inl ⟨rfl, rfl⟩
    · rw [if_neg h0, if_neg hp, if_neg h1, if_pos h2] at h
      split_ifs at h with hc
      exact .inr ⟨(now h).1, .inr (.inl ⟨h1, h2, hc, (now h).2⟩)⟩
  by_cases h3 : t.op = c.opBe64k
  · by_cases h0 : t.op = c.opWren
    · rw [if_pos h0] at h; split_ifs at h; cases h; exact .inl ⟨rfl, rfl⟩
    · rw [if_neg h0, if_neg hp, if_neg h1, if_neg h2, if_pos h3] at h
      split_ifs at h with hc
      exact .inr ⟨(now h).1, .inr (.inr (.inl ⟨h1, h2, h3, hc, (now h).2⟩))⟩
  by_cases h4 : t.op = c.opCe
  · by_cases h0 : t.op = c.opWren
    · rw [if_pos h0] at h; split_ifs at h; cases h; exact .inl ⟨rfl, rfl⟩
    · rw [if_neg h0, if_neg hp, if_neg h1, if_neg h2, if_neg h3, if_pos h4] at h
      split_ifs at h with hc
      exact .inr ⟨(all h).1, .inr (.inr (.inr ⟨h1, h2, h3, h4, hc, (all h).2⟩))⟩
  rw [if_neg hp, if_neg h1, if_neg h2, if_neg h3, if_neg h4] at h
  split_ifs at h <;> cases h <;> exact .inl ⟨rfl, rfl⟩

/-- What a cut leaves of the flash content and of the busy condition: as they were, or changed in the bytes `cutReach`
names. -/
inductive CutLeaves (s : State) : Memory → ChipBusy → Prop where
  | same : CutLeaves s s.chip.mem s.chip.busy
  | page {p : Nat} {b : ChipBusy} {y : Txn} : s.chip.txn = some y → y.op = s.cfg.opPp →
      cutReach s = some (p, s.cfg.pageSize) → b = .programming p ∨ b = .ready →
      CutLeaves s (Memory.spoil s.cfg.erasedByte s.chip.mem p s.cfg.pageSize s.draws) b
  | region {p g : Nat} : cutReach s = some (p, g) → CutLeaves s (Memory.erase s.chip.mem p g) .other
  | stray : CutLeaves s s.chip.mem .other
  | all : cutReach s = some (0, flashSize s) → CutLeaves s [] .other

theorem CutLeaves.erased {a g : Nat} (h : cutReach s = eraseReach s a g) :
    CutLeaves s (s.chip.erased a g s.draws).mem .other := by
  unfold eraseReach at h
  unfold Chip.erased
  dsimp only
  cases hr : s.chip.regionTarget a g s.draws with
  | none => exact .stray
  | some p => rw [hr] at h; exact .region h

theorem chipAfterCut_leaves (s : State) : CutLeaves s (chipAfterCut s).mem (chipAfterCut s).busy := by
  unfold chipAfterCut
  split
  next hcs =>
    unfold Chip.cut
    split
    · exact .same
    next hk =>
      have hk : s.chip.kind ≠ .absent := by simpa using hk
      split
      · exact .same
      next t ht =>
        have reach : cutReach s = if t.op = s.cfg.opPp then
            if 3 ≤ t.count then (s.chip.pageTarget s.cfg t.address s.draws).map fun p => (p, s.cfg.pageSize) else none
          else if t.op = s.cfg.opSe4k ∧ t.count = 3 then eraseReach s t.address 4096
          else if t.op = s.cfg.opBe32k ∧ t.count = 3 then eraseReach s t.address 32768
          else if t.op = s.cfg.opBe64k ∧ t.count = 3 then eraseReach s t.address 65536
          else if t.op = s.cfg.opCe ∧ t.count = 0 then some (0, flashSize s)
          else none := by
          unfold cutReach
          rw [if_neg (by simp [hcs, hk]), ht]
        split
        next hop =>
          rw [if_pos hop] at reach
          split
          next hc =>
            rw [if_pos hc] at reach
            unfold Chip.programCut
            split
            next p hp =>
              rw [hp] at reach
              refine .page ht hop reach ?_
              dsimp only
              split
              · exact .inl rfl
              · exact .inr rfl
            · exact .same
          · exact .same
        next hop =>
          rw [if_neg hop] at reach
          split
          next k' hk' =>
            split
            · rcases command_mem hop hk' with ⟨h1, h2⟩ | ⟨hb, h⟩
              · rw [h1, h2]; exact .same
              · rw [hb]
                rcases h with ⟨h1, hc, hm⟩ | ⟨h1, h2, hc, hm⟩ | ⟨h1, h2, h3, hc, hm⟩ | ⟨h1, h2, h3, h4, hc, hm⟩ <;>
                  rw [hm]
                · exact .erased (by rw [reach, if_pos ⟨h1, hc⟩])
                · exact .erased (by rw [reach, if_neg (fun x => h1 x.1), if_pos ⟨h2, hc⟩])
                · exact .erased (by rw [reach, if_neg (fun x => h1 x.1), if_neg (fun x => h2 x.1), if_pos ⟨h3, hc⟩])
                · exact .all (by
                    rw [reach, if_neg (fun x => h1 x.1), if_neg (fun x => h2 x.1), if_neg (fun x => h3 x.1),
                      if_pos ⟨h4, hc⟩])
            · exact .same
          · exact .same
  · exact .same

/-- A cut that reaches no byte leaves the flash content as it was. -/
theorem chipAfterCut_mem (h : cutReach s = none) : (chipAfterCut s).mem = s.chip.mem := by
  have := chipAfterCut_leaves s
  generalize (chipAfterCut s).mem = m, (chipAfterCut s).busy = b at *
  cases this with
  | same => rfl
  | stray => rfl
  | page _ _ hr => rw [h] at hr; cases hr
  | region hr => rw [h] at hr; cases hr
  | all hr => rw [h] at hr; cases hr

/-- A cut changes no byte outside its reach. -/
theorem chipAfterCut_read (hw : FlashWf s) {x : Nat} (hx : x < flashSize s)
    (h : ∀ r, cutReach s = some r → x < r.1 ∨ r.1 + r.2 ≤ x) :
    Memory.read s.cfg.erasedByte (chipAfterCut s).mem x = flash s x := by
  have := chipAfterCut_leaves s
  generalize (chipAfterCut s).mem = m, (chipAfterCut s).busy = b at *
  unfold flash
  cases this with
  | same => rfl
  | stray => rfl
  | page _ _ hr => exact Memory.read_spoil_other hw (h _ hr)
  | region hr => rw [Memory.read_erase, if_neg (by have := h _ hr; omega)]
  | all hr => have := h _ hr; simp only at this; omega

/-- A cut of anything but a program leaves each byte as it was or erased. -/
theorem chipAfterCut_read_or (h : ∀ y, s.chip.txn = some y → y.op ≠ s.cfg.opPp) (x : Nat) :
    Memory.read s.cfg.erasedByte (chipAfterCut s).mem x = flash s x ∨
      Memory.read s.cfg.erasedByte (chipAfterCut s).mem x = s.cfg.erasedByte := by
  have := chipAfterCut_leaves s
  generalize (chipAfterCut s).mem = m, (chipAfterCut s).busy = b at *
  unfold flash
  cases this with
  | same => exact .inl rfl
  | stray => exact .inl rfl
  | page ht ho => exact absurd ho (h _ ht)
  | region => rw [Memory.read_erase]; split <;> simp
  | all => exact .inr rfl

/-- A chip that is programming after a cut was before, or the cut was of that program. -/
theorem chipAfterCut_busy {p : Nat} (h : (chipAfterCut s).busy = .programming p) :
    s.chip.busy = .programming p ∨
      cutReach s = some (p, s.cfg.pageSize) ∧ ∃ y, s.chip.txn = some y ∧ y.op = s.cfg.opPp := by
  have := chipAfterCut_leaves s
  rw [h] at this
  generalize (chipAfterCut s).mem = m at *
  generalize hb : ChipBusy.programming p = b at this
  cases this with
  | same => exact .inl rfl
  | stray => cases hb
  | page ht ho hr hb' =>
    rcases hb' with rfl | rfl
    · cases hb; exact .inr ⟨hr, _, ht, ho⟩
    · cases hb
  | region => cases hb
  | all => cases hb

/-- The return of power spoils the page being programmed, and no other byte. -/
theorem powerUp_read {c : Config} {k : Chip} {d x : Nat} (hw : Memory.wf c.erasedByte k.mem)
    (h : ∀ p, k.busy = .programming p → x < p ∨ p + c.pageSize ≤ x) :
    Memory.read c.erasedByte (k.powerUp c d).mem x = Memory.read c.erasedByte k.mem x := by
  unfold Chip.powerUp
  split
  · rfl
  · dsimp only
    split
    next p hp => exact Memory.read_spoil_other hw (h p hp)
    · rfl

/-- A reset or a loss of power leaves the block in its reset state (R40). -/
theorem restarted {k : Chip} (hk : k.kind = s.chip.kind) (d : Nat) : Restarted s (blockReset k d s) :=
  ⟨rfl, rfl, rfl, rfl, rfl, rfl, rfl, hk, rfl, rfl, rfl⟩

end Sys2Proof.Machine
end

