-- ==== Sys2Proof/Laws/Separation.lean ====
section
/-! SUPPORT. The driver depends on nothing but the bus port (R150): what it does in two states that differ only in the
cache, the guard and the device record. -/

namespace Sys2Proof.Machine

/-- Progress with its state changed. -/
def Progress.mapState (f : State → State) : Progress → Progress
  | .go s => .go (f s)
  | .again m s => .again m (f s)
  | .giveUp s => .giveUp (f s)
  | .stop e => .stop e

/-- The end of a run with its state changed. -/
def Drive.mapState (f : State → State) : Drive → Drive
  | .done s => .done (f s)
  | .paused m s => .paused m (f s)
  | .gaveUp s => .gaveUp (f s)
  | .stopped e => .stopped e

variable {s b : State}

theorem answerByte_withBlockOf (kept : Bool) (a : Answer) :
    answerByte kept a (s.withBlockOf b) = ((answerByte kept a s).1, (answerByte kept a s).2.withBlockOf b) := by
  cases a <;> cases kept <;> rfl

theorem busXfer_error {kept : Bool} {out : Byte} {e : Refusal} (h1 : s.cs = true)
    (h2 : (busyAtOpcode out s).chip.take (busyAtOpcode out s).cfg out = .error e) : busXfer kept out s = .error e := by
  unfold busXfer transfer; simp [h1, h2]

/-- A transfer the chip takes. -/
theorem busXfer_done {kept : Bool} {out : Byte} {a : Answer} {k : Chip} (h1 : s.cs = true)
    (h2 : (busyAtOpcode out s).chip.take (busyAtOpcode out s).cfg out = .ok (a, k)) :
    let r := answerByte kept a { busyAtOpcode out s with chip := k }
    busXfer kept out s = .ok { r.2 with
      rx := if kept then r.2.rx ++ [r.1] else r.2.rx, history := .x out r.1 :: r.2.history } := by
  unfold busXfer transfer; simp [h1, h2]

theorem busyAtOpcode_withBlockOf (out : Byte) :
    busyAtOpcode out (s.withBlockOf b) = (busyAtOpcode out s).withBlockOf b := by
  unfold busyAtOpcode
  rw [apply_ite fun t : State => t.withBlockOf b]
  rfl

theorem busXfer_withBlockOf (kept : Bool) (out : Byte) :
    onBus (busXfer kept out (s.withBlockOf b)) =
      (onBus (busXfer kept out s)).mapState fun t => t.withBlockOf b := by
  by_cases hcs : s.cs = true
  · have ho := busyAtOpcode_withBlockOf (s := s) (b := b) out
    rcases htk : (busyAtOpcode out s).chip.take (busyAtOpcode out s).cfg out with e | ⟨a, k⟩
    · rw [busXfer_error hcs htk, busXfer_error (s := s.withBlockOf b) hcs (by rw [ho]; exact htk)]; rfl
    · rw [busXfer_done hcs htk, busXfer_done (s := s.withBlockOf b) hcs (by rw [ho]; exact htk), ho,
        show ({ (busyAtOpcode out s).withBlockOf b with chip := k } : State)
          = ({ busyAtOpcode out s with chip := k } : State).withBlockOf b from rfl,
        answerByte_withBlockOf]
      rfl
  · unfold busXfer
    simp [hcs]; rfl

/-- A micro-operation of the driver does the same in both. -/
theorem perform_withBlockOf {m : Micro} (hm : isDriver m = true) :
    perform m (s.withBlockOf b) = (perform m s).mapState fun t => t.withBlockOf b := by
  cases m <;> simp only [isDriver, Bool.false_eq_true] at hm <;> simp only [perform]
  case sel =>
    unfold busSelect
    rcases hcs : s.cs with _ | _ <;> simp [hcs] <;> rfl
  case des =>
    unfold busDeselect
    rcases hcs : s.cs with _ | _ <;> rcases hr : s.chip.release s.cfg s.draws with e | k <;> simp [hcs, hr] <;> rfl
  case send => exact busXfer_withBlockOf _ _
  case recv => exact busXfer_withBlockOf _ _
  case untilReady n =>
    unfold waitTest
    rw [show polledStatus (s.withBlockOf b) = polledStatus s from rfl]
    simp only [withBlockOf_cfg]
    split
    · rfl
    · rcases s.cfg.pollLimit with _ | k
      · rfl
      · simp only; split <;> rfl
  case refuse => rfl

theorem tick_withBlockOf : tick (s.withBlockOf b) = (tick s).withBlockOf b := by
  unfold tick
  simp only [withBlockOf_inbox]
  split <;> rfl

/-- A run of the driver ends the same in both. -/
theorem drive_withBlockOf {prog : List Micro} (hp : ∀ m ∈ prog, isDriver m = true) :
    drive prog (s.withBlockOf b) = (drive prog s).mapState fun t => t.withBlockOf b := by
  induction prog generalizing s with
  | nil => rfl
  | cons m rest ih =>
    rw [drive, drive, show interrupted (s.withBlockOf b) = interrupted s from rfl, tick_withBlockOf,
      perform_withBlockOf (hp m (by simp))]
    split
    · rfl
    · rcases perform m (tick s) with u | ⟨more, u⟩ | u | e
      · exact ih fun x hx => hp x (List.mem_cons_of_mem _ hx)
      · rfl
      · rfl
      · rfl

end Sys2Proof.Machine
end

