-- ==== Sys2Proof/Machine/Text.lean ====
section
/-! DEFINITION. The textual syntax of host programs, results and bus traces (30_encoding.md R105, D38), as lists of
characters. It gives no instruction a meaning. The abbreviations for repeated bytes and repeated lines are not used:
each byte and each line is written out. -/

namespace Sys2Proof.Machine

namespace Text

/-- A hexadecimal digit; a value above 15 is not one, and is written as the last digit. -/
def hexDigit (n : Nat) : Char :=
  ['0', '1', '2', '3', '4', '5', '6', '7', '8', '9', 'A', 'B', 'C', 'D', 'E', 'F'].getD n 'F'

/-- A byte as two hexadecimal digits. -/
def hexByte (b : Byte) : List Char := [hexDigit (b.toNat / 16), hexDigit (b.toNat % 16)]

/-- Bytes with a space between them. -/
def hexBytes : List Byte → List Char
  | [] => []
  | [b] => hexByte b
  | b :: rest => hexByte b ++ ' ' :: hexBytes rest

/-- A 24-bit address after `0x`, as R105's example writes it. -/
def hexAddr (a : Addr) : List Char := ['0', 'x'] ++ (addrBytes a).flatMap hexByte

/-- The decimal digits of a number below `10 ^ fuel`, most significant first. -/
def decimalFrom : Nat → Nat → List Char
  | 0, _ => []
  | fuel + 1, n => if n < 10 then [hexDigit n] else decimalFrom fuel (n / 10) ++ [hexDigit (n % 10)]

/-- A number of up to 32 bits in decimal. -/
def decimal (n : Nat) : List Char := decimalFrom 10 n

/-- The name of an instruction in a program or a trace (R97, R101, R105). -/
def name : Instr → List Char
  | .wren => ['W', 'R', 'E', 'N']
  | .pp _ _ => ['P', 'P']
  | .read _ _ => ['R', 'E', 'A', 'D']
  | .rdsr1 => ['R', 'D', 'S', 'R', '1']
  | .se4k _ => ['S', 'E', '4', 'K']
  | .be32k _ => ['B', 'E', '3', '2', 'K']
  | .be64k _ => ['B', 'E', '6', '4', 'K']
  | .ce => ['C', 'E']
  | .rdid => ['R', 'D', 'I', 'D']
  | .rduid => ['R', 'D', 'U', 'I', 'D']
  | .init => ['I', 'N', 'I', 'T', 'I', 'A', 'L', 'I', 'Z', 'E']
  | .readBlock _ => ['R', 'E', 'A', 'D', '_', 'B', 'L', 'O', 'C', 'K']
  | .writeBlock _ _ => ['W', 'R', 'I', 'T', 'E', '_', 'B', 'L', 'O', 'C', 'K']
  | .flush => ['F', 'L', 'U', 'S', 'H']
  | .reformat => ['R', 'E', 'F', 'O', 'R', 'M', 'A', 'T']
  | .blockCount => ['B', 'L', 'O', 'C', 'K', '_', 'C', 'O', 'U', 'N', 'T']
  | .totalSize => ['T', 'O', 'T', 'A', 'L', '_', 'S', 'I', 'Z', 'E']
  | .blockSize => ['B', 'L', 'O', 'C', 'K', '_', 'S', 'I', 'Z', 'E']
  | .supportsDma => ['S', 'U', 'P', 'P', 'O', 'R', 'T', 'S', '_', 'D', 'M', 'A']
  | .isBusy => ['I', 'S', '_', 'B', 'U', 'S', 'Y']
  | .reservedA => ['R', 'E', 'S', 'E', 'R', 'V', 'E', 'D', '_', 'A']
  | .reservedB => ['R', 'E', 'S', 'E', 'R', 'V', 'E', 'D', '_', 'B']
  | .reservedC => ['R', 'E', 'S', 'E', 'R', 'V', 'E', 'D', '_', 'C']
  | .reservedD => ['R', 'E', 'S', 'E', 'R', 'V', 'E', 'D', '_', 'D']
  | .reservedE => ['R', 'E', 'S', 'E', 'R', 'V', 'E', 'D', '_', 'E']
  | .reservedF => ['R', 'E', 'S', 'E', 'R', 'V', 'E', 'D', '_', 'F']

/-- A request of a host program; the data of a WRITE_BLOCK goes by the name its writer gives it. -/
def request (payload : List Char) (i : Instr) : List Char :=
  match i with
  | .readBlock blk => name i ++ ' ' :: decimal blk.toNat
  | .writeBlock blk _ => name i ++ ' ' :: decimal blk.toNat ++ [',', ' '] ++ payload
  | _ => name i

/-- The results of a request: the fields that are meaningful for it (R36), a status first. -/
def results (payload : List Char) (i : Instr) (r : Response) : List (List Char) :=
  let status := ['-', '>', ' ', 's', 't', 'a', 't', 'u', 's', '='] ++ decimal r.status.toNat
  let value := ['-', '>', ' ', 'v', 'a', 'l', 'u', 'e', '='] ++ decimal r.value.toNat
  match i with
  | .init => [status]
  | .readBlock _ => [status, ['-', '>', ' ', 'r', 'd', 'a', 't', 'a', '='] ++ payload]
  | .writeBlock _ _ => [status]
  | .blockCount => [value]
  | .totalSize => [value]
  | .blockSize => [value]
  | .supportsDma => [value]
  | .isBusy => [value]
  | _ => []

/-- How many of the bytes a command receives are kept: the last ones of its transaction (R90). -/
def keptCount : Instr → Nat
  | .read _ n => n
  | .rdsr1 => 1
  | .rdid => 2
  | .rduid => 8
  | _ => 0

/-- The address a command carries (R90). -/
def address : Instr → List Char
  | .pp a _ => ' ' :: hexAddr a
  | .read a _ => ' ' :: hexAddr a
  | .se4k a => ' ' :: hexAddr a
  | .be32k a => ' ' :: hexAddr a
  | .be64k a => ' ' :: hexAddr a
  | _ => []

/-- One line of a bus trace: the command, its address, the bytes sent, and the bytes kept. -/
def traceLine (i : Instr) (sent received : List Byte) : List Char :=
  let kept := received.drop (received.length - keptCount i)
  name i ++ address i ++ [' ', ':', ' '] ++ hexBytes sent ++ [' ', '/', ' '] ++ hexBytes kept

/-- The transactions of a history, newest first (an open one too, log 31), each as the bytes sent and the bytes received;
the pair is that of the transaction being read. -/
def exchangesFrom : List BusEvent → List Byte × List Byte → List (List Byte × List Byte)
  | [], _ => []
  | .des :: h, _ => exchangesFrom h ([], [])
  | .x out inn :: h, p => exchangesFrom h (out :: p.1, inn :: p.2)
  | .sel :: h, p => p :: exchangesFrom h ([], [])

/-- The bus trace of the run so far, one transaction per line. -/
def busTrace (s : State) : List (List Char) :=
  (exchangesFrom s.history ([], [])).reverse.filterMap fun e =>
    match decode s.cfg (.wire e.1) with
    | .ok i => some (traceLine i e.1 e.2)
    | .error _ => none

end Text

end Sys2Proof.Machine
end

