-- ==== Sys2Proof/Tests/Slice0.lean ====
section
/-! SUPPORT. The model's own tests: ill-formed terms, words written out from the spec's encodings, one step of each
instruction, and for each statement with hypotheses a state and operands that meet them. The expected results come from
the rules named in each comment. -/

namespace Sys2Proof.Tests

open Sys2Proof Sys2Proof.Machine

/-! ### Small states -/

/-- A next state with this property. -/
def after (r : Host.Outcome State Fault Refusal) (p : State → Bool) : Bool :=
  match r with
  | .next t => p t
  | .fault _ => false
  | .refused _ => false

theorem next_of_after {r : Host.Outcome State Fault Refusal} {p : State → Bool} (h : after r p = true) :
    ∃ t, r = .next t := by
  unfold after at h
  split at h
  · exact ⟨_, rfl⟩
  · cases h
  · cases h

/-- Parameters with pages of two bytes, so that a step is short. -/
def small : Config := { pageSize := 2 }

/-- Parameters with 16-bit block numbers, two host codes exchanged for unassigned ones, and the statuses exchanged. -/
def narrow : Config :=
  { blkBits := 16, codeInit := 0xC, codeFlush := 0xA, statusSuccess := 1, statusFailure := 0, capacityBits := 24 }

/-- The reset state with the chip write-enabled. -/
def enabled : State := { State.reset with chip := { Chip.fresh with wel := true } }

/-- The reset state with a chip that is programming its first page. -/
def programming : State := { State.reset with chip := { Chip.fresh with busy := .programming 0 } }

/-- The reset state with no chip on the bus, and the two bytes the environment will return. -/
def noChip (h l : Byte) : State := { State.reset with chip := { Chip.fresh with kind := .absent }, choices := [h, l] }

/-- The reset state after the 1 MiB part was detected, every poll to come reading ready. -/
def detected : State :=
  { State.reset with
    deviceId := 0xEF13, capacity := 1048576, pageCount := 4096, initialized := true, choices := List.replicate 40 0 }

/-- That state with the last sector cached and written to. -/
def dirtied : State := { detected with loaded := true, dirty := true, sectorNumber := 255 }

/-- Pages of two bytes, the first sector cached with these first bytes. -/
def cached : State :=
  { detected with
    cfg := small, pageCount := 524288, loaded := true, buffer := [0x10, 0x11, 0x12, 0x13, 0x20, 0x21, 0x22, 0x23] }

/-- A REFORMAT in its busy-wait, after one poll that read busy. -/
def waiting : State :=
  { detected with
    chip := { Chip.fresh with busy := .other }
    seq := .run .reformat (Driver.poll Config.default 1 ++ [.invalidate]), choices := [0x01, 0xFF] }

/-- A READ of which the opcode has been sent. -/
def reading : State :=
  { State.reset with cs := true, chip := { Chip.fresh with txn := some { op := 0x03, count := 0, addr := [], data := [] } } }

/-- A PP of which the opcode and these address bytes have been sent, with pages of two bytes. -/
def writing (addr : List Byte) : State :=
  { State.reset with
    cfg := small, cs := true
    chip := { Chip.fresh with wel := true, txn := some { op := 0x02, count := addr.length, addr := addr, data := [] } } }

/-- Data of one page, and of one block. -/
def page : List Byte := List.replicate 256 0xAB
def block : List Byte := List.replicate 512 0xCD

theorem length_page : page.length = 256 := List.length_replicate
theorem length_block : block.length = 512 := List.length_replicate

/-! ### Ill-formed terms (WellFormed.lean) -/

theorem test_wf_pp_misaligned : (Instr.pp 0x000003 [0xAA, 0xBB]).wf small = false := by decide
theorem test_wf_pp_short : (Instr.pp 0x000002 [0xAA]).wf small = false := by decide
theorem test_wf_se4k : (Instr.se4k 0x000800).wf Config.default = false := by decide
theorem test_wf_be32k : (Instr.be32k 0x001000).wf Config.default = false := by decide
theorem test_wf_be64k : (Instr.be64k 0x008000).wf Config.default = false := by decide
theorem test_wf_writeBlock : (Instr.writeBlock 0 [0xAA, 0xBB, 0xCC]).wf small = false := by decide
theorem test_wf_block_number :
    (Instr.readBlock 65536).wf narrow = false ∧ (Instr.writeBlock 65536 [1, 2, 3, 4]).wf { narrow with pageSize := 2 } = false := by
  decide
theorem test_wf_accepts :
    (Instr.pp 0x000002 [0xAA, 0xBB]).wf small = true ∧ (Instr.be64k 0x010000).wf Config.default = true ∧
      (Instr.writeBlock 7 [1, 2, 3, 4]).wf small = true ∧ (Instr.read 0x000001 5).wf small = true := by decide

/-! ### Words written out bit by bit: R97's opcodes in R90's formats, R101's codes in R100's word -/

theorem test_decode_wren : decodeTableWord 8 0b00000110 = some .wren := by decide
theorem test_decode_pp :
    decode small (.wire [0b00000010, 0x00, 0x11, 0x02, 0xAA, 0xBB]) = .ok (.pp 0x001102 [0xAA, 0xBB]) := by decide
theorem test_decode_read :
    decode Config.default (.wire [0b00000011, 0x0F, 0xFE, 0x01, 0x00, 0x00]) = .ok (.read 0x0FFE01 2) := by decide
theorem test_decode_rdsr1 : decode Config.default (.wire [0b00000101, 0x00]) = .ok .rdsr1 := by decide
theorem test_decode_se4k :
    decode Config.default (.wire [0b00100000, 0x0F, 0xF0, 0x00]) = .ok (.se4k 0x0FF000) := by decide
theorem test_decode_be32k :
    decode Config.default (.wire [0b01010010, 0x0F, 0x80, 0x00]) = .ok (.be32k 0x0F8000) := by decide
theorem test_decode_be64k :
    decode Config.default (.wire [0b11011000, 0x0F, 0x00, 0x00]) = .ok (.be64k 0x0F0000) := by decide
theorem test_decode_ce : decodeTableWord 8 0b11000111 = some .ce := by decide
theorem test_decode_rdid :
    decode Config.default (.wire [0b10010000, 0x00, 0x00, 0x00, 0x00, 0x00]) = .ok .rdid := by decide
theorem test_decode_rduid :
    decode Config.default (.wire [0b01001011, 0, 0, 0, 0, 0, 0, 0, 0, 0, 0, 0, 0]) = .ok .rduid := by decide
theorem test_decode_init : decodeTableWord 40 0x000000000 = some .init := by decide
theorem test_decode_readBlock : decodeTableWord 40 0x1000007FF = some (.readBlock 0x000007FF) := by decide
theorem test_decode_writeBlock :
    decode small (.host 0x280000001#36 [0xDE, 0xAD, 0xBE, 0xEF]) = .ok (.writeBlock 0x80000001 [0xDE, 0xAD, 0xBE, 0xEF]) := by
  decide
theorem test_decode_flush : decodeTableWord 40 0x300000000 = some .flush := by decide
theorem test_decode_reformat : decodeTableWord 40 0x4FFFFFFFF = some .reformat := by decide
theorem test_decode_blockCount : decodeTableWord 40 0x500000000 = some .blockCount := by decide
theorem test_decode_totalSize : decodeTableWord 40 0x600000000 = some .totalSize := by decide
theorem test_decode_blockSize : decodeTableWord 40 0x700000000 = some .blockSize := by decide
theorem test_decode_supportsDma : decodeTableWord 40 0x800000000 = some .supportsDma := by decide
theorem test_decode_isBusy : decodeTableWord 40 0x900000000 = some .isBusy := by decide
theorem test_decode_reserved :
    decodeTableWord 40 0xA00000000 = some .reservedA ∧ decodeTableWord 40 0xB00000000 = some .reservedB ∧
      decodeTableWord 40 0xC00000000 = some .reservedC ∧ decodeTableWord 40 0xD00000000 = some .reservedD ∧
      decodeTableWord 40 0xE00000000 = some .reservedE ∧ decodeTableWord 40 0xF00000000 = some .reservedF := by decide
theorem test_decode_rejects :
    decode small (.wire []) = .error .emptyFrame ∧ decode small (.wire [0xFF]) = .error .unknownOpcode ∧
      decode small (.wire [0x06, 0x00]) = .error .wrongLength ∧ decode small (.wire [0x20, 0x00, 0x10]) = .error .wrongLength ∧
      decode small (.wire [0x02, 0x00, 0x00, 0x00, 0xAA]) = .error .wrongLength ∧
      decode small (.wire [0x05, 0x01]) = .error .wrongFiller ∧ decodeTableWord 40 0x1000000000 = none := by decide

/-- R6: the codes and the width of a block number are parameters; 0 and 3 are then the first two codes without an
operation (R103). -/
theorem test_decode_parameters :
    decode narrow (.host 0x1FFFF#36 []) = .ok (.readBlock 0xFFFF) ∧ decode narrow (.host 0xA0000#36 []) = .ok .flush ∧
      decode narrow (.host 0xC0000#36 []) = .ok .init ∧ decode narrow (.host 0x00000#36 []) = .ok .reservedA ∧
      decode narrow (.host 0x30000#36 []) = .ok .reservedB ∧ decode narrow (.host 0xF0000#36 []) = .ok .reservedF ∧
      decode narrow (.host 0x100000#36 []) = .error .wrongLength := by decide

/-! ### One step of each instruction -/

/-- R121, R90: one transaction of one byte; log 5. -/
theorem test_wren : after (exec .wren State.reset) (fun t => t.chip.wel && frames t == [[0x06]]) = true := by decide

/-- R122, R75, R77: the erased bytes take the data, the next one stays erased, the chip is busy. -/
theorem test_pp :
    after (exec (.pp 0x001102 [0xAA, 0xBB]) { enabled with cfg := small }) (fun t =>
      flash t 0x001102 == 0xAA && flash t 0x001103 == 0xBB && flash t 0x001104 == 0xFF && !(t.chip.busy == .ready)) = true := by
  decide

/-- R62, R122: at an address the chip does not have the command is sent and the chip is busy (log 15). -/
theorem test_pp_absent :
    after (exec (.pp 0x100000 [0xAA, 0xBB]) { enabled with cfg := small }) (fun t =>
      frames t == [[0x02, 0x10, 0x00, 0x00, 0xAA, 0xBB]] && t.chip.busy == .other && t.cs == false) = true := by decide

/-- R123, R76: from the last byte but one of a region, across it. -/
theorem test_read :
    after (exec (.read 0x0000FF 3)
      { State.reset with chip := { Chip.fresh with mem := [(0xFF, 0x12), (0x101, 0x34)] } }) (fun t =>
      t.result == .bytes [0x12, 0xFF, 0x34] && frames t == [[0x03, 0x00, 0x00, 0xFF, 0x00, 0x00, 0x00]]) = true := by decide

/-- R77, R95: a ready chip reads bit 0 as 0 whatever the other bits are. -/
theorem test_rdsr1_ready :
    after (exec .rdsr1 { State.reset with choices := [0x81] }) (fun t => t.result == .bytes [0x80]) = true := by decide

/-- R77: a busy chip whose bit 0 the environment reads as 1 stays busy. -/
theorem test_rdsr1_busy :
    after (exec .rdsr1 { programming with choices := [0x01, 0x00] }) (fun t =>
      t.result == .bytes [0x01] && t.chip.busy == .programming 0 && t.choices == [0x00]) = true := by decide

/-- R74, R125: the bytes of the region and no others. -/
theorem test_se4k :
    after (exec (.se4k 0x001000)
      { enabled with chip := { enabled.chip with mem := [(0xFFF, 1), (0x1000, 2), (0x1FFF, 3), (0x2000, 4)] } }) (fun t =>
      t.chip.mem == [(0xFFF, 1), (0x2000, 4)] && frames t == [[0x20, 0x00, 0x10, 0x00]]) = true := by decide

/-- R74, R126. -/
theorem test_be32k :
    after (exec (.be32k 0x008000)
      { enabled with chip := { enabled.chip with mem := [(0x7FFF, 1), (0x8000, 2), (0xFFFF, 3), (0x10000, 4)] } }) (fun t =>
      t.chip.mem == [(0x7FFF, 1), (0x10000, 4)] && frames t == [[0x52, 0x00, 0x80, 0x00]]) = true := by decide

/-- R74, R127. -/
theorem test_be64k :
    after (exec (.be64k 0x010000)
      { enabled with chip := { enabled.chip with mem := [(0xFFFF, 1), (0x10000, 2), (0x1FFFF, 3), (0x20000, 4)] } }) (fun t =>
      t.chip.mem == [(0xFFFF, 1), (0x20000, 4)] && frames t == [[0xD8, 0x01, 0x00, 0x00]]) = true := by decide

/-- R74, R128: the whole array. -/
theorem test_ce :
    after (exec .ce { enabled with chip := { enabled.chip with mem := [(0, 1), (0xFFFFF, 2)] } }) (fun t =>
      t.chip.mem == [] && frames t == [[0xC7]]) = true := by decide

/-- R129, R79: the 8 MiB part's identifier, high byte first, after three address bytes of zero. -/
theorem test_rdid :
    after (exec .rdid { State.reset with chip := { Chip.fresh with kind := .partB } }) (fun t =>
      t.result == .identifier 0xEF16 && frames t == [[0x90, 0, 0, 0, 0, 0]]) = true := by decide

/-- R130: four dummies, eight answers. -/
theorem test_rduid :
    after (exec .rduid State.reset) (fun t => frames t == [[0x4B, 0, 0, 0, 0, 0, 0, 0, 0, 0, 0, 0, 0]]) = true := by decide

/-- R181, R29, R30: the 8 MiB part. -/
theorem test_init :
    after (exec .init { State.reset with chip := { Chip.fresh with kind := .partB } }) (fun t =>
      t.deviceId == 0xEF16 && t.capacity == 8388608 && t.pageCount == 32768 && t.initialized) = true := by decide

/-- R181, R201: an identifier that is none of the table's. -/
theorem test_init_unknown :
    after (exec .init (noChip 0xEF 0x14)) (fun t =>
      t.deviceId == 0xEF14 && t.capacity == 0xFFFFFFFF && !t.initialized && (t.responses.map (·.status)) == [1]) = true := by
  decide

/-- R77: the RDID of an INITIALIZE comes when the busy time is over, and when it is not (R81). -/
theorem test_init_busy :
    after (exec .init { programming with choices := [0xFE, 0x01] }) (fun t =>
      t.initialized && t.chip.busy == .ready && t.choices == [0x01]) = true ∧
    exec .init { programming with choices := [0x01] } = .refused .chipBusy := ⟨by decide, rfl⟩

/-- R6, R29: with 24 bits the sentinel is 0xFFFFFF, and the statuses are parameters. -/
theorem test_init_parameters :
    after (exec .init { noChip 0xEF 0x14 with cfg := narrow }) (fun t =>
      t.capacity == 0xFFFFFF && !t.initialized && (t.responses.map (·.status)) == [0]) = true := by decide

/-- R166, R160: the second block of the cached sector. -/
theorem test_readBlock :
    after (exec (.readBlock 1) cached) (fun t =>
      (t.responses.map (·.rdata)) == [[0x20, 0x21, 0x22, 0x23]] && (t.responses.map (·.status)) == [0] &&
        t.history == [] && !t.busy) = true := by decide

/-- R105's notation, with the bytes of vector V16: `READ 0x0000FF : 03 00 00 FF 00 00 / FF 12`. -/
theorem test_textual_syntax :
    Text.traceLine (.read 0x0000FF 2) [0x03, 0x00, 0x00, 0xFF, 0x00, 0x00] [9, 9, 9, 9, 0xFF, 0x12] =
      "READ 0x0000FF : 03 00 00 FF 00 00 / FF 12".toList ∧
    Text.request ['P'] (.writeBlock 105 []) = "WRITE_BLOCK 105, P".toList := by decide

/-- R107: the commands of a flush of sector 3 and of a load of sector 1, with two polls in every wait and two pages to a
sector, decode into the two operations. -/
theorem test_history_decodes :
    operationsFrom { pageSize := 2048 } 0 (primitivesFrom false
      [.rdid, .wren, .se4k 0x3000, .rdsr1, .rdsr1, .wren, .pp 0x3000 [], .rdsr1, .rdsr1, .wren, .pp 0x3800 [], .rdsr1,
        .rdsr1, .read 0x1000 2048, .read 0x1800 2048, .wren, .ce, .rdsr1]) =
      [.primitive .detect, .flushCache 3, .loadSector 1, .primitive .eraseChip] := by decide

/-- R165, R202: dropped while the guard is held. -/
theorem test_readBlock_busy :
    after (exec (.readBlock 1) { cached with busy := true }) (fun t =>
      (t.responses.map (·.status)) == [0] && t.history == [] && t.busy) = true := by decide

/-- R167: the second block of the cached sector. -/
theorem test_writeBlock :
    after (exec (.writeBlock 1 [0xA0, 0xA1, 0xA2, 0xA3]) cached) (fun t =>
      t.buffer == [0x10, 0x11, 0x12, 0x13, 0xA0, 0xA1, 0xA2, 0xA3] && t.dirty && t.history == [] && !t.busy) = true := by
  decide

/-- R163: nothing to do when not dirty. -/
theorem test_flush : after (exec .flush cached) (fun t => t.history == [] && t.responses.length == 1) = true := by decide

/-- R200, R202 (vector V85): dropped with success while the guard is held. -/
theorem test_flush_busy :
    after (exec .flush { cached with busy := true, dirty := true }) (fun t =>
      (t.responses.map (·.status)) == [0] && t.dirty && t.history == [] && t.busy) = true := by decide

/-- R169, R147: WREN, CE, one poll; both flags cleared. -/
theorem test_reformat :
    after (exec .reformat { cached with dirty := true, chip := { Chip.fresh with mem := [(5, 5)] } }) (fun t =>
      !t.loaded && !t.dirty && t.chip.mem == [] && frames t == [[0x06], [0xC7], [0x05, 0x00]]) = true := by decide

/-- R186: half the page count. -/
theorem test_blockCount : after (exec .blockCount detected) (fun t => (t.responses.map (·.value)) == [2048]) = true := by
  decide

/-- R187: 1 MiB. -/
theorem test_totalSize : after (exec .totalSize detected) (fun t => (t.responses.map (·.value)) == [1048576]) = true := by
  decide

/-- R188: two pages, also before INITIALIZE. -/
theorem test_blockSize : after (exec .blockSize State.reset) (fun t => (t.responses.map (·.value)) == [512]) = true := by
  decide

/-- R189. -/
theorem test_supportsDma : after (exec .supportsDma State.reset) (fun t => (t.responses.map (·.value)) == [0]) = true := by
  decide

/-- R190: the guard, while the chip is ready. -/
theorem test_isBusy :
    after (exec .isBusy { State.reset with busy := true }) (fun t => (t.responses.map (·.value)) == [1]) = true := by decide

/-- R103. -/
theorem test_reserved : exec .reservedF State.reset = .refused .reservedHostCode := rfl

/-- R32, R140: a resumed busy-wait polls once more and goes on. -/
theorem test_step_resumes :
    after (step waiting) (fun t => t.seq == .run .reformat (Driver.poll Config.default 2 ++ [.invalidate])) = true := by
  decide

/-- R230, R231: a reset in the middle of a READ, and of a PP before its address is complete. -/
theorem test_reset_midway :
    after (resetEvent { reading with chip := { reading.chip with mem := [(5, 5)] } }) (fun t =>
      !t.cs && t.chip.txn.isNone && t.chip.mem == [(5, 5)] && t.history == []) = true ∧
    after (resetEvent (writing [0x00])) (fun t => !t.cs && t.chip.txn.isNone && t.chip.mem == [] && t.seq == .idle) = true := by
  decide

/-- R216: a loss of power in the middle of the data of a PP leaves the block in its reset state. -/
theorem test_power_loss_midway :
    after (powerLossEvent { writing [0x00, 0x00, 0x02] with loaded := true, dirty := true, busy := true }) (fun t =>
      !t.cs && !t.loaded && !t.dirty && !t.busy && !t.initialized && t.seq == .idle && t.chip.kind == .partA) = true := by
  decide

/-! ### Witnesses: the hypotheses of the statements can be met -/

theorem valid_default : Config.default.Valid := by decide
theorem valid_small : small.Valid := by decide
theorem valid_narrow : narrow.Valid := by decide
theorem calm_reset : Calm State.reset := by decide
theorem wf_nil (d : Byte) : Memory.wf d [] := by simp [Memory.wf]

theorem serving_detected : Serving detected where
  calm := by decide
  chip := by decide
  initialized := rfl
  record := by decide
  size := rfl
  free := rfl
  buffer := by simp [BufferFull, detected, State.reset]
  flags := by decide
  flash := wf_nil _
  sector := by decide

theorem serving_dirtied : Serving dirtied where
  calm := by decide
  chip := by decide
  initialized := rfl
  record := by decide
  size := rfl
  free := rfl
  buffer := by simp [BufferFull, dirtied, detected, State.reset]
  flags := by decide
  flash := wf_nil _
  sector := by decide

theorem test_witness_DecodeEncodeAgree :
    Config.default.Valid ∧ (Instr.pp 0xFFFF00 page).wf Config.default = true ∧
      (Instr.writeBlock 0xFFFFFFFF block).wf Config.default = true := by
  refine ⟨valid_default, ?_, ?_⟩ <;> simp only [Instr.wf, length_page, length_block] <;> decide

theorem test_witness_WireBytesHaveOneMeaning :
    decodeWire Config.default [0xC7] = .ok .ce ∧ (0x00 : Byte) ∉ Config.default.opcodes := by decide

theorem test_witness_HostRequestsDecode :
    Config.default.Valid ∧ (0xFFFFFFFF : Word32).toNat < 2 ^ Config.default.blkBits ∧
      narrow.Valid ∧ (0xFFFF : Word32).toNat < 2 ^ narrow.blkBits ∧
      block.length = Config.default.blockSize ∧ ([] : List Byte).length ≠ Config.default.blockSize :=
  ⟨valid_default, by decide, valid_narrow, by decide, length_block, by decide⟩

theorem test_witness_ReservedCodesRefused :
    (Config.default.Valid ∧ (0xFFFFFFFF : Word32).toNat < 2 ^ Config.default.blkBits ∧
      (0xA : BitVec 4) ∉ Config.default.hostCodes ∧ (0xF : BitVec 4) ∉ Config.default.hostCodes) ∧
    (narrow.Valid ∧ (0xFFFF : Word32).toNat < 2 ^ narrow.blkBits ∧ (0x0 : BitVec 4) ∉ narrow.hostCodes) := by decide

theorem test_witness_StepRunsTheDecodedInstruction :
    cacheState State.reset ≠ none ∧ decode Config.default (.wire [0x06]) = .ok .wren ∧
      ({ State.reset with inbox := [⟨.after 0, .frame (.wire [0x06])⟩] } : State).inbox
        = ⟨.after 0, .frame (.wire [0x06])⟩ :: [] ∧
      ({ State.reset with inbox := [⟨.whenIdle, .frame (.wire [0x06])⟩] } : State).seq = .idle ∧
      decode Config.default (tableFrame Config.default 8 0x06) = .ok .wren := by decide

theorem test_witness_StepResumesTheRunningOperation :
    cacheState waiting ≠ none ∧ presented waiting = none ∧
      waiting.seq = .run .reformat (Driver.poll Config.default 1 ++ [.invalidate]) ∧
      cacheState State.reset ≠ none ∧ presented State.reset = none ∧ State.reset.seq = .idle := by decide

theorem test_witness_CacheStatesAndTheExcludedOne :
    (State.reset.loaded = false ∧ State.reset.dirty = false) ∧ (cached.loaded = true ∧ cached.dirty = false) ∧
      (dirtied.loaded = true ∧ dirtied.dirty = true) ∧
      step { State.reset with dirty := true } = .refused .excludedCacheState := ⟨by decide, by decide, by decide, rfl⟩

theorem test_witness_ResetEventKeepsTheFlash :
    (FlashWf reading ∧ cutReach reading = none ∧ ∀ y, reading.chip.txn = some y → y.op ≠ reading.cfg.opPp) ∧
    (FlashWf (writing [0, 0, 2]) ∧ cutReach (writing [0, 0, 2]) = some (2, 2) ∧ 4 < flashSize (writing [0, 0, 2]) ∧
      (4 < 2 ∨ 2 + 2 ≤ 4)) :=
  ⟨⟨wf_nil _, by decide, by intro y h; cases h; decide⟩, wf_nil _, by decide, by decide, by decide⟩

theorem test_witness_PowerLossKeepsFinishedPages :
    (FlashWf programming ∧ 256 < flashSize programming ∧ cutReach programming = none ∧
      ∀ p, programming.chip.busy = .programming p → 256 < p ∨ p + programming.cfg.pageSize ≤ 256) ∧
    (FlashWf reading ∧ reading.chip.busy = .ready ∧ ∀ y, reading.chip.txn = some y → y.op ≠ reading.cfg.opPp) :=
  ⟨⟨wf_nil _, by decide, rfl, by intro p h; cases h; decide⟩, wf_nil _, rfl, by intro y h; cases h; decide⟩

theorem test_witness_WireCommandShape : isWire .wren = true ∧ Calm State.reset ∧ ∃ t, exec .wren State.reset = .next t :=
  ⟨rfl, calm_reset, next_of_after test_wren⟩

theorem test_witness_ReadyChip :
    Calm State.reset ∧ ChipReady State.reset ∧ FlashWf State.reset ∧ State.reset.chip.kind ≠ .absent ∧
      0xFFFFFF + 2 > flashSize State.reset ∧ 0x0FFFFE + 2 ≤ flashSize State.reset := ⟨calm_reset, by decide, wf_nil _, by decide⟩

theorem test_witness_PpProgramsThePage :
    Calm enabled ∧ ChipReady enabled ∧ FlashWf enabled ∧ enabled.chip.wel = true ∧
      (Instr.pp 0x0FFF00 page).wf enabled.cfg = true ∧ (0x0FFF00 : Addr).toNat + enabled.cfg.pageSize ≤ flashSize enabled := by
  refine ⟨by decide, by decide, wf_nil _, rfl, ?_, by decide⟩
  simp only [Instr.wf, length_page]; decide

theorem test_witness_Rdsr1ReadsTheBusyBit :
    Calm programming ∧ programming.chip.kind ≠ .absent ∧ programming.chip.busy ≠ .ready ∧ State.reset.chip.busy = .ready := by
  decide

theorem test_witness_ErasesEraseTheirRegion :
    Calm enabled ∧ ChipReady enabled ∧ FlashWf enabled ∧ enabled.chip.wel = true ∧
      ((0x0FF000 : Addr).toNat % 4096 = 0 ∧ (0x0FF000 : Addr).toNat < flashSize enabled) ∧
      ((0x0F8000 : Addr).toNat % 32768 = 0 ∧ (0x0F8000 : Addr).toNat < flashSize enabled) ∧
      ((0x0F0000 : Addr).toNat % 65536 = 0 ∧ (0x0F0000 : Addr).toNat < flashSize enabled) :=
  ⟨by decide, by decide, wf_nil _, by decide⟩

theorem test_witness_WireCommandsRunWithoutAChip :
    isWire .ce = true ∧ Instr.ce.wf Config.default = true ∧ Calm (noChip 0 0) ∧ (noChip 0 0).chip.kind = .absent := by decide

theorem test_witness_MisalignedRefused :
    (0x000001 : Addr).toNat % State.reset.cfg.pageSize ≠ 0 ∧
      ((0x000100 : Addr).toNat % State.reset.cfg.pageSize = 0 ∧ ([0xAA] : List Byte).length ≠ State.reset.cfg.pageSize) ∧
      (0x000800 : Addr).toNat % 4096 ≠ 0 ∧ (0x001000 : Addr).toNat % 32768 ≠ 0 ∧ (0x008000 : Addr).toNat % 65536 ≠ 0 ∧
      (65536 ∈ Config.eraseSizes ∧ (0x008000 : Addr).toNat % 65536 ≠ 0) ∧ 8192 ∉ Config.eraseSizes := by decide

theorem test_witness_ChipRefusesWhatIsNotDescribed :
    (Calm { programming with choices := [0x01] } ∧ programming.chip.kind ≠ .absent ∧ isWire .wren = true ∧
      Instr.wren.wf programming.cfg = true ∧ programming.chip.busy ≠ .ready ∧
      statusBusy (nextAnswer { programming with choices := [0x01] }) = true ∧ Instr.wren ≠ .rdsr1) ∧
    (Calm State.reset ∧ State.reset.chip.kind ≠ .absent ∧ isWire .ce = true ∧ Instr.ce.wf State.reset.cfg = true ∧
      State.reset.chip.busy = .ready ∧ State.reset.chip.wel = false ∧ Instr.ce ∉ [.wren, .rdsr1, .rdid, .rduid]) ∧
    (∀ a n, Instr.ce ≠ .read a n) ∧
    Calm { programming with choices := [0xFE] } ∧ statusBusy (nextAnswer { programming with choices := [0xFE] }) = false ∧
      Primitive.detect ≠ .waitReady :=
  ⟨by decide, by decide, (by intro a n h; cases h), by decide, by decide, by decide⟩

theorem test_witness_AbsentAddressesRun :
    Calm enabled ∧ ChipReady enabled ∧ FlashWf enabled ∧ enabled.chip.wel = true ∧
      (Instr.pp 0x100000 page).wf enabled.cfg = true ∧
      flashSize enabled < (0x100000 : Addr).toNat + enabled.cfg.pageSize ∧ flashSize enabled ≤ (0x100000 : Addr).toNat ∧
      (0x100000 : Addr).toNat % 4096 = 0 ∧ (0x100000 : Addr).toNat % 32768 = 0 ∧ (0x100000 : Addr).toNat % 65536 = 0 ∧
      (65536, Instr.be64k 0x100000) ∈
        [(4096, Instr.se4k 0x100000), (32768, .be32k 0x100000), (65536, .be64k 0x100000)] := by
  refine ⟨by decide, by decide, wf_nil _, rfl, ?_, by decide⟩
  simp only [Instr.wf, length_page]; decide

theorem ready_detected (n : Nat) (h : n ≤ 40) : ReadyFor n detected := by
  refine ⟨by simpa [detected] using h, fun v hv => ?_⟩
  have := (List.mem_replicate.1 (List.mem_of_mem_take hv)).2
  rw [this]; decide

theorem test_witness_ProgramPageWritesAPage :
    Calm detected ∧ ChipReady detected ∧ FlashWf detected ∧ ReadyFor 1 detected ∧
      (0x0FFF00 : Addr).toNat % detected.cfg.pageSize = 0 ∧ page.length = detected.cfg.pageSize ∧
      (0x0FFF00 : Addr).toNat + detected.cfg.pageSize ≤ flashSize detected :=
  ⟨by decide, by decide, wf_nil _, ready_detected 1 (by omega), by decide, length_page, by decide⟩

theorem test_witness_ErasePrimitivesErase :
    Calm detected ∧ ChipReady detected ∧ FlashWf detected ∧ ReadyFor 1 detected ∧
      (32768, Instr.be32k 0x0F8000) ∈
        [(4096, Instr.se4k 0x0F8000), (32768, .be32k 0x0F8000), (65536, .be64k 0x0F8000)] ∧
      (0x0F8000 : Addr).toNat % 32768 = 0 ∧ (0x0F8000 : Addr).toNat < flashSize detected :=
  ⟨by decide, by decide, wf_nil _, ready_detected 1 (by omega), by decide, by decide, by decide⟩

theorem test_witness_IdentityPrimitives :
    (Calm State.reset ∧ State.reset.chip.kind = .partA ∧ State.reset.chip.busy = .ready ∧
      (0xEF13 : Word16) = State.reset.cfg.idA) ∧
    (Calm { State.reset with chip := { Chip.fresh with kind := .partB } } ∧ (0xEF16 : Word16) = State.reset.cfg.idB) ∧
    (Calm (noChip 0xEF 0x14) ∧ (noChip 0xEF 0x14).chip.kind = .absent ∧
      (noChip 0xEF 0x14).choices = 0xEF :: 0x14 :: [] ∧ (0xEF14 : Word16) = (0xEF : Byte) ++ (0x14 : Byte)) := by decide

theorem test_witness_PrimitivesLeaveTheCacheAlone : ∃ t, callPrimitive .detect State.reset = .next t :=
  next_of_after (p := fun _ => true) (by decide)

theorem test_witness_InitializeDetectsThePart :
    (Calm State.reset ∧ ChipTakes State.reset ∧ State.reset.initialized = false ∧ State.reset.busy = false) ∧
    (Calm { programming with choices := [0x00] } ∧ ChipTakes { programming with choices := [0x00] } ∧
      programming.chip.busy ≠ .ready ∧ programming.initialized = false ∧ programming.busy = false) ∧
    (quiet { waiting with choices := [0x00] } = true ∧ waiting.cfg.Valid ∧ waiting.chip.kind ≠ .absent ∧
      statusBusy (nextAnswer { waiting with choices := [0x00] }) = false) := by decide

theorem test_witness_InitializeTakesWhatItReceives :
    (Calm (noChip 0xEF 0x14) ∧ (noChip 0xEF 0x14).chip.kind = .absent ∧ (noChip 0xEF 0x14).choices = 0xEF :: 0x14 :: [] ∧
      (noChip 0xEF 0x14).initialized = false ∧ (noChip 0xEF 0x14).busy = false ∧
      (0xEF : Byte) ++ (0x14 : Byte) ≠ Config.default.idA ∧ (0xEF : Byte) ++ (0x14 : Byte) ≠ Config.default.idB) ∧
    (noChip 0xEF 0x13).choices = 0xEF :: 0x13 :: [] ∧ (0xEF : Byte) ++ (0x13 : Byte) = Config.default.idA := by decide

theorem test_witness_OccupiedSequencerRefuses :
    waiting.seq = .run .reformat (Driver.poll Config.default 1 ++ [.invalidate]) ∧ Op.reformat.holdsBusy = false ∧
      isWire .wren = true ∧ Instr.wren.wf waiting.cfg = true ∧
      ((0xFFFF00 : Addr).toNat % waiting.cfg.pageSize = 0 ∧ page.length = waiting.cfg.pageSize) ∧
      (65536 ∈ Config.eraseSizes ∧ (0xFF0000 : Addr).toNat % 65536 = 0) :=
  ⟨rfl, rfl, rfl, rfl, ⟨by decide, length_page⟩, by decide, by decide⟩

theorem test_witness_RefusedBeforeInitialize : State.reset.initialized = false ∧ occupied State.reset = false := by decide

theorem test_witness_AdmissionRefusals :
    occupied detected = false ∧ (detected.initialized = true ∧ detected.pageCount.toNat / 2 ≤ (2048 : Word32).toNat) ∧
      (occupied { State.reset with busy := true } = false ∧ State.reset.initialized = false) ∧
      occupied { detected with busy := true } = false := by decide

theorem test_witness_BusyRequestsDropped :
    detected.initialized = true ∧ ({ detected with busy := true } : State).seq = .idle ∧
      (2047 : Word32).toNat < blockCountOf detected ∧ block.length = detected.cfg.blockSize ∧
      ({ detected with busy := true, seq := .run .writeBlock [.setDirty true] } : State).seq = .run .writeBlock [.setDirty true] ∧
      Op.writeBlock.holdsBusy = true := ⟨rfl, rfl, by decide, length_block, rfl, rfl⟩

/-- A hit at the last block of the device. -/
theorem test_witness_Hits :
    dirtied.seq = .idle ∧ dirtied.initialized = true ∧ dirtied.busy = false ∧ quiet dirtied = true ∧ dirtied.cfg.Valid ∧
      BufferFull dirtied ∧ (2047 : Word32).toNat < blockCountOf dirtied ∧ block.length = dirtied.cfg.blockSize ∧
      dirtied.loaded = true ∧ dirtied.sectorNumber.toNat = (resolve dirtied.cfg (2047 : Word32).toNat).1 ∧
      dirtied.sectorNumber.toNat = (2047 : Word32).toNat / dirtied.cfg.blocksPerSector :=
  ⟨rfl, rfl, rfl, rfl, valid_default, serving_dirtied.buffer, by decide, length_block, rfl, by decide, by decide⟩

/-- A miss from Empty, and one from Clean at the last block. -/
theorem test_witness_Misses :
    Serving detected ∧ (2047 : Word32).toNat < blockCountOf detected ∧ block.length = detected.cfg.blockSize ∧
      detected.dirty = false ∧ detected.loaded = false ∧
      (Serving { detected with loaded := true } ∧ (8 : Word32).toNat < blockCountOf detected ∧
        detected.sectorNumber.toNat ≠ (resolve detected.cfg (8 : Word32).toNat).1) := by
  refine ⟨serving_detected, by decide, length_block, rfl, rfl, ?_, by decide, by decide⟩
  exact { serving_detected with flags := by decide, sector := by decide }

/-- A miss from Dirty: the last block of the sector below the cached one. -/
theorem test_witness_Evictions :
    Serving dirtied ∧ (2039 : Word32).toNat < blockCountOf dirtied ∧ block.length = dirtied.cfg.blockSize ∧
      dirtied.dirty = true ∧ dirtied.sectorNumber.toNat ≠ (resolve dirtied.cfg (2039 : Word32).toNat).1 ∧
      ReadyFor (pollsPerFlush dirtied.cfg) dirtied :=
  ⟨serving_dirtied, by decide, length_block, rfl, by decide, ready_detected 17 (by omega)⟩

theorem test_witness_FlushAndReformat :
    Serving dirtied ∧ dirtied.dirty = true ∧ ReadyFor (pollsPerFlush dirtied.cfg) dirtied ∧ ReadyFor 1 dirtied ∧
      (State.reset.seq = .idle ∧ detected.initialized = true ∧ detected.busy = false ∧ detected.dirty = false) :=
  ⟨serving_dirtied, rfl, ready_detected 17 (by omega), ready_detected 1 (by omega), rfl, rfl, rfl, rfl⟩

theorem test_witness_SizeQueries :
    detected.cfg.pageSize = 256 ∧ detected.cfg.Valid ∧ detected.initialized = true ∧ RecordOk detected := by decide

theorem test_witness_AdmittedBlocksLieInTheDevice :
    detected.cfg.Valid ∧ RecordOk detected ∧ 2047 < blockCountOf detected ∧ 15 < detected.cfg.pagesPerSector := by decide

theorem coherent_dirtied : Coherent dirtied := fun _ h => by cases h

theorem test_witness_Arrays :
    Serving dirtied ∧ Coherent dirtied ∧ Admissible dirtied (.readBlock 2047) ∧
      Admissible dirtied (.writeBlock 2047 block) ∧ Admissible dirtied .flush ∧
      ReadyFor (2 * pollsPerFlush dirtied.cfg) dirtied ∧ ReadyFor (pollsPerFlush dirtied.cfg + 1) dirtied ∧
      (∀ i ∈ [Instr.readBlock 2047, .flush], Admissible dirtied i) ∧
      (2047 : Word32).toNat < blockCountOf dirtied ∧ block.length = dirtied.cfg.blockSize := by
  have hr : Admissible dirtied (.readBlock 2047) := .inl ⟨2047, rfl, by decide⟩
  refine ⟨serving_dirtied, coherent_dirtied, hr, .inr (.inl ⟨2047, block, rfl, by decide, length_block⟩), .inr (.inr rfl),
    ready_detected 34 (by omega), ready_detected 18 (by omega), fun i hi => ?_, by decide, length_block⟩
  simp only [List.mem_cons, List.not_mem_nil, or_false] at hi
  rcases hi with rfl | rfl
  · exact hr
  · exact .inr (.inr rfl)

theorem test_witness_BusyWaitGoesOnWhileTheChipIsBusy :
    waiting.seq = .run .reformat (Driver.poll waiting.cfg 1 ++ [.invalidate]) ∧ waiting.cs = false ∧
      quiet waiting = true ∧ waiting.cfg.Valid ∧ cacheState waiting ≠ none ∧ waiting.cfg.pollLimit = none ∧
      waiting.chip.kind ≠ .absent ∧ waiting.chip.busy ≠ .ready ∧ 2 ≤ waiting.choices.length ∧
      ∀ v ∈ waiting.choices.take 2, statusBusy v = true := by decide

theorem test_witness_ReformatEndsWhenThePollReadsReady :
    Serving { detected with choices := [0x01, 0x03, 0x02] } ∧ detected.cfg.pollLimit = none ∧
      ([0x01, 0x03, 0x02] : List Byte) = [0x01, 0x03] ++ 0x02 :: [] ∧
      (∀ b ∈ ([0x01, 0x03] : List Byte), statusBusy b = true) ∧ statusBusy 0x02 = false :=
  ⟨{ serving_detected with }, rfl, rfl, by decide, by decide⟩

/-- The invariants, and a step from a running operation that meets them. -/
theorem test_witness_Invariants :
    FlashWf waiting ∧ BufferFull waiting ∧ FlagInv waiting ∧ BusInv waiting ∧ RecordInv waiting ∧ GuardInv waiting ∧
      ∃ t, step waiting = .next t := by
  refine ⟨wf_nil _, by simp [BufferFull, waiting, detected, State.reset], ?_, ?_, ?_, ?_, next_of_after test_step_resumes⟩
  · simp [FlagInv, pending, waiting, detected, State.reset, Driver.poll, Driver.rdsr1, Driver.transaction, flagsKept]
  · simp [BusInv, pending, waiting, detected, State.reset, Driver.poll, Driver.rdsr1, Driver.transaction, busKept]
  · show _ = true → RecordOk waiting
    exact fun _ => by decide
  · rfl

theorem test_witness_OnlyTheirOwnersWrite :
    (∃ t, exec .wren State.reset = .next t) ∧ Instr.wren ≠ .init ∧ (∀ b, Instr.wren ≠ .readBlock b) ∧
      ∀ b d, Instr.wren ≠ .writeBlock b d :=
  ⟨next_of_after test_wren, by decide, (by intro b h; cases h), (by intro b d h; cases h)⟩

theorem test_witness_WaitAndReadPrimitives :
    (Calm detected ∧ ReadyFor 1 detected ∧ ChipReady detected ∧ detected.chip.kind ≠ .absent ∧
      (0x0FFFFF : Addr).toNat + 0 < flashSize detected ∧ 0 < 2 ∧ ¬ (0x0FFFFF : Addr).toNat + 1 < flashSize detected) ∧
    (Calm (noChip 0 0) ∧ ReadyFor 1 (noChip 0 0) ∧ (noChip 0 0).chip.kind = .absent) :=
  ⟨⟨by decide, ready_detected 1 (by omega), by decide⟩, by decide, by decide, rfl⟩

end Sys2Proof.Tests
end

section
/-! The state (10_state.md): the invariants every step keeps, most of them `Kept` properties and so kept by `Kept.step`; who
writes the device record and the guard; programs and erases at addresses the chip does not have; reset. -/

namespace Sys2Proof.Machine

variable {s t : State}

/-! ### The programs an operation can start with -/

/-- Every program an operation starts with uses the bus legally from a released bus, and releases it again. -/
theorem Started.bus {op : Op} {prog : List Micro} (h : Started s op prog) : busKept false prog := by
  have driver : ∀ {p rest : List Micro}, DriverProg p → busKept false rest → busKept false (p ++ rest) :=
    fun hp => hp.bus _
  cases op with
  | direct r => simpa using driver h.driverProg (rest := []) rfl
  | init => cases h; exact driver (driverProg_transaction _ _) rfl
  | readBlock off =>
    cases h
    next blk _ _ => simpa using busKept_ensure (s := s) (resolve s.cfg blk.toNat).1 (rest := []) rfl
  | writeBlock => cases h; exact busKept_ensure _ rfl
  | flush => cases h; simpa using busKept_flush (s := s) (rest := []) rfl
  | reformat => cases h; exact driver (driverProg_eraseChip _) rfl

/-- Every program an operation starts with keeps `dirty → loaded` at every point, if it holds at the start. -/
theorem Started.flags {op : Op} {prog : List Micro} (h : Started s op prog) (hs : DirtyLoaded s) :
    flagsKept s.loaded s.dirty prog := by
  have driver : ∀ {p rest : List Micro}, DriverProg p → flagsKept s.loaded s.dirty rest →
      flagsKept s.loaded s.dirty (p ++ rest) := fun hp => (flagsKept_driver hp.driver hs).2
  cases op with
  | direct r => simpa using driver h.driverProg (rest := []) hs
  | init =>
    cases h
    exact ⟨hs, driver (driverProg_transaction _ _) ⟨hs, hs, hs, hs, hs⟩⟩
  | readBlock off =>
    cases h
    next blk _ _ => simpa using flagsKept_ensure (resolve s.cfg blk.toNat).1 (rest := []) hs fun _ _ => rfl
  | writeBlock =>
    cases h
    exact flagsKept_ensure _ hs fun _ => ⟨fun _ => rfl, fun _ => rfl, fun _ => rfl⟩
  | flush =>
    cases h
    unfold Cache.flushCache
    split
    next => simpa using flagsKept_flush s.cfg s.sectorNumber.toNat s.buffer (rest := []) hs (by simp [flagsKept])
    next => exact hs
  | reformat => cases h; exact driver (driverProg_eraseChip _) ⟨hs, by simp [flagsKept]⟩

/-! ### The memories (R25, R6) -/

/-- The flash in its canonical form, the buffer at its size, and these parameters. -/
structure MemoriesInv (c : Config) (s : State) : Prop where
  flash : FlashWf s
  buffer : BufferFull s
  cfg : s.cfg = c

/-- What a reset or a loss of power leaves of the chip has its content in the canonical form. -/
theorem Uncut.wf {k : Chip} (h : Uncut s k) (hw : FlashWf s) : Memory.wf s.cfg.erasedByte k.mem := by
  have cut := (chipAfterCut_chip s).2 hw
  rcases h with rfl | rfl
  · exact cut
  · exact powerUp_chip.2 cut

theorem kept_memories (c : Config) : Kept fun _ s => MemoriesInv c s where
  congr _ s t same h := ⟨by rw [FlashWf, same.cfg, same.chip]; exact h.flash,
    by rw [BufferFull, same.cfg, same.buffer]; exact h.buffer, same.cfg.trans h.cfg⟩
  go _ _ s s' h hp := by
    obtain ⟨hcfg, -, -, -, hbuf, -, hwf⟩ := perform_frame hp
    exact ⟨hwf h.flash, by rw [BufferFull, hcfg, hbuf]; exact h.buffer, hcfg.trans h.cfg⟩
  again _ _ _ h := h
  giveUp _ _ _ h := h
  start _ _ _ h _ := h
  reset _ s k d h hk := ⟨hk.wf h.flash, List.length_replicate, h.cfg⟩

/-- Settles O53: the memories are a kept property. -/
theorem stepKeepsTheMemories : Obligations.StepKeepsTheMemories := by
  intro s t hw hb h
  have key := (kept_memories s.cfg).step ⟨hw, hb, rfl⟩ h
  exact ⟨key.flash, key.buffer, key.cfg⟩

/-! ### The flags (R23) -/

theorem kept_flags : Kept fun l s => flagsKept s.loaded s.dirty l where
  congr _ s t same h := by rw [same.loaded, same.dirty]; exact h
  go _ _ _ _ h hp := flagsKept_perform h hp
  again _ _ _ h := (flagsKept_driver (driverProg_poll _ _).driver (flagsKept_head h)).2 h.2
  giveUp _ _ _ h := flagsKept_head h
  start _ _ _ h hs := hs.flags h
  reset _ _ _ _ _ _ := by simp [flagsKept]

/-- Settles O54: `flagsKept` of what is left to do is a kept property, and says of the state itself that dirty implies
loaded. -/
theorem stepKeepsDirtyImpliesLoaded : Obligations.StepKeepsDirtyImpliesLoaded := by
  intro s t hi h
  have key : FlagInv t := kept_flags.step hi h
  exact ⟨key, flagsKept_head key⟩

/-! ### What an instruction or a call can come to -/

/-- What an instruction or a call comes to: a refusal that is no illegal bus action, a response at once, or one of these
operations, started while the sequencer was idle. -/
inductive Meaning (s : State) (ops : Op → Prop) : Host.Outcome State Fault Refusal → Prop where
  | refused {e : Refusal} : e ≠ .illegalBusAction → Meaning s ops (.refused e)
  | answered (st : Option (BitVec 1)) (v : Option Word32) (d : Option (List Byte)) :
      Meaning s ops (.next (respond st v d s))
  | started {op : Op} {prog : List Micro} : s.seq = .idle → Started s op prog → ops op →
      Meaning s ops (start op prog (taken op s))

section Meaning

variable {ops : Op → Prop} {k : Host.Outcome State Fault Refusal}

theorem meaning_direct {r : Returns} {prog : List Micro} (hs : Started s (.direct r) prog) (ho : ops (.direct r)) :
    Meaning s ops (direct r prog s) := by
  unfold direct
  split
  next hi => exact .started hi hs ho
  next => exact .refused (by simp)

/-- A check that refuses before it goes on. -/
theorem meaning_check {p : Prop} [Decidable p] {e : Refusal} (he : e ≠ .illegalBusAction) (h : ¬ p → Meaning s ops k) :
    Meaning s ops (if p then .refused e else k) := by
  split
  next => exact .refused he
  next hp => exact h hp

theorem meaning_admitted (h : occupied s = false → s.initialized = true → Meaning s ops k) :
    Meaning s ops (admitted s k) :=
  meaning_check (by simp) fun ho => meaning_check (by simp) fun hi => h (by simpa using ho) (by simpa using hi)

/-- A request that is dropped while the guard is taken, and else starts its operation. -/
theorem meaning_guarded (h : s.busy = false → Meaning s ops k) :
    Meaning s ops (if s.busy then dropGuarded s else k) := by
  split
  next => exact .answered _ _ _
  next hb => exact h (by simpa using hb)

end Meaning

/-- INITIALIZE runs only where it is asked for, and an operation that holds the guard only where a READ_BLOCK or
WRITE_BLOCK is. -/
structure MayRun (i : Instr) (op : Op) : Prop where
  init : op = .init → i = .init
  guard : op.holdsBusy = true → (∃ b, i = .readBlock b) ∨ ∃ b d, i = .writeBlock b d

theorem mayRun_direct (i : Instr) (r : Returns) : MayRun i (.direct r) := ⟨by simp, by simp [Op.holdsBusy]⟩

theorem exec_meaning (i : Instr) (s : State) : Meaning s (MayRun i) (exec i s) := by
  have wire : ∀ {r prog}, Started s (.direct r) prog → Meaning s (MayRun i) (direct r prog s) :=
    fun h => meaning_direct h (mayRun_direct _ _)
  cases i with
  | wren => exact wire (.wren _)
  | pp a d => exact meaning_check (by simp) fun _ => meaning_check (by simp) fun _ => wire (.pp _ a d)
  | read a n => exact wire (.read _ a n)
  | rdsr1 => exact wire (.rdsr1 _)
  | se4k a => exact meaning_check (by simp) fun _ => wire (.se4k _ a)
  | be32k a => exact meaning_check (by simp) fun _ => wire (.be32k _ a)
  | be64k a => exact meaning_check (by simp) fun _ => wire (.be64k _ a)
  | ce => exact wire (.ce _)
  | rdid => exact wire (.rdid _)
  | rduid => exact wire (.rduid _)
  | init =>
    refine meaning_check (by simp) fun ho => meaning_check (by simp) fun hi => meaning_check (by simp) fun hb => ?_
    have hb : s.busy = false := by simpa using hb
    exact .started (op := .init) (idle_of_free (by simpa using ho) hb) (.init (by simpa using hi) hb)
      ⟨fun _ => rfl, by simp [Op.holdsBusy]⟩
  | readBlock b =>
    refine meaning_admitted fun ho hi => meaning_check (by simp) fun _ => meaning_guarded fun hb => ?_
    exact .started (idle_of_free ho hb) (.readBlock b hi hb) ⟨by simp, fun _ => .inl ⟨b, rfl⟩⟩
  | writeBlock b d =>
    refine meaning_admitted fun ho hi => meaning_check (by simp) fun _ => meaning_check (by simp) fun hl =>
      meaning_guarded fun hb => ?_
    exact .started (idle_of_free ho hb) (.writeBlock b d hi hb (by simpa using hl))
      ⟨by simp, fun _ => .inr ⟨b, d, rfl⟩⟩
  | flush =>
    refine meaning_admitted fun ho hi => meaning_guarded fun hb => ?_
    exact .started (op := .flush) (idle_of_free ho hb) (.flush hi hb) ⟨by simp, by simp [Op.holdsBusy]⟩
  | reformat =>
    refine meaning_admitted fun ho hi => meaning_check (by simp) fun hb => ?_
    have hb : s.busy = false := by simpa using hb
    exact .started (op := .reformat) (idle_of_free ho hb) (.reformat hi hb) ⟨by simp, by simp [Op.holdsBusy]⟩
  | blockCount | totalSize | blockSize | supportsDma | isBusy => exact .answered _ _ _
  | reservedA | reservedB | reservedC | reservedD | reservedE | reservedF => exact .refused (by simp)

theorem callPrimitive_meaning (p : Primitive) (s : State) : Meaning s (fun _ => True) (callPrimitive p s) := by
  have call : ∀ {r prog}, Started s (.direct r) prog → Meaning s (fun _ => True) (direct r prog s) :=
    fun h => meaning_direct h trivial
  cases p with
  | waitReady => exact call (.waitReady _)
  | detect | isPresent | capacity => exact call (.rdid _)
  | readBytes a n => exact call (.read _ a n)
  | programPage a d => exact meaning_check (by simp) fun _ => meaning_check (by simp) fun _ => call (.programPage _ a d)
  | eraseSector a g => exact meaning_check (by simp) fun _ => meaning_check (by simp) fun _ => call (.eraseSector _ a g)
  | eraseChip => exact call (.eraseChip _)
  | readUniqueId => exact call (.rduid _)

/-! ### The bus (R35, R72, R120) -/

/-- A poll that read busy is followed by another, between transactions. -/
theorem busKept_again {c : Config} {n m : Nat} {cs : Bool} {rest : List Micro}
    (h : busKept cs (.untilReady n :: rest)) : busKept cs (Driver.poll c m ++ rest) := by
  obtain ⟨rfl, h⟩ := h
  exact (driverProg_poll c m).bus rest h

theorem kept_bus : Kept fun l s => busKept s.cs l where
  congr _ s t same h := by rw [same.cs]; exact h
  go _ _ _ _ h hp := busKept_perform h hp
  again _ _ _ h := busKept_again h
  giveUp _ _ _ h := h.1
  start _ _ s h hs := by
    have released : s.cs = false := h
    rw [released]; exact hs.bus
  reset _ _ _ _ _ _ := rfl

/-- A legal run is not stopped for an illegal bus action. -/
theorem drive_legal {prog : List Micro} (h : busKept s.cs prog) : drive prog s ≠ .stopped .illegalBusAction := by
  induction prog generalizing s with
  | nil => simp [drive]
  | cons m rest ih =>
    have h : busKept (tick s).cs (m :: rest) := by simpa using h
    unfold drive
    split
    next => simp
    next =>
      split
      next s' hp => exact ih (busKept_perform h hp)
      next => simp
      next => simp
      next e hp => intro he; cases he; exact perform_legal h hp

theorem start_legal {op : Op} {prog : List Micro} (h : busKept s.cs prog) :
    start op prog s ≠ .refused .illegalBusAction := by
  unfold start settle
  split
  next => simp
  next => simp
  next => simp
  next e hd => intro he; cases he; exact drive_legal h hd

/-- From a state that uses the bus legally no instruction or call is refused for an illegal bus action. -/
theorem Meaning.legal {ops : Op → Prop} {o : Host.Outcome State Fault Refusal} (h : Meaning s ops o) (hi : BusInv s) :
    o ≠ .refused .illegalBusAction := by
  cases h with
  | refused he => simpa using he
  | answered => simp
  | started hs hp =>
    have released : s.cs = false := by simpa [BusInv, pending_of_idle hs, busKept] using hi
    exact start_legal (by rw [(sameCore_taken _ s).cs, released]; exact hp.bus)

theorem accept_legal (input : Input) (hi : BusInv s) : accept input s ≠ .refused .illegalBusAction := by
  cases input with
  | frame f =>
    unfold accept
    dsimp only
    split
    next i _ => exact (exec_meaning i s).legal hi
    next => simp
  | primitive p => exact (callPrimitive_meaning p s).legal hi
  | reset => simp [accept, resetEvent]
  | powerLoss => simp [accept, powerLossEvent]

theorem resume_legal (hi : BusInv s) : resume s ≠ .refused .illegalBusAction := by
  unfold resume
  split
  next => simp
  next op rest hs => exact start_legal (by simpa [BusInv, pending_of_run hs] using hi)

/-- Settles O55: legal use of the bus by what is left to do is a kept property, and rules the refusal out of every run. -/
theorem stepUsesTheBusLegally : Obligations.StepUsesTheBusLegally := by
  refine ⟨fun s t hi h => kept_bus.step hi h, fun s hi => ?_⟩
  unfold step
  split
  next => simp
  next =>
    split
    next => exact accept_legal _ hi
    next => exact resume_legal hi

/-! ### The device record (R28 to R31) -/

/-- `recordKept` depends on the latches left to do, the device record and the parameters alone. -/
theorem recordKept_congr {l l' : List Micro} (hl : l'.filter isLatch = l.filter isLatch) (hcfg : t.cfg = s.cfg)
    (hid : SameIdentity s t) (h : recordKept l s) : recordKept l' t := by
  unfold recordKept at h ⊢
  simpa only [RecordOk, hl, hcfg, hid.deviceId, hid.capacity, hid.pageCount, hid.initialized] using h

/-- With no latch left to do the record is right once `initialized` is 1. -/
theorem recordKept_iff_of_noLatch {l : List Micro} (hl : l.filter isLatch = []) :
    recordKept l s ↔ (s.initialized = true → RecordOk s) := by
  unfold recordKept; rw [hl]

/-- Whatever is left to do, the record is right once `initialized` is 1. -/
theorem recordOk_of_recordKept {l : List Micro} (h : recordKept l s) (hi : s.initialized = true) : RecordOk s := by
  unfold recordKept at h
  split at h
  next => exact h hi
  next => simp [h.1] at hi
  next => simp [h.1] at hi
  next => simp [h] at hi
  next => simp [h] at hi
  next => exact h.elim

/-- No micro-operation but a latch writes the device record. -/
theorem identity_of_not_latch {m : Micro} (hm : isLatch m = false) (h : perform m s = .go t) : SameIdentity s t := by
  by_cases hd : isDriver m = true
  · exact (perform_driver hd h).identity
  · cases m with
    | configureClock | setLoaded | setSector | storePage | setDirty | copyIn | invalidate =>
      cases h; exact ⟨rfl, rfl, rfl, rfl⟩
    | latchId | latchCapacity | latchPageCount | latchInitialized => simp [isLatch] at hm
    | sel | des | send | recv | untilReady | refuse => simp [isDriver] at hd

/-- INITIALIZE's latches, in R181's order, make the record right. -/
theorem recordKept_latch {m : Micro} {rest : List Micro} (hm : isLatch m = true) (hi : recordKept (m :: rest) s)
    (h : perform m s = .go t) : recordKept rest t := by
  unfold recordKept at hi
  rw [List.filter_cons_of_pos hm] at hi
  split at hi
  next he => cases he
  next he =>
    obtain ⟨rfl, hr⟩ := List.cons.inj he
    cases h
    exact (recordKept_iff_of_noLatch hr).2 fun hc => hi.2 (by simpa using hc)
  next he =>
    obtain ⟨rfl, hr⟩ := List.cons.inj he
    obtain ⟨h0, hcap⟩ := hi
    cases h
    unfold recordKept
    rw [hr]
    refine ⟨by simpa using h0, fun hne => ⟨by simpa using hcap, hne, ?_⟩⟩
    unfold latchPageCount
    rw [if_pos (by simpa using hne)]
  next he =>
    obtain ⟨rfl, hr⟩ := List.cons.inj he
    cases h
    unfold recordKept
    rw [hr]
    exact ⟨hi, rfl⟩
  next he =>
    obtain ⟨rfl, hr⟩ := List.cons.inj he
    cases h
    unfold recordKept
    rw [hr]
    exact hi
  next => exact hi.elim

theorem filter_isLatch_again (c : Config) (n m : Nat) (rest : List Micro) :
    (Driver.poll c m ++ rest).filter isLatch = (Micro.untilReady n :: rest).filter isLatch := by
  rw [List.filter_append, noLatch_driver (driverProg_poll c m).driver]; rfl

theorem filter_isLatch_initBody (c : Config) :
    (initBody c).filter isLatch = [.latchId, .latchCapacity, .latchPageCount, .latchInitialized] := by
  rw [initBody, List.filter_cons_of_neg (by simp [isLatch]), List.filter_append,
    noLatch_driver (prog := Driver.detect c) (driverProg_transaction _ _).driver]
  rfl

/-- An operation starts with the record right: INITIALIZE before its latches, any other without one. -/
theorem Started.record {op : Op} {prog : List Micro} (h : Started s op prog) (hi : recordKept [] s) :
    recordKept prog s := by
  by_cases hop : op = .init
  · subst hop
    cases h
    next h0 _ => unfold recordKept; rw [filter_isLatch_initBody]; exact h0
  · exact (recordKept_iff_of_noLatch (h.noLatch hop)).2 (recordOk_of_recordKept hi)

theorem kept_record : Kept recordKept where
  congr _ _ _ same h := recordKept_congr rfl same.cfg same.identity h
  go m rest s s' h hp := by
    by_cases hm : isLatch m = true
    · exact recordKept_latch hm h hp
    · exact recordKept_congr (List.filter_cons_of_neg hm).symm (perform_frame hp).1
        (identity_of_not_latch (by simpa using hm) hp) h
  again n rest s h := recordKept_congr (filter_isLatch_again _ _ _ _) rfl (.refl s) h
  giveUp _ _ _ h := (recordKept_iff_of_noLatch rfl).2 (recordOk_of_recordKept h)
  start _ _ _ h hs := hs.record h
  reset _ _ _ _ _ _ := (recordKept_iff_of_noLatch rfl).2 (by simp)

/-- Settles O56: `recordKept` of what is left to do is a kept property, through INITIALIZE's four latches. -/
theorem stepKeepsTheDeviceRecord : Obligations.StepKeepsTheDeviceRecord := by
  intro s t hi h
  have key : RecordInv t := kept_record.step hi h
  exact ⟨key, recordOk_of_recordKept key⟩

/-! ### The guard (R27, R165, R190) -/

theorem guardInv_of_idle (hs : s.seq = .idle) (hb : s.busy = false) : GuardInv s := by
  unfold GuardInv; rw [hs]; exact hb

theorem busy_of_guardInv_idle (h : GuardInv s) (hs : s.seq = .idle) : s.busy = false := by
  unfold GuardInv at h; rw [hs] at h; exact h

theorem busy_of_guardInv_run {op : Op} {rest : List Micro} (h : GuardInv s) (hs : s.seq = .run op rest) :
    s.busy = op.holdsBusy := by
  unfold GuardInv at h; rw [hs] at h; exact h

theorem guardInv_congr (hs : t.seq = s.seq) (hb : t.busy = s.busy) (h : GuardInv s) : GuardInv t := by
  unfold GuardInv at h ⊢; rw [hs, hb]; exact h

/-- No run of micro-operations writes the guard. -/
theorem drive_busy {b : Bool} (prog : List Micro) (h : s.busy = b) :
    match drive prog s with
    | .done u => u.busy = b
    | .paused _ u => u.busy = b
    | .gaveUp u => u.busy = b
    | .stopped _ => True :=
  drive_invariant (I := fun _ u => u.busy = b)
    (fun _ _ u _ hu hp => by rw [(perform_frame hp).2.1]; simpa using hu)
    (fun _ _ u hu => by simpa using hu) (fun _ _ u hu => by simpa using hu) h

theorem abandon_busy {op : Op} (h : s.busy = op.holdsBusy) : (abandon op s).busy = false := by
  cases op with
  | direct r => exact h
  | init | readBlock | writeBlock | flush | reformat => rfl

/-- An operation that has the guard exactly if it holds it keeps it while it runs, and gives it back at its end. -/
theorem guardInv_of_start {op : Op} {prog : List Micro} (hb : s.busy = op.holdsBusy) (h : start op prog s = .next t) :
    GuardInv t := by
  have key := drive_busy prog hb
  rcases start_next h with ⟨u, hd, rfl⟩ | ⟨rest, u, hd, rfl⟩ | ⟨u, hd, rfl⟩
  · rw [hd] at key
    exact guardInv_of_idle (by simp) (by simpa using fun hn => key.trans hn)
  · rw [hd] at key
    exact key
  · rw [hd] at key
    exact guardInv_of_idle (by simp) (abandon_busy key)

theorem taken_busy {op : Op} (hb : s.busy = false) : (taken op s).busy = op.holdsBusy := by
  unfold taken
  split
  next ho => exact ho.symm
  next ho => rw [hb]; simpa using ho

theorem Advance.guard (hg : GuardInv s) (h : Advance s t) : GuardInv t := by
  cases h with
  | answer => exact guardInv_congr rfl rfl hg
  | start hs _ h => exact guardInv_of_start (taken_busy (busy_of_guardInv_idle hg hs)) h

/-- Settles O57, by the cases of what a step can lead to. -/
theorem stepKeepsTheGuard : Obligations.StepKeepsTheGuard := by
  intro s t hg h
  obtain ⟨-, h⟩ := step_next h
  cases h with
  | @input rest _ h =>
    have hg : GuardInv { s with inbox := rest } := hg
    exact h.guard hg
  | reset => exact guardInv_of_idle rfl rfl
  | idle hs => exact guardInv_congr (by simp) (by simp) hg
  | resume hs h => exact guardInv_of_start (busy_of_guardInv_run hg hs) h

/-! ### Who writes the device record and the guard (R27, R28) -/

/-- An operation other than INITIALIZE leaves the device record alone. -/
theorem Started.identity {op : Op} {prog : List Micro} (hp : Started s op prog) (hop : op ≠ .init)
    (h : Machine.start op prog (taken op s) = .next t) : SameIdentity s t :=
  (sameCore_taken op s).identity.trans (identity_of_noLatch (hp.noLatch hop) h)

/-- An operation is a direct call, or starts while the guard is free. -/
theorem Started.direct_or_free {op : Op} {prog : List Micro} (hp : Started s op prog) :
    (∃ r, op = .direct r) ∨ s.busy = false := by
  cases hp with
  | init _ hb | readBlock _ _ hb | writeBlock _ _ _ hb | flush _ hb | reformat _ hb => exact .inr hb
  | _ => exact .inl ⟨_, rfl⟩

theorem Started.busy {op : Op} {prog : List Micro} (hp : Started s op prog) (hop : op.holdsBusy = false)
    (h : Machine.start op prog (taken op s) = .next t) : t.busy = s.busy := by
  have same : taken op s = s := if_neg (by simp [hop])
  rw [same] at h
  exact busy_of_start hop hp.direct_or_free h

/-- Settles O58, by what an instruction can come to. -/
theorem onlyTheirOwnersWrite : Obligations.OnlyTheirOwnersWrite := by
  intro i s t h
  have meaning := exec_meaning i s
  generalize exec i s = o at h meaning
  cases meaning with
  | refused => cases h
  | answered => cases h; exact ⟨fun _ => ⟨rfl, rfl, rfl, rfl⟩, fun _ _ => rfl⟩
  | started _ hp own =>
    refine ⟨fun hi => hp.identity (fun e => hi (own.init e)) h, fun hr hw => hp.busy ?_ h⟩
    by_contra hold
    rcases own.guard (by simpa using hold) with ⟨b, hb⟩ | ⟨b, d, hb⟩
    · exact hr b hb
    · exact hw b d hb

/-! ### Addresses the chip does not have (R62; log 15) -/

theorem pageSize_le {c : Config} (hv : c.Valid) : c.pageSize ≤ 65536 := by
  have le := Nat.le_of_dvd (sectorSize_pos hv) hv.2.2.1
  have hs := hv.2.1
  simp only [Config.blockSize, Config.pagesPerBlock, Config.eraseSizes, List.mem_cons, List.not_mem_nil, or_false] at le hs
  omega

/-- A PP at a page address the chip does not have runs, and strays (R122). -/
theorem exec_pp_strays {a : Addr} {d : List Byte} (hc : Calm s) (h : ChipReady s) (hw : FlashWf s)
    (hl : s.chip.wel = true) (hf : (Instr.pp a d).wf s.cfg = true) (ha : flashSize s < a.toNat + s.cfg.pageSize) :
    ∃ t, exec (.pp a d) s = .next t ∧ WireDone (.pp a d) s t ∧ t.result = .none ∧ t.choices = s.choices ∧
      Strayed s.cfg.pageSize (Chip.strayTarget (flashSize s) s.cfg.pageSize (s.draws + (s.cfg.pageSize + 4))) s t := by
  obtain ⟨hal, hlen⟩ : a.toNat % s.cfg.pageSize = 0 ∧ d.length = s.cfg.pageSize := by
    simpa [Instr.wf, aligned] using hf
  obtain ⟨u, ran, choices, -, chip⟩ := ran_pp_any hc.free h (a := a) hl hlen
  have run : exec (.pp a d) s = direct .nothing (Driver.pp s.cfg a d) s := by
    simp [exec, execPp, isMultiple, hal, hlen]
  rw [hlen] at chip
  exact ⟨_, run.trans (direct_of_ran hc.1 ran), wireDone_of_ran ran, rfl, choices,
    strayed_of_programmed h.1 hw ran.did.block.cfg hlen (pageSize_pos hc.2.2.2) (pageSize_le hc.2.2.2) ha chip⟩

/-- Each erase at an aligned address is its granularity's command, called directly (R98). -/
theorem exec_erase {a : Addr} {g : Nat} {i : Instr}
    (hi : (g, i) ∈ [(4096, Instr.se4k a), (32768, .be32k a), (65536, .be64k a)]) (ha : a.toNat % g = 0) :
    g ∈ Config.eraseSizes ∧ i = eraseInstr a g ∧
      exec i s = direct .nothing (Driver.eraseCommand s.cfg a g) s := by
  simp only [List.mem_cons, Prod.mk.injEq, List.not_mem_nil, or_false] at hi
  rcases hi with ⟨rfl, rfl⟩ | ⟨rfl, rfl⟩ | ⟨rfl, rfl⟩
  · exact ⟨by decide, rfl, by simp [exec, execSe4k, isMultiple, ha, Driver.eraseCommand]⟩
  · exact ⟨by decide, rfl, by simp [exec, execBe32k, isMultiple, ha, Driver.eraseCommand]⟩
  · exact ⟨by decide, rfl, by simp [exec, execBe64k, isMultiple, ha, Driver.eraseCommand]⟩

theorem eraseSizes_bounds {g : Nat} (hg : g ∈ Config.eraseSizes) : 0 < g ∧ g ≤ 65536 := by
  simp only [Config.eraseSizes, List.mem_cons, List.not_mem_nil, or_false] at hg
  omega

/-- An erase at an aligned address the chip does not have runs, and strays (R125 to R127). -/
theorem exec_erase_strays {a : Addr} {g : Nat} {i : Instr} (hc : Calm s) (h : ChipReady s) (hw : FlashWf s)
    (hl : s.chip.wel = true) (hi : (g, i) ∈ [(4096, Instr.se4k a), (32768, .be32k a), (65536, .be64k a)])
    (ha : a.toNat % g = 0) (hr : flashSize s ≤ a.toNat) :
    ∃ t, exec i s = .next t ∧ WireDone i s t ∧ t.result = .none ∧ t.choices = s.choices ∧
      Strayed g (Chip.strayTarget (flashSize s) g (s.draws + 4)) s t ∧
      ∀ p, Chip.strayTarget (flashSize s) g (s.draws + 4) = some p →
        ∀ x, p ≤ x → x < p + g → flash t x = s.cfg.erasedByte := by
  obtain ⟨hg, rfl, run⟩ := exec_erase (s := s) hi ha
  obtain ⟨u, ran, choices, -, chip⟩ := ran_erase_any hc.free h (a := a) hg hl
  obtain ⟨pos, le⟩ := eraseSizes_bounds hg
  exact ⟨_, run.trans (direct_of_ran hc.1 ran), wireDone_of_ran ran, rfl, choices,
    strayed_of_erased h.1 hw ran.did.block.cfg pos le hr chip⟩

/-- Settles O23: the chip takes the command whatever its address is. -/
theorem absentAddressesRun : Obligations.AbsentAddressesRun :=
  fun _ _ _ hc h hw hl => ⟨exec_pp_strays hc h hw hl, fun _ _ => exec_erase_strays hc h hw hl⟩

/-! ### The step, the cache states and reset (R26, R32, R40) -/

/-- Settles O8: a step with nothing presented is `resume`. -/
theorem stepResumesTheRunningOperation : Obligations.StepResumesTheRunningOperation := by
  intro s hc hp
  have idle : step s = resume s := by unfold step; rw [if_neg hc, hp]
  refine ⟨fun op rest hs => ?_, fun hs => ?_⟩
  · rw [idle, resume, hs]; rfl
  · rw [idle, resume, hs]

/-- Settles O9, one combination of the two flags at a time. -/
theorem cacheStatesAndTheExcludedOne : Obligations.CacheStatesAndTheExcludedOne := by
  intro s
  refine ⟨fun hl hd => ?_, fun hl hd => ?_, fun hl hd => ?_, fun hl hd => ?_⟩
  · simp only [cacheState, hl, hd]
  · simp only [cacheState, hl, hd]
  · simp only [cacheState, hl, hd]
  · have excluded : cacheState s = none := by simp only [cacheState, hl, hd]
    exact if_pos excluded

/-- Settles O10: each value is the one `State.reset` names. -/
theorem resetValues : Obligations.ResetValues := ⟨rfl, rfl, rfl, rfl, rfl, rfl, rfl⟩

/-- Settles O59: the sequencer is idle, every flag 0, the bus released, and nothing is listed in the flash. -/
theorem invariantsHoldAtReset : Obligations.InvariantsHoldAtReset := by
  refine ⟨⟨.nil, by simp [State.reset, Chip.fresh]⟩, List.length_replicate, ?flags, rfl, ?record,
    guardInv_of_idle rfl rfl, by decide, rfl⟩
  case flags => exact fun h : false = true => nomatch h
  case record => exact fun h : false = true => nomatch h

end Sys2Proof.Machine
end

section
/-! Memory (20_memory.md): byte order and the blocks of the device, wire commands without a chip, misaligned operands, and
what the chip refuses or takes late. -/

namespace Sys2Proof

/-! ### Byte order on the wire (R50, R93, R94) -/

theorem toNat_append_byte {n : Nat} (x : BitVec n) (y : Byte) : (x ++ y).toNat = x.toNat * 256 + y.toNat := by
  rw [BitVec.toNat_append, ← Nat.shiftLeft_add_eq_or_of_lt y.isLt, Nat.shiftLeft_eq]

theorem addrBytes_eq (a : Addr) : addrBytes a =
    [BitVec.ofNat 8 (a.toNat / 65536), BitVec.ofNat 8 (a.toNat / 256), BitVec.ofNat 8 a.toNat] := by
  simp only [addrBytes, BitVec.extractLsb', Nat.shiftRight_eq_div_pow, Nat.reducePow, Nat.div_one]

theorem toNat_joinAddr (a2 a1 a0 : Byte) :
    (joinAddr a2 a1 a0).toNat = a2.toNat * 65536 + a1.toNat * 256 + a0.toNat := by
  unfold joinAddr
  rw [toNat_append_byte, toNat_append_byte]
  omega

theorem idBytes_joinId (h l : Byte) : idBytes (joinId h l) = (h, l) := by
  have value : (joinId h l).toNat = h.toNat * 256 + l.toNat := toNat_append_byte h l
  have hlt := h.isLt
  have llt := l.isLt
  refine Prod.ext (BitVec.eq_of_toNat_eq ?_) (BitVec.eq_of_toNat_eq ?_)
  · simp only [idBytes, BitVec.extractLsb'_toNat, value, Nat.shiftRight_eq_div_pow]
    omega
  · simp only [idBytes, BitVec.extractLsb'_toNat, value, Nat.shiftRight_zero]
    omega

namespace Machine

variable {s : State}

theorem receivedId_of_rx {h l : Byte} (hrx : s.rx = [h, l]) : receivedId s = joinId h l := by
  simp [receivedId, hrx]

/-- A valid block ends within the device, whose addresses fit the wire (R43, R56). -/
theorem block_end_le (hv : s.cfg.Valid) (hr : RecordOk s) {b : Nat} (hb : b < blockCountOf s) :
    (b + 1) * s.cfg.blockSize ≤ 2 ^ 24 := by
  obtain ⟨fills, -, small⟩ := record_fills hv hr
  calc (b + 1) * s.cfg.blockSize ≤ blockCountOf s * s.cfg.blockSize := Nat.mul_le_mul_right _ hb
    _ ≤ 2 ^ 24 := by omega

/-- Settles O6: each byte of an address is a quotient of it, and an address or identifier the weighted sum of its bytes. -/
theorem addressesAndIdentifiersBigEndian : Obligations.AddressesAndIdentifiersBigEndian :=
  ⟨addrBytes_eq, toNat_joinAddr, fun h l => ⟨toNat_append_byte h l, idBytes_joinId h l⟩, fun _ _ _ => receivedId_of_rx,
    fun _ _ hv hr hb => block_end_le hv hr hb, by decide, by decide⟩

/-! ### Blocks in the device (R53 to R57, R160) -/

/-- Settles O45, from the byte-address form of `resolve` and the place of the block's sector in the capacity. -/
theorem admittedBlocksLieInTheDevice : Obligations.AdmittedBlocksLieInTheDevice := by
  intro s b p hv hr hb hp
  have address := resolve_address hv b
  have fits := resolve_fits hv b
  have inside := admitted_sector hv hr hb
  obtain ⟨-, -, small⟩ := record_fills hv hr
  have pages := pagesPerSector_mul hv
  have page : p * s.cfg.pageSize < s.cfg.sectorSize := pages ▸ Nat.mul_lt_mul_of_pos_right hp (pageSize_pos hv)
  have below : (resolve s.cfg b).2 < s.cfg.sectorSize := by have := blockSize_pos hv; omega
  have pageNat : (addrOf (pageAddr s.cfg (resolve s.cfg b).1 p)).toNat
      = (resolve s.cfg b).1 * s.cfg.sectorSize + p * s.cfg.pageSize :=
    toNat_addrOf (by unfold pageAddr; omega)
  have baseNat : (addrOf (sectorBase s.cfg (resolve s.cfg b).1)).toNat = (resolve s.cfg b).1 * s.cfg.sectorSize :=
    toNat_addrOf (by omega)
  refine ⟨?_, ?_, fits, ?_, by omega, pageNat, ?_, ?_⟩
  · rw [← address, Nat.add_comm, Nat.add_mul_div_right _ _ (sectorSize_pos hv), Nat.div_eq_of_lt below, Nat.zero_add]
  · rw [← address, Nat.add_comm, Nat.add_mul_mod_self_right, Nat.mod_eq_of_lt below]
  · rw [Nat.succ_mul]; exact inside
  · have : s.cfg.pageSize ∣ (resolve s.cfg b).1 * s.cfg.sectorSize + p * s.cfg.pageSize :=
      Nat.dvd_add (Dvd.dvd.mul_left (Dvd.intro_left _ pages) _) (Nat.dvd_mul_left _ _)
    simp [aligned, pageNat, Nat.mod_eq_zero_of_dvd this]
  · simp [aligned, baseNat]

/-! ### Wire commands without a chip (R80) -/

/-- Settles O20: a wire command is one transaction, and one without a chip runs through. -/
theorem wireCommandsRunWithoutAChip : Obligations.WireCommandsRunWithoutAChip := by
  intro i s hi hw hc hk
  obtain ⟨r, op, bs, kept, run, bytes, -, -⟩ := exec_wire hi hw
  obtain ⟨u, ran, -, chip, -⟩ := ran_absent hc.free hk (op :: bs) kept
  rw [← bytes] at ran
  exact ⟨returnedState r u, run.trans (direct_of_ran hc.1 ran), wireDone_of_ran ran, .of_txn chip⟩

/-! ### Misaligned and wrongly sized operands (R58, R98) -/

/-- Settles O21: each refusal is the first check its command or primitive makes. -/
theorem misalignedRefused : Obligations.MisalignedRefused := by
  intro s a d g
  have mis : ∀ {n : Nat}, a.toNat % n ≠ 0 → ¬ isMultiple n a = true := fun h => by simpa [isMultiple] using h
  refine ⟨fun h => ⟨if_pos (mis h), if_pos (mis h)⟩, fun h hl => ?_, fun h => if_pos (mis h), fun h => if_pos (mis h),
    fun h => if_pos (mis h), fun hg h => ?_, fun hg => if_pos hg⟩
  · simp [exec, execPp, callPrimitive, isMultiple, h, hl]
  · simp [callPrimitive, hg, mis h]

/-! ### What the chip refuses (R81) -/

theorem direct_stopped {r : Returns} {prog : List Micro} {e : Refusal} (hs : s.seq = .idle)
    (h : drive prog s = .stopped e) : direct r prog s = .refused e := by
  unfold direct start
  rw [if_pos hs, h]
  rfl

/-- A chip that is still busy refuses every wire command but RDSR1. -/
theorem exec_wire_busy {i : Instr} (hc : Calm s) (hk : s.chip.kind ≠ .absent) (hi : isWire i = true)
    (hw : i.wf s.cfg = true) (hb : s.chip.busy ≠ .ready) (hv : statusBusy (nextAnswer s) = true) (hne : i ≠ .rdsr1) :
    exec i s = .refused .chipBusy := by
  obtain ⟨r, op, bs, kept, run, -, known, other⟩ := exec_wire hi hw
  rw [run]
  exact direct_stopped hc.1 (drive_transaction_busy hc.free hk known hb hv (other hc.free.valid hne) bs kept)

/-- A ready chip whose latch is not set refuses an erase of each granularity. -/
theorem exec_erase_notEnabled {a : Addr} {g : Nat} {i : Instr} (hc : Calm s) (h : ChipReady s) (hl : s.chip.wel = false)
    (hi : (g, i) ∈ [(4096, Instr.se4k a), (32768, .be32k a), (65536, .be64k a)]) (ha : a.toNat % g = 0) :
    exec i s = .refused .chipNotWriteEnabled := by
  obtain ⟨-, -, run⟩ := exec_erase (s := s) hi ha
  have notEnabled : ∀ x m, ({ s.chip with txn := x } : Chip).eraseNow a.toNat g m = .error .chipNotWriteEnabled :=
    fun _ _ => if_pos (by simp [hl])
  rw [run]
  refine direct_stopped hc.1 ?_
  simp only [List.mem_cons, Prod.mk.injEq, List.not_mem_nil, or_false] at hi
  rcases hi with ⟨rfl, -⟩ | ⟨rfl, -⟩ | ⟨rfl, -⟩
  · exact drive_erase_stopped hc.free h (op := s.cfg.opSe4k) (by simp) notEnabled
  · exact drive_erase_stopped hc.free h (op := s.cfg.opBe32k) (by simp) notEnabled
  · exact drive_erase_stopped hc.free h (op := s.cfg.opBe64k) (by simp) notEnabled

/-- A ready chip whose latch is not set refuses a program and an erase. -/
theorem exec_wire_notEnabled {i : Instr} (hc : Calm s) (h : ChipReady s) (hl : s.chip.wel = false) (hi : isWire i = true)
    (hw : i.wf s.cfg = true) (hread : ∀ a n, i ≠ .read a n) (hother : i ∉ [.wren, .rdsr1, .rdid, .rduid]) :
    exec i s = .refused .chipNotWriteEnabled := by
  cases i with
  | pp a d =>
    obtain ⟨hal, hlen⟩ : a.toNat % s.cfg.pageSize = 0 ∧ d.length = s.cfg.pageSize := by
      simpa [Instr.wf, aligned] using hw
    have run : exec (.pp a d) s = direct .nothing (Driver.pp s.cfg a d) s := by
      simp [exec, execPp, isMultiple, hal, hlen]
    rw [run]
    exact direct_stopped hc.1 (drive_pp_stopped hc.free h hlen fun _ _ => if_pos (by simp [hl]))
  | se4k a => exact exec_erase_notEnabled hc h hl (a := a) (g := 4096) (by simp) (by simpa [Instr.wf, aligned] using hw)
  | be32k a => exact exec_erase_notEnabled hc h hl (a := a) (g := 32768) (by simp) (by simpa [Instr.wf, aligned] using hw)
  | be64k a => exact exec_erase_notEnabled hc h hl (a := a) (g := 65536) (by simp) (by simpa [Instr.wf, aligned] using hw)
  | ce => exact direct_stopped hc.1 (drive_ce_stopped hc.free h hl)
  | read a n => exact absurd rfl (hread a n)
  | wren | rdsr1 | rdid | rduid => simp at hother
  | _ => simp [isWire] at hi

/-! ### A busy time that is over when the command comes (R77) -/

/-- The opcodes of the nine commands other than RDSR1, in the order of R97. -/
def otherOpcodes (c : Config) : List Byte :=
  [c.opWren, c.opPp, c.opRead] ++ [c.opSe4k, c.opBe32k, c.opBe64k, c.opCe, c.opRdid, c.opRduid]

theorem ne_opRdsr1 {c : Config} (hv : c.Valid) {op : Byte} (h : op ∈ otherOpcodes c) : op ≠ c.opRdsr1 := by
  have distinct : c.opcodes.Nodup := hv.2.2.2.1
  have apart : (c.opRdsr1 :: otherOpcodes c).Nodup := List.nodup_middle.1 distinct
  rintro rfl
  exact (List.nodup_cons.1 apart).1 h

/-- A check both runs make alike. -/
theorem check_congr {p : Prop} [Decidable p] {e : Refusal} {x y : Host.Outcome State Fault Refusal} (h : x = y) :
    (if p then .refused e else x) = (if p then .refused e else y) := by rw [h]

section Finished

variable (hc : Calm s) (hk : s.chip.kind ≠ .absent) (hb : s.chip.busy ≠ .ready) (hv : statusBusy (nextAnswer s) = false)
include hc hk hb hv

/-- A direct call that begins with any command but RDSR1 does what it does with a ready chip. -/
theorem direct_finished {op : Byte} {bs : List Byte} {n : Nat} {r : Returns}
    (hop : op ∈ otherOpcodes s.cfg) (rest : List Micro) :
    direct r (Driver.transaction (op :: bs) n ++ rest) s =
      direct r (Driver.transaction (op :: bs) n ++ rest) s.chipFinished := by
  have idle : s.chipFinished.seq = .idle := hc.1
  unfold direct start
  rw [if_pos hc.1, if_pos idle, drive_transaction_finished hc.free hk hb hv (ne_opRdsr1 hc.free.valid hop)]

/-- A direct call of one command but RDSR1. -/
theorem direct_transaction_finished {op : Byte} {bs : List Byte} {n : Nat} {r : Returns}
    (hop : op ∈ otherOpcodes s.cfg) :
    direct r (Driver.transaction (op :: bs) n) s = direct r (Driver.transaction (op :: bs) n) s.chipFinished := by
  simpa using direct_finished hc hk hb hv hop (bs := bs) (n := n) (r := r) []

/-- A direct call that begins with WREN. -/
theorem direct_wren_finished {r : Returns} (p q : List Micro) :
    direct r (Driver.wren s.cfg ++ p ++ q) s = direct r (Driver.wren s.cfg ++ p ++ q) s.chipFinished := by
  rw [List.append_assoc]
  exact direct_finished hc hk hb hv (by simp [otherOpcodes]) _

/-- A wire command but RDSR1 runs as with a ready chip. -/
theorem exec_wire_finished {i : Instr} (hi : isWire i = true) (hne : i ≠ .rdsr1) :
    exec i s = exec i s.chipFinished := by
  have one : ∀ {op bs n r}, op ∈ otherOpcodes s.cfg → direct r (Driver.transaction (op :: bs) n) s =
      direct r (Driver.transaction (op :: bs) n) s.chipFinished := direct_transaction_finished hc hk hb hv
  cases i with
  | wren => exact one (by simp [otherOpcodes])
  | pp a d => exact check_congr (check_congr (one (by simp [otherOpcodes])))
  | read a n => exact one (by simp [otherOpcodes])
  | rdsr1 => exact absurd rfl hne
  | se4k a => exact check_congr (one (by simp [otherOpcodes]))
  | be32k a => exact check_congr (one (by simp [otherOpcodes]))
  | be64k a => exact check_congr (one (by simp [otherOpcodes]))
  | ce => exact one (by simp [otherOpcodes])
  | rdid => exact one (by simp [otherOpcodes])
  | rduid => exact one (by simp [otherOpcodes])
  | _ => simp [isWire] at hi

/-- INITIALIZE begins with an RDID, after the clock. -/
theorem exec_init_finished : exec .init s = exec .init s.chipFinished := by
  have rdid : s.cfg.opRdid ≠ s.cfg.opRdsr1 := ne_opRdsr1 hc.free.valid (by simp [otherOpcodes])
  have quiet' : quiet s.chipFinished = true := hc.free.quiet
  refine check_congr (check_congr (check_congr (congrArg (settle .init) ?_)))
  unfold initBody Driver.detect Driver.rdid
  rw [drive_go hc.free.quiet rfl, drive_go quiet' rfl]
  exact drive_transaction_finished hc.free hk hb hv rdid _ _ _

/-- A primitive but `waitReady` begins with a command other than RDSR1. -/
theorem callPrimitive_finished {p : Primitive} (hne : p ≠ .waitReady) :
    callPrimitive p s = callPrimitive p s.chipFinished := by
  have one : ∀ {op bs n r}, op ∈ otherOpcodes s.cfg → direct r (Driver.transaction (op :: bs) n) s =
      direct r (Driver.transaction (op :: bs) n) s.chipFinished := direct_transaction_finished hc hk hb hv
  cases p with
  | waitReady => exact absurd rfl hne
  | detect | isPresent | capacity => exact one (by simp [otherOpcodes])
  | readBytes a n => exact one (by simp [otherOpcodes])
  | programPage a d => exact check_congr (check_congr (direct_wren_finished hc hk hb hv _ _))
  | eraseSector a g => exact check_congr (check_congr (direct_wren_finished hc hk hb hv _ _))
  | eraseChip => exact direct_wren_finished hc hk hb hv _ _
  | readUniqueId => exact one (by simp [otherOpcodes])

end Finished

/-- Settles O22: a chip still busy stops the opcode, a chip without the latch the command's effect, and one whose time is
over is a ready one from the opcode on. -/
theorem chipRefusesWhatIsNotDescribed : Obligations.ChipRefusesWhatIsNotDescribed :=
  ⟨fun _ _ hc hk hi hw => ⟨fun hb hv hne => exec_wire_busy hc hk hi hw hb hv hne,
      fun hb hl hread hother => exec_wire_notEnabled hc ⟨hk, hb⟩ hl hi hw hread hother⟩,
    fun _ hc hk hb hv => ⟨fun _ hi hne => exec_wire_finished hc hk hb hv hi hne, exec_init_finished hc hk hb hv,
      fun _ hne => callPrimitive_finished hc hk hb hv hne⟩⟩

end Machine
end Sys2Proof
end

section
/-! The block device (20_memory.md section 5): what a READ_BLOCK, WRITE_BLOCK, FLUSH or REFORMAT of a serving block leaves,
and from that the block device as an array of blocks. -/

namespace Sys2Proof.Machine

variable {s t u : State} {blk : Word32} {d : List Byte}

/-! ### What a served operation leaves -/

theorem Serving.valid (sv : Serving s) : s.cfg.Valid := sv.calm.2.2.2

theorem Serving.idle (sv : Serving s) : s.seq = .idle := sv.calm.1

/-- A completed data operation leaves the block serving, and has used no more of the environment's answers than one
flush can (R171). -/
structure Served (s t : State) : Prop where
  frame : ServedFrame s t
  serving : Serving t
  answers : ∀ n, ReadyFor (pollsPerFlush s.cfg + n) s → ReadyFor n t

/-- The block's sector is in the cache (R66). -/
structure Resident (s : State) (blk : Word32) : Prop where
  loaded : s.loaded = true
  sector : s.sectorNumber.toNat = (resolve s.cfg blk.toNat).1

/-- A run that ends with the bus released and a legal cache completes as a served operation. -/
theorem Serving.served {op : Op} {sent : List (List Byte)} {k : Nat} (sv : Serving s)
    (moved : Moved { s with busy := op.holdsBusy } u sent) (hop : ∀ r, op ≠ .direct r) (ready : ChipReady u)
    (kind : u.chip.kind = s.chip.kind) (wf : FlashWf u) (full : BufferFull u) (flags : DirtyLoaded u)
    (sector : u.loaded = true → sectorBase s.cfg u.sectorNumber.toNat < flashSize s)
    (choices : u.choices = s.choices.drop k) (hk : k ≤ pollsPerFlush s.cfg) : Served s (complete op u) := by
  have frame : ServedFrame s (complete op u) := servedFrame_complete _ moved kind rfl hop
  refine ⟨frame, sv.of_served frame ?_ ?_ ?_ ?_ ?_, fun n h => h.drop (by simpa using choices) hk⟩
  · simpa [ChipReady] using ready
  · simpa [FlashWf] using wf
  · simpa [BufferFull] using full
  · simpa [DirtyLoaded] using flags
  · simpa using sector

theorem Served.blockCount (h : Served s t) : blockCountOf t = blockCountOf s := h.frame.blockCount

theorem Served.pollsPerFlush (h : Served s t) : pollsPerFlush t.cfg = pollsPerFlush s.cfg := by rw [h.frame.cfg]

/-! ### The array of blocks -/

theorem logicalBlock_complete (op : Op) (u : State) (b : Nat) : logicalBlock (complete op u) b = logicalBlock u b := by
  simp [logicalBlock, flashBytes]

theorem coherent_complete {op : Op} (h : Coherent u) : Coherent (complete op u) := by
  simpa [Coherent, flash] using h

/-- A cached block is its slice of the buffer (R66). -/
theorem Resident.logicalBlock (h : Resident s blk) :
    logicalBlock s blk.toNat = slice s.buffer (resolve s.cfg blk.toNat).2 s.cfg.blockSize :=
  if_pos ⟨h.loaded, h.sector⟩

/-- A Dirty cache may differ from the flash (R65). -/
theorem coherent_of_dirty (h : s.dirty = true) : Coherent s := fun _ hd => by rw [h] at hd; cases hd

/-! ### READ_BLOCK -/

/-- A served READ_BLOCK answers from the cache, into which it has brought the block's sector; it changes no block (R166). -/
theorem exec_readBlock_served (sv : Serving s) (hr : blk.toNat < blockCountOf s)
    (hv : ReadyFor (pollsPerFlush s.cfg) s) :
    ∃ t, exec (.readBlock blk) s = .next t ∧ Served s t ∧ Resident t blk ∧
      Responded s t (some s.cfg.statusSuccess) none (some (logicalBlock t blk.toNat)) ∧
      (Coherent s → Coherent t ∧ ∀ b, b < blockCountOf s → logicalBlock t b = logicalBlock s b) := by
  obtain ⟨u, k, sent, run, moved, loaded, sector, ready, kind, wf, full, choices, hk, array⟩ := drive_ensure sv hr hv
  have cfg : u.cfg = s.cfg := moved.cfg
  have resident : Resident u blk := ⟨loaded, by rw [sector, cfg]⟩
  refine ⟨complete (.readBlock (resolve s.cfg blk.toNat).2) u, ?_, ?_, ⟨loaded, resident.sector⟩, ?_, fun hc => ?_⟩
  · rw [exec_readBlock sv.idle sv.initialized sv.free hr]
    exact start_done run
  · exact sv.served moved (by simp) ready kind wf full (fun _ => loaded)
      (fun _ => by rw [sector]; exact sv.sector_lt hr) choices hk
  · have answer := (responded_complete true moved).1 (resolve s.cfg blk.toNat).2
    rw [cfg] at answer
    rwa [logicalBlock_complete, resident.logicalBlock, cfg]
  · obtain ⟨coherent, same⟩ := array hc
    exact ⟨coherent_complete coherent, fun b hb => (logicalBlock_complete _ u b).trans (same b hb)⟩

/-! ### WRITE_BLOCK -/

/-- The state after the last two writes of a `writeBlock` (R167). -/
def copied (off : Nat) (data : List Byte) (u : State) : State :=
  { u with buffer := splice u.buffer off data, dirty := true }

theorem Moved.copied {sent : List (List Byte)} (h : Moved s u sent) (off : Nat) (data : List Byte) :
    Moved s (copied off data u) sent := by
  have write : Moved u (Machine.copied off data u) [] :=
    ⟨rfl, rfl, ⟨rfl, rfl, rfl, rfl⟩, rfl, rfl, ⟨rfl, rfl⟩, rfl, rfl⟩
  simpa using h.trans write

/-- After a copy into the cache the cached block is the data, and the other blocks are as they were (R167). -/
theorem logicalBlock_copied (hv : u.cfg.Valid) (full : BufferFull u) (hres : Resident u blk)
    (hl : d.length = u.cfg.blockSize) (b : Nat) :
    logicalBlock (copied (resolve u.cfg blk.toNat).2 d u) b =
      if b = blk.toNat then d else logicalBlock u b := by
  have fits : (resolve u.cfg blk.toNat).2 + d.length ≤ u.buffer.length := by
    rw [hl, full]; exact resolve_fits hv blk.toNat
  unfold logicalBlock copied
  dsimp only
  split
  next hb =>
    split
    next heq => rw [heq, ← hl]; exact slice_splice fits
    next hne =>
      have same : (resolve u.cfg blk.toNat).1 = (resolve u.cfg b).1 := hres.sector.symm.trans hb.2
      apply List.ext_getElem?
      intro i
      by_cases hi : i < u.cfg.blockSize
      · rw [getElem?_slice hi, getElem?_slice hi, getElem?_splice fits,
          if_neg (by rw [hl]; exact resolve_disjoint hv same (Ne.symm hne) hi)]
      · simp only [slice]
        rw [List.getElem?_eq_none (by simp; omega), List.getElem?_eq_none (by simp; omega)]
  next hb =>
    have other : b ≠ blk.toNat := fun e => hb ⟨hres.loaded, e ▸ hres.sector⟩
    rw [if_neg other]
    rfl

/-- A served WRITE_BLOCK leaves the block's sector cached and Dirty, replaces the block, and changes no other (R167). -/
theorem exec_writeBlock_served (sv : Serving s) (hr : blk.toNat < blockCountOf s) (hl : d.length = s.cfg.blockSize)
    (hv : ReadyFor (pollsPerFlush s.cfg) s) :
    ∃ t, exec (.writeBlock blk d) s = .next t ∧ Served s t ∧ Resident t blk ∧ t.dirty = true ∧
      logicalBlock t blk.toNat = d ∧
      (Coherent s → ∀ b, b < blockCountOf s → logicalBlock t b = storeAfter (logicalBlock s) (.writeBlock blk d) b) := by
  obtain ⟨u, k, sent, run, moved, loaded, sector, ready, kind, wf, full, choices, hk, array⟩ := drive_ensure sv hr hv
  have cfg : u.cfg = s.cfg := moved.cfg
  have resident : Resident u blk := ⟨loaded, by rw [sector, cfg]⟩
  have blocks : ∀ b, logicalBlock (complete .writeBlock (copied (resolve s.cfg blk.toNat).2 d u)) b =
      if b = blk.toNat then d else logicalBlock u b := by
    intro b
    rw [logicalBlock_complete, ← logicalBlock_copied (cfg ▸ sv.valid) full resident (cfg ▸ hl), cfg]
  refine ⟨complete .writeBlock (copied (resolve s.cfg blk.toNat).2 d u), ?_, ?_, ⟨loaded, resident.sector⟩, rfl, ?_,
    fun hc b hb => ?_⟩
  · rw [exec_writeBlock sv.idle sv.initialized sv.free hr hl]
    refine start_done ?_
    rw [writeBody, drive_trans run]
    exact drive_copyIn (moved.free sv.free_taken).quiet
  · exact sv.served (moved.copied _ _) (by simp) ready kind wf (by simpa [BufferFull, copied, length_splice] using full)
      (fun _ => loaded) (fun _ => by show sectorBase _ u.sectorNumber.toNat < _; rw [sector]; exact sv.sector_lt hr)
      choices hk
  · rw [blocks, if_pos rfl]
  · rw [blocks, (array hc).2 b hb]; rfl

/-! ### FLUSH -/

/-- Where the cached sector and its bytes are as they were, and so is the flash outside that sector, no block has changed
(R66). -/
theorem logicalBlock_flushed (hv : s.cfg.Valid) (cfg : t.cfg = s.cfg) (loaded : t.loaded = s.loaded)
    (sector : t.sectorNumber = s.sectorNumber) (buffer : t.buffer = s.buffer) (hl : s.loaded = true)
    (outside : ∀ x, ¬ (sectorBase s.cfg s.sectorNumber.toNat ≤ x ∧
      x < sectorBase s.cfg s.sectorNumber.toNat + s.cfg.sectorSize) → flash t x = flash s x) (b : Nat) :
    logicalBlock t b = logicalBlock s b := by
  unfold logicalBlock
  rw [cfg, loaded, sector, buffer]
  split
  next => rfl
  next hb =>
    have other : s.sectorNumber.toNat ≠ (resolve s.cfg b).1 := fun e => hb ⟨hl, e⟩
    have fits := resolve_fits hv b
    refine flashBytes_congr fun i hi => outside _ ?_
    rw [← resolve_address hv b, Nat.add_assoc]
    exact disjoint_sectors other (by omega)

/-- A served FLUSH of a Dirty cache leaves it Clean, writes its sector's bytes to the flash, and changes no block (R163,
R168). -/
theorem exec_flush_dirty (sv : Serving s) (hd : s.dirty = true) (hv : ReadyFor (pollsPerFlush s.cfg) s) :
    ∃ t, exec .flush s = .next t ∧ Served s t ∧ t.loaded = true ∧ t.sectorNumber = s.sectorNumber ∧
      flashBytes t (sectorBase s.cfg s.sectorNumber.toNat) s.cfg.sectorSize = s.buffer ∧ Coherent t ∧
      ∀ b, logicalBlock t b = logicalBlock s b := by
  have hl : s.loaded = true := sv.flags hd
  obtain ⟨u, run, moved, loaded, clean, sector, buffer, choices, -, ready, kind, -, wf, bytes⟩ :=
    drive_flushSector sv.calm.free sv.chip sv.flash hv sv.buffer (sv.cached_fits hl)
  have cfg : u.cfg = s.cfg := moved.cfg
  have written := flashBytes_written sv.buffer bytes
  refine ⟨complete .flush u, ?_, ?_, loaded.trans hl, sector, written, fun _ _ i hi => ?_, fun b => ?_⟩
  · rw [exec_flush sv.idle sv.initialized sv.free, Cache.flushCache, if_pos hd]
    exact start_done run
  · refine sv.served (moved.of_busy_false sv.free) (by simp) ready kind wf
      (by rw [BufferFull, buffer, cfg]; exact sv.buffer) (by simp [DirtyLoaded, clean]) (fun _ => ?_) choices le_rfl
    rw [sector]; exact sv.sector hl
  · have hi : i < s.cfg.sectorSize := cfg ▸ hi
    show u.buffer[i]? = some (flash u (u.sectorNumber.toNat * u.cfg.sectorSize + i))
    rw [buffer, sector, cfg, ← written]
    exact getElem?_flashBytes hi
  · rw [logicalBlock_complete]
    exact logicalBlock_flushed sv.valid cfg loaded sector buffer hl (fun x hx => by rw [bytes, if_neg hx]) b

/-- A served FLUSH changes no block, and keeps a Clean cache equal to the flash (R65, R168). -/
theorem exec_flush_served (sv : Serving s) (hv : ReadyFor (pollsPerFlush s.cfg) s) :
    ∃ t, exec .flush s = .next t ∧ Served s t ∧ (Coherent s → Coherent t) ∧
      ∀ b, logicalBlock t b = logicalBlock s b := by
  by_cases hd : s.dirty = true
  · obtain ⟨t, run, served, -, -, -, coherent, same⟩ := exec_flush_dirty sv hd hv
    exact ⟨t, run, served, fun _ => coherent, same⟩
  · refine ⟨complete .flush s, ?_, ?_, coherent_complete, logicalBlock_complete _ s⟩
    · rw [exec_flush sv.idle sv.initialized sv.free, Cache.flushCache, if_neg hd]
      exact start_done rfl
    · exact sv.served ((Moved.refl s).of_busy_false sv.free) (by simp) sv.chip rfl sv.flash sv.buffer sv.flags sv.sector
        (k := 0) rfl (Nat.zero_le _)

/-! ### Any data operation -/

/-- Settles O47, one data operation at a time. -/
theorem dataOperationsActOnAnArray : Obligations.DataOperationsActOnAnArray := by
  intro s i sv hc hi hv
  rcases hi with ⟨blk, rfl, hr⟩ | ⟨blk, d, rfl, hr, hl⟩ | rfl
  · obtain ⟨t, run, served, -, answer, array⟩ := exec_readBlock_served sv hr hv
    obtain ⟨coherent, same⟩ := array hc
    refine ⟨t, run, served.serving, coherent, served.blockCount, served.frame.cfg, served.answers, ?_, same⟩
    rintro _ ⟨⟩
    rwa [← same _ hr]
  · obtain ⟨t, run, served, -, dirty, -, array⟩ := exec_writeBlock_served sv hr hl hv
    exact ⟨t, run, served.serving, coherent_of_dirty dirty, served.blockCount, served.frame.cfg, served.answers,
      by simp, array hc⟩
  · obtain ⟨t, run, served, coherent, same⟩ := exec_flush_served sv hv
    exact ⟨t, run, served.serving, coherent hc, served.blockCount, served.frame.cfg, served.answers, by simp,
      fun b _ => same b⟩

/-! ### Any number of data operations -/

/-- What a block is after a request depends on what that block was. -/
theorem storeAfter_congr {f g : Nat → List Byte} {b : Nat} (i : Instr) (h : f b = g b) :
    storeAfter f i b = storeAfter g i b := by
  cases i with
  | writeBlock blk d => simp only [storeAfter, h]
  | _ => exact h

theorem foldl_storeAfter_congr {f g : Nat → List Byte} {b : Nat} (requests : List Instr) (h : f b = g b) :
    requests.foldl storeAfter f b = requests.foldl storeAfter g b := by
  induction requests generalizing f g with
  | nil => exact h
  | cons i rest ih => exact ih (storeAfter_congr i h)

theorem Admissible.congr {i : Instr} (hn : blockCountOf t = blockCountOf s) (hcfg : t.cfg = s.cfg)
    (h : Admissible s i) : Admissible t i := by
  unfold Admissible at h ⊢; rwa [hn, hcfg]

/-- Settles O48, by induction on the requests: each leaves a state the rest can be served from. -/
theorem requestsActOnAnArray : Obligations.RequestsActOnAnArray := by
  intro s requests
  induction requests generalizing s with
  | nil => exact fun sv hc _ _ => ⟨s, rfl, sv, hc, fun _ _ => rfl⟩
  | cons i rest ih =>
    intro sv hc hadm hv
    rw [List.length_cons, Nat.succ_mul, Nat.add_comm] at hv
    obtain ⟨t, run, svt, hct, count, cfg, answers, -, array⟩ :=
      dataOperationsActOnAnArray s i sv hc (hadm i (by simp)) (hv.mono (Nat.le_add_right _ _))
    obtain ⟨u, runAll, svu, hcu, arrayAll⟩ := ih t svt hct
      (fun j hj => (hadm j (by simp [hj])).congr count cfg) (by rw [cfg]; exact answers _ hv)
    refine ⟨u, by rw [serveAll, run]; exact runAll, svu, hcu, fun b hb => ?_⟩
    calc logicalBlock u b = rest.foldl storeAfter (logicalBlock t) b := arrayAll b (by rwa [count])
      _ = rest.foldl storeAfter (storeAfter (logicalBlock s) i) b := foldl_storeAfter_congr rest (array b hb)

/-! ### A write, and what follows it -/

/-- A read of a cached block answers at once from the cache, without a bus event (R166). -/
theorem exec_readBlock_hit (sv : Serving s) (hr : blk.toNat < blockCountOf s) (hres : Resident s blk) :
    ∃ t, exec (.readBlock blk) s = .next t ∧ SameBlock s t ∧ NoBus s t ∧
      Responded s t (some s.cfg.statusSuccess) none (some (logicalBlock s blk.toNat)) := by
  have hit : hit s (resolve s.cfg blk.toNat).1 = true := (hit_iff (resolve_lt blk)).2 ⟨hres.loaded, hres.sector⟩
  refine ⟨complete (.readBlock (resolve s.cfg blk.toNat).2) { s with busy := true }, ?_, ?_, ⟨rfl, rfl, rfl, rfl⟩, ?_⟩
  · rw [exec_readBlock sv.idle sv.initialized sv.free hr, Cache.ensureSector, if_pos hit]
    exact start_done rfl
  · exact ⟨rfl, ⟨rfl, rfl, rfl, rfl, sv.free.symm⟩, ⟨rfl, rfl, rfl, rfl⟩, sv.idle.symm, rfl⟩
  · rw [hres.logicalBlock]
    exact (responded_complete true (Moved.refl { s with busy := true })).1 _

/-- Settles O46: after the write the block is cached, and the read hits. -/
theorem writeThenReadReturnsTheData : Obligations.WriteThenReadReturnsTheData := by
  intro s blk d sv hr hl hv
  obtain ⟨t, write, served, resident, -, data, -⟩ := exec_writeBlock_served sv hr hl hv
  obtain ⟨u, read, same, noBus, answer⟩ :=
    exec_readBlock_hit served.serving (by rwa [served.blockCount]) resident
  rw [data, served.frame.cfg] at answer
  exact ⟨t, u, write, read, answer, noBus, same⟩

/-- A loss of power between operations leaves the block Empty, and every flash byte as it was (R216). -/
theorem powerLossEvent_serving (sv : Serving s) :
    ∃ t, powerLossEvent s = .next t ∧ cacheState t = some .empty ∧ ∀ x, flash t x = flash s x := by
  have uncut : chipAfterCut s = s.chip := by simp [chipAfterCut, sv.calm.free.cs]
  refine ⟨_, rfl, rfl, fun x => ?_⟩
  rw [uncut]
  exact powerUp_read sv.flash fun p hp => by simp [sv.chip.2] at hp

/-- Settles O49: the flush writes the cached sector, the block in it, to the flash, and leaves the chip ready. -/
theorem flushedWritesSurvivePowerLoss : Obligations.FlushedWritesSurvivePowerLoss := by
  intro s blk d sv hr hl hv
  rw [Nat.two_mul] at hv
  obtain ⟨t, write, servedt, resident, dirty, data, -⟩ :=
    exec_writeBlock_served sv hr hl (hv.mono (Nat.le_add_right _ _))
  have readyt : ReadyFor (pollsPerFlush t.cfg) t := servedt.pollsPerFlush ▸ servedt.answers _ hv
  obtain ⟨u, flush, servedu, -, -, written, -, -⟩ := exec_flush_dirty servedt.serving dirty readyt
  obtain ⟨v, loss, empty, kept⟩ := powerLossEvent_serving servedu.serving
  have cfgu : u.cfg = s.cfg := servedu.frame.cfg.trans servedt.frame.cfg
  have inFlash : flashBytes u (blk.toNat * s.cfg.blockSize) s.cfg.blockSize = d := by
    rw [resident.logicalBlock, ← written, resident.sector, servedt.frame.cfg, ← cfgu,
      slice_block (cfgu ▸ sv.valid)] at data
    rwa [← cfgu]
  exact ⟨t, u, v, write, flush, loss, inFlash, (flashBytes_congr fun i _ => kept _).trans inFlash, empty⟩

/-- The state after the last write of a `reformat` (R169). -/
def emptied (u : State) : State := { u with loaded := false, dirty := false }

theorem Moved.emptied {sent : List (List Byte)} (h : Moved s u sent) : Moved s (emptied u) sent := by
  have write : Moved u (Machine.emptied u) [] := ⟨rfl, rfl, ⟨rfl, rfl, rfl, rfl⟩, rfl, rfl, ⟨rfl, rfl⟩, rfl, rfl⟩
  simpa using h.trans write

/-- A REFORMAT erases the chip and empties the cache (R169). -/
theorem exec_reformat_serving (sv : Serving s) (hv : ReadyFor 1 s) :
    ∃ t, exec .reformat s = .next t ∧ Served s t ∧ t.loaded = false ∧ t.dirty = false ∧ t.chip.mem = [] := by
  obtain ⟨u, ran, choices, -, chip⟩ := ran_eraseChip sv.calm.free sv.chip hv
  have run : drive (Driver.eraseChip s.cfg ++ [.invalidate]) s = .done (emptied u) := by
    rw [ran.then]
    exact drive_write (ran.did.free sv.calm.free).quiet rfl
  have full : BufferFull (emptied u) := by
    show u.buffer.length = u.cfg.sectorSize
    rw [ran.did.block.cache.buffer, ran.did.block.cfg]; exact sv.buffer
  refine ⟨complete .reformat (emptied u), ?_, ?_, rfl, rfl, by simp [emptied, chip]⟩
  · rw [exec_reformat sv.idle sv.initialized sv.free]
    exact start_done run
  · exact sv.served (ran.did.moved.emptied.of_busy_false sv.free) (by simp)
      (by simpa [ChipReady, emptied, chip] using sv.chip.1) (by simp [emptied, chip])
      (by simp [FlashWf, emptied, chip, Memory.wf]) full (by simp [DirtyLoaded, emptied]) (by simp [emptied])
      (k := 1) (by simpa [emptied] using choices) (Nat.le_add_left 1 _)

/-- A read of a block that is not cached, while nothing is to be written back, answers with the block's flash bytes
(R162, R166). -/
theorem exec_readBlock_miss (sv : Serving s) (hr : blk.toNat < blockCountOf s) (hd : s.dirty = false)
    (hn : ¬ Resident s blk) :
    ∃ t, exec (.readBlock blk) s = .next t ∧ Responded s t (some s.cfg.statusSuccess) none
      (some (flashBytes s (blk.toNat * s.cfg.blockSize) s.cfg.blockSize)) := by
  obtain ⟨u, run, moved, -, -, -, -, -, buffer⟩ := drive_ensure_clean sv hr hd fun h => hn ⟨h.1, h.2⟩
  refine ⟨complete (.readBlock (resolve s.cfg blk.toNat).2) u, ?_, ?_⟩
  · rw [exec_readBlock sv.idle sv.initialized sv.free hr]
    exact start_done run
  · have answer := (responded_complete true moved).1 (resolve s.cfg blk.toNat).2
    rwa [moved.cfg, buffer, slice_block sv.valid] at answer

/-- Where nothing is listed in the flash every byte reads as erased. -/
theorem flashBytes_of_mem_nil (h : s.chip.mem = []) (a n : Nat) :
    flashBytes s a n = List.replicate n s.cfg.erasedByte := by
  simp [flashBytes, Memory.readRange, h]

/-- Settles O50: the REFORMAT empties the cache without a flush, and the read loads the erased flash. -/
theorem reformatLosesPendingWrites : Obligations.ReformatLosesPendingWrites := by
  intro s blk b d sv hr hb hl hv
  obtain ⟨t, write, served, -⟩ := exec_writeBlock_served sv hr hl (hv.mono (Nat.le_add_right _ _))
  obtain ⟨u, reformat, servedu, empty, clean, erased⟩ := exec_reformat_serving served.serving (served.answers 1 hv)
  have count : blockCountOf u = blockCountOf s := servedu.blockCount.trans served.blockCount
  have cfg : u.cfg = s.cfg := servedu.frame.cfg.trans served.frame.cfg
  obtain ⟨v, read, answer⟩ := exec_readBlock_miss servedu.serving (blk := b) (by rwa [count]) clean fun h =>
    Bool.false_ne_true (empty.symm.trans h.loaded)
  rw [flashBytes_of_mem_nil erased, cfg] at answer
  exact ⟨t, u, v, write, reformat, read, answer⟩

end Sys2Proof.Machine
end

section
/-! Encodings (30_encoding.md): a wire command's bytes and a host request's word, read back and traced back. -/

namespace Sys2Proof

variable {c : Config} {i j : Instr} {rest : List Byte}

/-! ### What valid parameters give the decoder (R97, R100, R101) -/

theorem Config.Valid.opcodes_nodup (hv : c.Valid) : c.opcodes.Nodup := by
  obtain ⟨-, -, -, distinct, -⟩ := hv
  exact distinct

theorem Config.Valid.blkBits_le (hv : c.Valid) : c.blkBits ≤ 32 := by
  obtain ⟨-, -, -, -, -, -, bits, -⟩ := hv
  exact bits

theorem Config.Valid.hostCodes_nodup (hv : c.Valid) : c.hostCodes.Nodup := by
  obtain ⟨-, -, -, -, -, -, -, -, distinct⟩ := hv
  exact distinct

/-! ### The parts of a wire frame (R90) -/

@[simp] theorem decodeBare_nil : decodeBare i [] = .ok i := rfl

theorem decodeBare_ok (h : decodeBare i rest = .ok j) : rest = [] ∧ j = i := by
  unfold decodeBare at h
  split at h
  · exact ⟨‹rest = []›, (Except.ok.inj h).symm⟩
  · cases h

@[simp] theorem decodeFiller_self (want : List Byte) : decodeFiller i want want = .ok i := by
  simp [decodeFiller]

theorem decodeFiller_ok {want : List Byte} (h : decodeFiller i want rest = .ok j) : rest = want ∧ j = i := by
  unfold decodeFiller at h
  split at h
  · cases h
  · split at h
    · exact ⟨‹rest = want›, (Except.ok.inj h).symm⟩
    · cases h

section Address

variable {k : Addr → List Byte → Except DecodeError Instr}

@[simp] theorem decodeAddr_addrBytes (a : Addr) : decodeAddr k (addrBytes a ++ rest) = k a rest :=
  congrArg (k · rest) (Machine.joinAddr_addrBytes a)

theorem decodeAddr_ok (h : decodeAddr k rest = .ok i) :
    ∃ a tail, rest = addrBytes a ++ tail ∧ k a tail = .ok i := by
  unfold decodeAddr at h
  split at h
  · next a2 a1 a0 tail => exact ⟨joinAddr a2 a1 a0, tail, by rw [addrBytes_joinAddr]; rfl, h⟩
  · cases h

/-- An erase is an address and nothing after it (R125, R126, R127). -/
theorem decodeErase_ok {erase : Addr → Instr} (h : decodeAddr (fun a r => decodeBare (erase a) r) rest = .ok i) :
    ∃ a, rest = addrBytes a ∧ i = erase a := by
  obtain ⟨a, tail, bytes, bare⟩ := decodeAddr_ok h
  obtain ⟨rfl, made⟩ := decodeBare_ok bare
  exact ⟨a, by simpa using bytes, made⟩

theorem decodeErase_addrBytes (erase : Addr → Instr) (a : Addr) :
    decodeAddr (fun a r => decodeBare (erase a) r) (addrBytes a) = .ok (erase a) := by
  simpa using decodeAddr_addrBytes (k := fun a r => decodeBare (erase a) r) (rest := []) a

end Address

/-! ### Wire commands (R97, R99) -/

/-- What each of the ten opcodes is followed by (R90, R97). -/
theorem decodeWire_opcodes (h : c.opcodes.Nodup) :
    (∀ rest, decodeWire c (c.opWren :: rest) = decodeBare .wren rest) ∧
    (∀ rest, decodeWire c (c.opPp :: rest)
      = decodeAddr (fun a d => if d.length = c.pageSize then .ok (.pp a d) else .error .wrongLength) rest) ∧
    (∀ rest, decodeWire c (c.opRead :: rest)
      = decodeAddr (fun a z => if z = dummies c z.length then .ok (.read a z.length) else .error .wrongFiller) rest) ∧
    (∀ rest, decodeWire c (c.opRdsr1 :: rest) = decodeFiller .rdsr1 (dummies c 1) rest) ∧
    (∀ rest, decodeWire c (c.opSe4k :: rest) = decodeAddr (fun a r => decodeBare (.se4k a) r) rest) ∧
    (∀ rest, decodeWire c (c.opBe32k :: rest) = decodeAddr (fun a r => decodeBare (.be32k a) r) rest) ∧
    (∀ rest, decodeWire c (c.opBe64k :: rest) = decodeAddr (fun a r => decodeBare (.be64k a) r) rest) ∧
    (∀ rest, decodeWire c (c.opCe :: rest) = decodeBare .ce rest) ∧
    (∀ rest, decodeWire c (c.opRdid :: rest) = decodeFiller .rdid ([0, 0, 0] ++ dummies c 2) rest) ∧
    ∀ rest, decodeWire c (c.opRduid :: rest) = decodeFiller .rduid (dummies c 12) rest := by
  have distinct := List.nodup_reverse.2 h
  simp only [Config.opcodes, List.reverse_cons, List.reverse_nil, List.nil_append, List.cons_append, List.nodup_cons,
    List.mem_cons, List.not_mem_nil, not_or, or_false] at distinct
  simp [decodeWire, distinct]

theorem decodeWire_unknownOpcode {op : Byte} (h : op ∉ c.opcodes) (rest : List Byte) :
    decodeWire c (op :: rest) = .error .unknownOpcode := by
  simp only [Config.opcodes, List.mem_cons, List.not_mem_nil, or_false, not_or] at h
  simp [decodeWire, h]

/-- Each branch of the decoder accepts exactly what the encoder writes after the branch's opcode. -/
theorem encode_of_decodeWire {bytes : List Byte} (h : decodeWire c bytes = .ok i) : encode c i = .wire bytes := by
  cases bytes with
  | nil => cases h
  | cons op rest =>
    simp only [decodeWire] at h
    split_ifs at h with wren pp read rdsr1 se4k be32k be64k ce rdid rduid
    · obtain ⟨rfl, rfl⟩ := decodeBare_ok h
      rw [wren, encode]
    · obtain ⟨a, d, rfl, paged⟩ := decodeAddr_ok h
      split at paged
      · cases paged; rw [pp]; rfl
      · cases paged
    · obtain ⟨a, z, rfl, dummy⟩ := decodeAddr_ok h
      split at dummy
      · next fill => cases dummy; rw [read, encode, ← fill]; rfl
      · cases dummy
    · obtain ⟨rfl, rfl⟩ := decodeFiller_ok h
      rw [rdsr1, encode]
    · obtain ⟨a, rfl, rfl⟩ := decodeErase_ok h
      rw [se4k, encode]
    · obtain ⟨a, rfl, rfl⟩ := decodeErase_ok h
      rw [be32k, encode]
    · obtain ⟨a, rfl, rfl⟩ := decodeErase_ok h
      rw [be64k, encode]
    · obtain ⟨rfl, rfl⟩ := decodeBare_ok h
      rw [ce, encode]
    · obtain ⟨rfl, rfl⟩ := decodeFiller_ok h
      rw [rdid]; rfl
    · obtain ⟨rfl, rfl⟩ := decodeFiller_ok h
      rw [rduid, encode]

/-! ### Host requests (R100, R101, R103) -/

/-- The operation the word of each of the ten codes names, whatever the block field and the data (R100, R101). -/
theorem decodeHost_codes {blk : Word32} (hv : c.Valid) (hb : blk.toNat < 2 ^ c.blkBits) (data : List Byte) :
    decodeHost c (hostWord c c.codeInit blk) data = .ok .init ∧
    decodeHost c (hostWord c c.codeReadBlock blk) data = .ok (.readBlock blk) ∧
    decodeHost c (hostWord c c.codeWriteBlock blk) data
      = (if data.length = c.blockSize then .ok (.writeBlock blk data) else .error .wrongLength) ∧
    decodeHost c (hostWord c c.codeFlush blk) data = .ok .flush ∧
    decodeHost c (hostWord c c.codeReformat blk) data = .ok .reformat ∧
    decodeHost c (hostWord c c.codeBlockCount blk) data = .ok .blockCount ∧
    decodeHost c (hostWord c c.codeTotalSize blk) data = .ok .totalSize ∧
    decodeHost c (hostWord c c.codeBlockSize blk) data = .ok .blockSize ∧
    decodeHost c (hostWord c c.codeSupportsDma blk) data = .ok .supportsDma ∧
    decodeHost c (hostWord c c.codeIsBusy blk) data = .ok .isBusy := by
  simpa only [decodeHost_hostWord hv.blkBits_le hb] using decodeRequest_codes hv.hostCodes_nodup blk data

/-- The word of the `n`-th reserved code is the `n`-th reserved instruction (R103). -/
theorem decodeHost_reservedCode (hv : c.Valid) {n : Nat} (hn : n < 6) :
    decodeHost c (hostWord c (reservedCode c n) 0) [] = .ok (reservedInstrs.getD n .reservedF) := by
  obtain ⟨unassigned, nth⟩ := decodeReserved_reservedCode hv.hostCodes_nodup hn
  rw [decodeHost_hostWord hv.blkBits_le (by simp), decodeRequest_reserved unassigned, nth]

theorem decodeReserved_mem (op : BitVec 4) : decodeReserved c op ∈ reservedInstrs := by
  unfold decodeReserved
  by_cases listed : c.reservedCodes.idxOf op < reservedInstrs.length
  · rw [List.getD_eq_getElem _ _ listed]
    exact List.getElem_mem listed
  · rw [List.getD_eq_default _ _ (Nat.le_of_not_lt listed)]
    decide

/-- The reserved instructions have no meaning in any state (R103). -/
theorem exec_reserved (h : i ∈ reservedInstrs) (s : Machine.State) :
    Machine.exec i s = .refused .reservedHostCode := by
  simp only [reservedInstrs, List.mem_cons, List.not_mem_nil, or_false] at h
  obtain rfl | rfl | rfl | rfl | rfl | rfl := h <;> rfl

/-! ### The obligations -/

/-- Settles O1: a wire command is read back branch by branch of the decoder, a host request from the two fields of its
word. -/
theorem decodeEncodeAgree : Obligations.DecodeEncodeAgree := by
  intro c i hv hw
  obtain ⟨wren, pp, read, rdsr1, se4k, be32k, be64k, ce, rdid, rduid⟩ := decodeWire_opcodes hv.opcodes_nodup
  obtain ⟨init, -, -, flush, reformat, blockCount, totalSize, blockSize, supportsDma, isBusy⟩ :=
    decodeHost_codes (blk := 0) hv (by simp) []
  cases i with
  | wren => exact wren []
  | pp a d =>
    obtain ⟨-, full⟩ : aligned c.pageSize a = true ∧ d.length = c.pageSize := by simpa [Instr.wf] using hw
    exact (pp _).trans (by simp [full])
  | read a n => exact (read _).trans (by simp [dummies])
  | rdsr1 => exact (rdsr1 _).trans (decodeFiller_self _)
  | se4k a => exact (se4k _).trans (decodeErase_addrBytes .se4k a)
  | be32k a => exact (be32k _).trans (decodeErase_addrBytes .be32k a)
  | be64k a => exact (be64k _).trans (decodeErase_addrBytes .be64k a)
  | ce => exact ce []
  | rdid => exact (rdid _).trans (decodeFiller_self _)
  | rduid => exact (rduid _).trans (decodeFiller_self _)
  | init => exact init
  | readBlock b =>
    obtain ⟨-, named, -⟩ := decodeHost_codes (blk := b) hv (by simpa [Instr.wf] using hw) []
    exact named
  | writeBlock b d =>
    obtain ⟨fits, full⟩ : b.toNat < 2 ^ c.blkBits ∧ d.length = c.blockSize := by simpa [Instr.wf] using hw
    obtain ⟨-, -, named, -⟩ := decodeHost_codes hv fits d
    exact named.trans (if_pos full)
  | flush => exact flush
  | reformat => exact reformat
  | blockCount => exact blockCount
  | totalSize => exact totalSize
  | blockSize => exact blockSize
  | supportsDma => exact supportsDma
  | isBusy => exact isBusy
  | reservedA => exact decodeHost_reservedCode hv (n := 0) (by decide)
  | reservedB => exact decodeHost_reservedCode hv (n := 1) (by decide)
  | reservedC => exact decodeHost_reservedCode hv (n := 2) (by decide)
  | reservedD => exact decodeHost_reservedCode hv (n := 3) (by decide)
  | reservedE => exact decodeHost_reservedCode hv (n := 4) (by decide)
  | reservedF => exact decodeHost_reservedCode hv (n := 5) (by decide)

/-- Settles O2, by the branches of the decoder. -/
theorem wireBytesHaveOneMeaning : Obligations.WireBytesHaveOneMeaning :=
  ⟨fun _ _ _ => encode_of_decodeWire, fun _ _ rest h => decodeWire_unknownOpcode h rest⟩

/-- Settles O3: the decoder computes on the frames of the spec. -/
theorem writtenOutFramesDecode : Obligations.WrittenOutFramesDecode := by
  unfold Obligations.WrittenOutFramesDecode
  decide

/-- Settles O4, from the fields of a request word and the operation of each code. -/
theorem hostRequestsDecode : Obligations.HostRequestsDecode := by
  refine ⟨fun c op blk data hv hb => ?_, rfl, fun op blk => (hostWord_toNat le_rfl blk.isLt).1⟩
  obtain ⟨init, read, write, others⟩ := decodeHost_codes hv hb data
  have bits := hv.blkBits_le
  exact ⟨hostOp_hostWord bits hb, hostBlk_hostWord bits hb, (hostWord_toNat bits hb).1, init, read,
    fun full => write.trans (if_pos full), fun short => write.trans (if_neg short), others⟩

/-- Settles O5: a code that names no operation decodes to a reserved instruction, and none of these has a meaning. -/
theorem reservedCodesRefused : Obligations.ReservedCodesRefused := by
  refine ⟨fun c op blk data hv hb unassigned => ?_, by decide, fun s => ⟨rfl, rfl, rfl, rfl, rfl, rfl⟩⟩
  exact ⟨decodeReserved c op,
    (decodeHost_hostWord hv.blkBits_le hb data).trans (decodeRequest_reserved unassigned data),
    exec_reserved (decodeReserved_mem op)⟩

end Sys2Proof
end

section
/-! Wire commands (40_wire_commands.md): each is one transaction of its own bytes, and what it makes of a chip that is
there. -/

namespace Sys2Proof.Machine

variable {s t u : State}

/-! ### One transaction and nothing of the block (R120) -/

/-- A wire command whose run ends is done, with the value it returns. -/
theorem exec_wire_of_ran {i : Instr} {r : Returns} {prog : List Micro} (hs : s.seq = .idle)
    (run : exec i s = direct r prog s) (ran : Ran prog s u [wireBytes s.cfg i]) :
    exec i s = .next (returnedState r u) ∧ WireDone i s (returnedState r u) :=
  ⟨run.trans (direct_of_ran hs ran), wireDone_of_ran ran⟩

/-- Settles O13: a command that is not well formed is refused, and the transaction of one that is runs through or is
stopped by the chip. -/
theorem wireCommandShape : Obligations.WireCommandShape := by
  intro i s t hi hc next
  cases hw : i.wf s.cfg with
  | false =>
    rcases exec_wire_refused hi hw with refused | refused
    · cases refused.symm.trans next
    · cases refused.symm.trans next
  | true =>
    obtain ⟨r, op, bs, kept, run, bytes, -, -⟩ := exec_wire hi hw
    rcases drive_transaction_any hc.free (op :: bs) kept with ⟨u, ran⟩ | ⟨e, stopped⟩
    · rw [← bytes] at ran
      obtain ⟨done, shape⟩ := exec_wire_of_ran hc.1 run ran
      cases done.symm.trans next
      exact ⟨shape, shape.block.cs.trans hc.2.1⟩
    · cases (run.trans (direct_stopped hc.1 stopped)).symm.trans next

/-! ### WREN and PP (R121, R122) -/

/-- Settles O14: the chip's command sets the latch and nothing else. -/
theorem wrenSetsTheLatch : Obligations.WrenSetsTheLatch := by
  intro s hc h
  obtain ⟨u, ran, choices, -, chip⟩ := ran_wren hc.free h
  obtain ⟨next, done⟩ := exec_wire_of_ran (i := .wren) (r := .nothing) hc.1 rfl ran
  exact ⟨_, next, done, rfl, choices, chip⟩

/-- A PP of a page at a page address is its command, called directly (R58, R122). -/
theorem exec_pp {a : Addr} {d : List Byte} (wf : (Instr.pp a d).wf s.cfg = true) :
    d.length = s.cfg.pageSize ∧ exec (.pp a d) s = direct .nothing (Driver.pp s.cfg a d) s := by
  obtain ⟨page, full⟩ : a.toNat % s.cfg.pageSize = 0 ∧ d.length = s.cfg.pageSize := by
    simpa [Instr.wf, aligned] using wf
  exact ⟨full, by simp [exec, execPp, isMultiple, page, full]⟩

/-- A write-disabled chip whose content is that of `s` with these bytes programmed at `lo` (R75). -/
theorem programmed_of_mem {lo k : Nat} {d : List Byte} (hw : FlashWf s) (cfg : t.cfg = s.cfg)
    (kind : t.chip.kind = s.chip.kind) (wel : t.chip.wel = false)
    (mem : t.chip.mem = Memory.program s.cfg.erasedByte s.chip.mem lo d k) : Programmed lo d s t where
  kind := kind
  wel := wel
  inside i b hb erased := by
    obtain ⟨hi, rfl⟩ := List.getElem?_eq_some_iff.1 hb
    unfold flash at erased ⊢
    rw [cfg, mem, Memory.read_program hw hi, if_pos erased]
  outside x hx := by
    unfold flash
    rw [cfg, mem, Memory.read_program_other hw hx]
  wf := by
    unfold FlashWf
    rw [cfg, mem]
    exact Memory.wf_program hw

/-- Settles O15, by what programming does to the flash array. -/
theorem ppProgramsThePage : Obligations.PpProgramsThePage := by
  intro s a d hc h hw hl wf inside
  obtain ⟨full, run⟩ := exec_pp wf
  obtain ⟨u, k, ran, choices, -, chip⟩ := ran_pp hc.free h (a := a) hl full (by rwa [full])
  obtain ⟨next, done⟩ := exec_wire_of_ran hc.1 run ran
  have page : Programmed a.toNat d s (returnedState .nothing u) :=
    programmed_of_mem hw done.block.cfg (congrArg Chip.kind chip :) (congrArg Chip.wel chip :)
      (congrArg Chip.mem chip :)
  exact ⟨_, next, done, rfl, choices, page, congrArg Chip.busy chip⟩

/-! ### READ and RDSR1 (R123, R124) -/

/-- Settles O16: the bytes kept from the transaction are the value returned. -/
theorem readReturnsTheFlash : Obligations.ReadReturnsTheFlash := by
  intro s a n hc h
  obtain ⟨u, ran, count, bytes, chip, choices⟩ := ran_read_any hc.free h a n
  obtain ⟨next, done⟩ := exec_wire_of_ran (i := .read a n) (r := .bytes) hc.1 rfl ran
  exact ⟨_, u.rx, next, done, rfl, count, bytes, ⟨chip.kind, chip.mem, chip.busy, chip.wel⟩, choices⟩

/-- The chip stays busy exactly as long as the status byte it shows reads busy (R77). -/
theorem busyAfterRead_eq_ite (busy : ChipBusy) (v : Byte) :
    busyAfterRead busy v = if statusBusy (statusByte busy v) then busy else .ready := by
  rw [statusBusy_statusByte, busyAfterRead]
  by_cases ready : busy = .ready
  · simp [ready]
  · simp [ready]

/-- Settles O17: the byte read is the chip's status byte, made of the environment's answer. -/
theorem rdsr1ReadsTheBusyBit : Obligations.Rdsr1ReadsTheBusyBit := by
  intro s hc hk
  obtain ⟨u, ran, rx, choices, -, chip⟩ := ran_rdsr1 hc.free hk
  obtain ⟨next, done⟩ := exec_wire_of_ran (i := .rdsr1) (r := .bytes) hc.1 rfl ran
  refine ⟨_, statusByte s.chip.busy (nextAnswer s), next, done, congrArg Value.bytes rx, fun ready => ?_,
    fun busy => ?_, (congrArg Chip.busy chip).trans (busyAfterRead_eq_ite _ _), (congrArg Chip.kind chip :),
    (congrArg Chip.mem chip :), (congrArg Chip.wel chip :), choices⟩
  · simp [statusBusy_statusByte, ready]
  · simp [statusBusy_statusByte, busy]

/-! ### The erases (R125 to R128) -/

/-- An erase at an aligned address of a ready, write-enabled chip erases its region and nothing else (R125 to R127). -/
theorem exec_erase_erased {a : Addr} {g : Nat} {i : Instr} (hc : Calm s) (h : ChipReady s) (hw : FlashWf s)
    (hl : s.chip.wel = true) (hi : (g, i) ∈ [(4096, Instr.se4k a), (32768, .be32k a), (65536, .be64k a)])
    (ha : a.toNat % g = 0) (hr : a.toNat < flashSize s) :
    ∃ t, exec i s = .next t ∧ WireDone i s t ∧ t.result = .none ∧ t.choices = s.choices ∧ Erased a.toNat g s t := by
  obtain ⟨hg, rfl, run⟩ := exec_erase (s := s) hi ha
  obtain ⟨u, ran, choices, -, chip⟩ := ran_erase hc.free h (a := a) hg hl hr
  obtain ⟨next, done⟩ := exec_wire_of_ran hc.1 run ran
  exact ⟨_, next, done, rfl, choices, erased_of_chip hw ha ran.did.block.cfg chip⟩

/-- CE on a ready, write-enabled chip leaves nothing listed, so every byte is erased (R128). -/
theorem exec_ce_erased (hc : Calm s) (h : ChipReady s) (hl : s.chip.wel = true) :
    ∃ t, exec .ce s = .next t ∧ WireDone .ce s t ∧ t.result = .none ∧ t.choices = s.choices ∧
      t.chip.kind = s.chip.kind ∧ t.chip.wel = false ∧ t.chip.busy = .other ∧ FlashWf t ∧
      ∀ x, flash t x = s.cfg.erasedByte := by
  obtain ⟨u, ran, choices, -, chip⟩ := ran_ce hc.free h hl
  obtain ⟨next, done⟩ := exec_wire_of_ran (i := .ce) (r := .nothing) hc.1 rfl ran
  have empty : (returnedState .nothing u).chip.mem = [] := congrArg Chip.mem chip
  refine ⟨_, next, done, rfl, choices, (congrArg Chip.kind chip :), (congrArg Chip.wel chip :),
    congrArg Chip.busy chip, ?_, fun x => ?_⟩
  · simp [FlashWf, Memory.wf, empty]
  · simp [flash, empty, done.block.cfg]

/-- Settles O18: one lemma for the three regions, one for the whole array. -/
theorem erasesEraseTheirRegion : Obligations.ErasesEraseTheirRegion :=
  fun _ _ hc h hw hl => ⟨exec_erase_erased hc h hw hl (by simp), exec_erase_erased hc h hw hl (by simp),
    exec_erase_erased hc h hw hl (by simp), exec_ce_erased hc h hl⟩

/-! ### The identifiers (R129, R130) -/

/-- RDID on a ready part returns its identifier, high byte first (R129, R79). -/
theorem exec_rdid_ready (hc : Calm s) (h : ChipReady s) :
    ∃ t, exec .rdid s = .next t ∧ WireDone .rdid s t ∧ t.choices = s.choices ∧ SameChip s t ∧
      t.result = .identifier (Chip.identifier s.cfg s.chip.kind) := by
  obtain ⟨u, ran, rx, choices, -, chip⟩ := ran_rdid hc.free h
  obtain ⟨next, done⟩ := exec_wire_of_ran (i := .rdid) (r := .identifier) hc.1 rfl ran
  have received : receivedId u = Chip.identifier s.cfg s.chip.kind :=
    (receivedId_of_rx rx).trans (joinId_idBytes _)
  exact ⟨_, next, done, choices, .of_txn chip, congrArg Value.identifier received⟩

/-- RDUID on a ready part returns the eight bytes of its unique identifier (R130, log 23). -/
theorem exec_rduid_ready (hc : Calm s) (h : ChipReady s) :
    ∃ t, exec .rduid s = .next t ∧ WireDone .rduid s t ∧ t.choices = s.choices ∧ SameChip s t ∧
      t.result = .bytes ((List.range 8).map Config.uniqueId) := by
  obtain ⟨u, ran, rx, choices, -, chip⟩ := ran_rduid hc.free h
  obtain ⟨next, done⟩ := exec_wire_of_ran (i := .rduid) (r := .bytes) hc.1 rfl ran
  exact ⟨_, next, done, choices, .of_txn chip, congrArg Value.bytes rx⟩

/-- Settles O19: RDUID's bytes are the eight of the unique identifier. -/
theorem identifiersAreRead : Obligations.IdentifiersAreRead := by
  intro s hc h
  obtain ⟨t, next, done, choices, chip, bytes⟩ := exec_rduid_ready hc h
  exact ⟨exec_rdid_ready hc h, t, _, next, done, choices, chip, bytes, by simp⟩

end Sys2Proof.Machine
end

section
/-! Driver primitives (41_driver_primitives.md): each is the wire commands it expands into, with the chip and the value
they leave; the busy-wait of a REFORMAT ends at the first poll that reads ready; and no primitive knows the cache. -/

namespace Sys2Proof.Machine

variable {s t u b : State}

/-! ### From a run to a primitive (R106) -/

/-- A primitive whose run ends is done, with the value it returns. -/
theorem callPrimitive_of_ran {p : Primitive} {r : Returns} {prog : List Micro} {l : List Instr} (hs : s.seq = .idle)
    (run : callPrimitive p s = direct r prog s) (ran : Ran prog s u (l.map (wireBytes s.cfg))) :
    callPrimitive p s = .next (returnedState r u) ∧ PrimitiveDone l s (returnedState r u) :=
  ⟨run.trans (direct_of_ran hs ran), primitiveDone_of_ran ran⟩

/-! ### Programming a page (R145) -/

/-- Settles O24, by what programming does to the flash array. -/
theorem programPageWritesAPage : Obligations.ProgramPageWritesAPage := by
  intro s a d hc h hw hv page full inside
  have run : callPrimitive (.programPage a d) s = direct .nothing (Driver.programPage s.cfg a d) s := by
    simp [callPrimitive, isMultiple, page, full]
  obtain ⟨u, k, ran, choices, -, chip⟩ := ran_programPage hc.free h hv (a := a) full (by rwa [full])
  obtain ⟨next, done⟩ := callPrimitive_of_ran hc.1 run ran
  have programmed : Programmed a.toNat d s (returnedState .nothing u) :=
    programmed_of_mem hw done.block.cfg (congrArg Chip.kind chip :) (congrArg Chip.wel chip :)
      (congrArg Chip.mem chip :)
  exact ⟨_, next, done, rfl, programmed, congrArg Chip.busy chip, choices⟩

/-! ### Erasing (R146, R147) -/

/-- The flash after an erase of the `n` bytes from `lo` (R74). -/
theorem flash_of_erase {lo n : Nat} (hw : FlashWf s) (cfg : t.cfg = s.cfg)
    (mem : t.chip.mem = Memory.erase s.chip.mem lo n) :
    FlashWf t ∧ ∀ x, flash t x = if lo ≤ x ∧ x < lo + n then s.cfg.erasedByte else flash s x := by
  unfold FlashWf flash
  rw [cfg, mem]
  exact ⟨Memory.wf_erase hw, fun _ => Memory.read_erase⟩

/-- A flash with nothing listed is erased everywhere. -/
theorem flash_of_mem_nil (cfg : t.cfg = s.cfg) (mem : t.chip.mem = []) :
    FlashWf t ∧ ∀ x, flash t x = s.cfg.erasedByte := by
  unfold FlashWf flash
  rw [cfg, mem]
  exact ⟨⟨.nil, by simp⟩, fun _ => rfl⟩

/-- `eraseSector` at an aligned address erases the region of its granularity and nothing else (R98, R146). -/
theorem callPrimitive_eraseSector {a : Addr} {g : Nat} {i : Instr} (hc : Calm s) (h : ChipReady s) (hw : FlashWf s)
    (hv : ReadyFor 1 s) (hi : (g, i) ∈ [(4096, Instr.se4k a), (32768, .be32k a), (65536, .be64k a)])
    (ha : a.toNat % g = 0) (hr : a.toNat < flashSize s) :
    ∃ t, callPrimitive (.eraseSector a g) s = .next t ∧ PrimitiveDone [.wren, i, .rdsr1] s t ∧ t.result = .none ∧
      t.chip.busy = .ready ∧ t.chip.kind = s.chip.kind ∧ t.choices = s.choices.tail ∧ FlashWf t ∧
      ∀ x, flash t x = if a.toNat ≤ x ∧ x < a.toNat + g then s.cfg.erasedByte else flash s x := by
  obtain ⟨hg, rfl, -⟩ := exec_erase (s := s) hi ha
  have run : callPrimitive (.eraseSector a g) s = direct .nothing (Driver.eraseSector s.cfg a g) s := by
    simp [callPrimitive, isMultiple, hg, ha]
  obtain ⟨u, ran, choices, -, chip⟩ := ran_eraseSector hc.free h hv hg hr
  rw [Nat.div_mul_cancel (Nat.dvd_of_mod_eq_zero ha)] at chip
  obtain ⟨next, done⟩ := callPrimitive_of_ran hc.1 run ran
  exact ⟨_, next, done, rfl, congrArg Chip.busy chip, (congrArg Chip.kind chip :), choices,
    flash_of_erase hw done.block.cfg (congrArg Chip.mem chip)⟩

/-- `eraseChip` erases every byte (R147). -/
theorem callPrimitive_eraseChip (hc : Calm s) (h : ChipReady s) (hv : ReadyFor 1 s) :
    ∃ t, callPrimitive .eraseChip s = .next t ∧ PrimitiveDone [.wren, .ce, .rdsr1] s t ∧ t.result = .none ∧
      t.chip.busy = .ready ∧ t.chip.kind = s.chip.kind ∧ t.choices = s.choices.tail ∧ FlashWf t ∧
      ∀ x, flash t x = s.cfg.erasedByte := by
  obtain ⟨u, ran, choices, -, chip⟩ := ran_eraseChip hc.free h hv
  obtain ⟨next, done⟩ := callPrimitive_of_ran (p := .eraseChip) (r := .nothing) hc.1 rfl ran
  exact ⟨_, next, done, rfl, congrArg Chip.busy chip, (congrArg Chip.kind chip :), choices,
    flash_of_mem_nil done.block.cfg (congrArg Chip.mem chip)⟩

/-- Settles O25: one lemma for the three granularities, one for the whole array. -/
theorem erasePrimitivesErase : Obligations.ErasePrimitivesErase :=
  fun _ _ hc h hw hv => ⟨fun _ _ => callPrimitive_eraseSector hc h hw hv, callPrimitive_eraseChip hc h hv⟩

/-! ### The identity (R141 to R143) -/

/-- The identifier an RDID receives: a ready part's own (R79), or the next two answers where no chip is there (R80). -/
def Identifies (s : State) (id : Word16) : Prop :=
  (ChipReady s ∧ id = Chip.identifier s.cfg s.chip.kind) ∨
    (s.chip.kind = .absent ∧ ∃ h l more, s.choices = h :: l :: more ∧ id = joinId h l)

/-- `detect` is one RDID, and receives that identifier (R141, R129). -/
theorem ran_detect {id : Word16} (f : Free s) (h : Identifies s id) :
    ∃ u, Ran (Driver.detect s.cfg) s u [wireBytes s.cfg .rdid] ∧ receivedId u = id := by
  rcases h with ⟨ready, rfl⟩ | ⟨absent, h, l, more, answers, rfl⟩
  · obtain ⟨u, ran, rx, -⟩ := ran_rdid f ready
    exact ⟨u, ran, (receivedId_of_rx rx).trans (joinId_idBytes _)⟩
  · obtain ⟨u, ran, -, -, kept⟩ := ran_absent f absent [s.cfg.opRdid, 0, 0, 0] 2
    obtain ⟨rx, -⟩ := kept (by simp [answers])
    exact ⟨u, ran, receivedId_of_rx (by simp [rx, answers])⟩

theorem knownId_eq (c : Config) (id : Word16) : knownId c id = decide (id = c.idA ∨ id = c.idB) := by
  simp [knownId, Bool.decide_or, beq_eq_decide]

/-- Settles O26: the three primitives are the same run, and differ in what they make of the identifier received. -/
theorem identityPrimitives : Obligations.IdentityPrimitives := by
  intro s id hc source
  have identifies : Identifies s id := by
    rcases source with ⟨kind, ready, rfl⟩ | ⟨kind, ready, rfl⟩ | absent
    · exact .inl ⟨⟨by simp [kind], ready⟩, by simp [kind, Chip.identifier]⟩
    · exact .inl ⟨⟨by simp [kind], ready⟩, by simp [kind, Chip.identifier]⟩
    · exact .inr absent
  obtain ⟨u, ran, received⟩ := ran_detect hc.free identifies
  have cfg : u.cfg = s.cfg := ran.did.block.cfg
  obtain ⟨detect, done⟩ := callPrimitive_of_ran (p := .detect) (r := .identifier) (l := [.rdid]) hc.1 rfl ran
  obtain ⟨isPresent, done'⟩ := callPrimitive_of_ran (p := .isPresent) (r := .present) (l := [.rdid]) hc.1 rfl ran
  obtain ⟨capacity, done''⟩ := callPrimitive_of_ran (p := .capacity) (r := .capacity) (l := [.rdid]) hc.1 rfl ran
  refine ⟨⟨_, detect, done, congrArg Value.identifier received⟩,
    ⟨_, isPresent, done', congrArg Value.bool ?_⟩, ⟨_, capacity, done'', congrArg Value.word ?_⟩⟩
  · rw [received, cfg, knownId_eq]
  · rw [received, cfg]; rfl

/-! ### Waiting and reading (R140, R144, R148) -/

/-- `waitReady` with a poll that reads ready is that poll; a chip that is there is ready after it (R140). -/
theorem callPrimitive_waitReady (hc : Calm s) (hv : ReadyFor 1 s) :
    ∃ t, callPrimitive .waitReady s = .next t ∧ PrimitiveDone [.rdsr1] s t ∧ t.result = .none ∧
      t.choices = s.choices.tail ∧ t.chip.kind = s.chip.kind ∧ t.chip.mem = s.chip.mem ∧ t.chip.wel = s.chip.wel ∧
      (s.chip.kind ≠ .absent → t.chip.busy = .ready) := by
  by_cases absent : s.chip.kind = .absent
  · obtain ⟨v, more, answers⟩ : ∃ v more, s.choices = v :: more := List.exists_cons_of_length_pos hv.1
    obtain ⟨u, ran, choices, chip⟩ :=
      ran_waitReady_absent hc.free absent answers (by simpa [nextAnswer, answers] using hv.next)
    obtain ⟨next, done⟩ := callPrimitive_of_ran (p := .waitReady) (r := .nothing) (l := [.rdsr1]) hc.1 rfl ran
    exact ⟨_, next, done, rfl, choices.trans (by rw [answers]; rfl), (congrArg Chip.kind chip :),
      (congrArg Chip.mem chip :), (congrArg Chip.wel chip :), fun h => absurd absent h⟩
  · obtain ⟨u, ran, choices, -, chip⟩ := ran_waitReady hc.free absent hv.next
    obtain ⟨next, done⟩ := callPrimitive_of_ran (p := .waitReady) (r := .nothing) (l := [.rdsr1]) hc.1 rfl ran
    exact ⟨_, next, done, rfl, choices, (congrArg Chip.kind chip :), (congrArg Chip.mem chip :),
      (congrArg Chip.wel chip :), fun _ => congrArg Chip.busy chip⟩

/-- `readBytes` is one READ, and returns the flash bytes as far as the chip has them (R144, R76). -/
theorem callPrimitive_readBytes (hc : Calm s) (h : ChipReady s) (a : Addr) (n : Nat) :
    ∃ t got, callPrimitive (.readBytes a n) s = .next t ∧ PrimitiveDone [.read a n] s t ∧ t.result = .bytes got ∧
      got.length = n ∧ (∀ i, i < n → a.toNat + i < flashSize s → got[i]? = some (flash s (a.toNat + i))) ∧
      SameChip s t := by
  obtain ⟨u, ran, count, bytes, chip, -⟩ := ran_read_any hc.free h a n
  obtain ⟨next, done⟩ :=
    callPrimitive_of_ran (p := .readBytes a n) (r := .bytes) (l := [.read a n]) hc.1 rfl ran
  exact ⟨_, u.rx, next, done, rfl, count, bytes, ⟨chip.kind, chip.mem, chip.busy, chip.wel⟩⟩

/-- `readUniqueId` is one RDUID, and returns the eight bytes of the unique identifier (R148, R130). -/
theorem callPrimitive_readUniqueId (hc : Calm s) (h : ChipReady s) :
    ∃ t, callPrimitive .readUniqueId s = .next t ∧ PrimitiveDone [.rduid] s t ∧
      t.result = .bytes ((List.range 8).map Config.uniqueId) ∧ SameChip s t ∧ t.choices = s.choices := by
  obtain ⟨u, ran, rx, choices, -, chip⟩ := ran_rduid hc.free h
  obtain ⟨next, done⟩ := callPrimitive_of_ran (p := .readUniqueId) (r := .bytes) (l := [.rduid]) hc.1 rfl ran
  exact ⟨_, next, done, congrArg Value.bytes rx, .of_txn chip, choices⟩

/-- Settles O60: one lemma for each primitive. -/
theorem waitAndReadPrimitives : Obligations.WaitAndReadPrimitives := by
  intro s a n hc
  refine ⟨callPrimitive_waitReady hc, fun h => ⟨callPrimitive_readBytes hc h a n, ?_⟩⟩
  obtain ⟨t, next, done, bytes, chip, choices⟩ := callPrimitive_readUniqueId hc h
  exact ⟨t, _, next, done, bytes, by simp, chip, choices⟩

/-! ### The driver and the cache (R150) -/

/-- The outcome of a direct call in the other state is that of its run there. -/
theorem settle_direct_withBlockOf (r : Returns) (d : Drive) :
    settle (.direct r) (d.mapState fun t => t.withBlockOf b) =
      mapNext (fun t => t.withBlockOf b) (settle (.direct r) d) := by
  cases d with
  | done t => cases r <;> rfl
  | paused rest t => rfl
  | gaveUp t => rfl
  | stopped e => rfl

/-- A direct call of a program of the driver ends the same in both. -/
theorem direct_withBlockOf {prog : List Micro} (r : Returns) (hp : DriverProg prog) :
    direct r prog (s.withBlockOf b) = mapNext (fun t => t.withBlockOf b) (direct r prog s) := by
  unfold direct start
  rw [withBlockOf_seq]
  split
  next => rw [drive_withBlockOf hp.driver, settle_direct_withBlockOf]
  next => rfl

/-- A check both make alike, on what does not differ. -/
theorem check_mapNext {f : State → State} {p : Prop} [Decidable p] {e : Refusal}
    {x y : Host.Outcome State Fault Refusal} (h : x = mapNext f y) :
    (if p then .refused e else x) = mapNext f (if p then .refused e else y) := by
  split
  next => rfl
  next => exact h

/-- A primitive ends the same in two states that differ only in the cache, the guard and the device record. -/
theorem callPrimitive_withBlockOf (p : Primitive) (s b : State) :
    callPrimitive p (s.withBlockOf b) = mapNext (fun t => t.withBlockOf b) (callPrimitive p s) := by
  cases p with
  | waitReady => exact direct_withBlockOf _ (driverProg_poll _ 0)
  | detect | isPresent | capacity => exact direct_withBlockOf _ (driverProg_transaction _ _)
  | readBytes a n => exact direct_withBlockOf _ (driverProg_transaction _ _)
  | programPage a d => exact check_mapNext (check_mapNext (direct_withBlockOf _ (driverProg_programPage _ a d)))
  | eraseSector a g => exact check_mapNext (check_mapNext (direct_withBlockOf _ (driverProg_eraseSector _ a g)))
  | eraseChip => exact direct_withBlockOf _ (driverProg_eraseChip _)
  | readUniqueId => exact direct_withBlockOf _ (driverProg_transaction _ _)

/-- Settles O27: the second half is the first with the elements of the state itself. -/
theorem primitivesLeaveTheCacheAlone : Obligations.PrimitivesLeaveTheCacheAlone := by
  intro p s b
  refine ⟨callPrimitive_withBlockOf p s b, fun t next => ?_⟩
  have own : t = t.withBlockOf s := by
    have same : callPrimitive p s = mapNext (fun t => t.withBlockOf s) (callPrimitive p s) :=
      callPrimitive_withBlockOf p s s
    rw [next] at same
    exact Host.Outcome.next.inj same
  rw [own]
  exact ⟨⟨rfl, rfl, rfl, rfl, rfl⟩, ⟨rfl, rfl, rfl, rfl⟩⟩

/-! ### The busy-wait of a REFORMAT (R140, R169) -/

theorem transactionCount_of_sentAfter {sent : List (List Byte)} (h : SentAfter s t sent) :
    transactionCount t = transactionCount s + sent.length := by
  unfold transactionCount
  rw [h, List.length_append]

theorem SameCache.cacheState (h : SameCache s t) : cacheState t = cacheState s := by
  unfold Machine.cacheState
  rw [h.loaded, h.dirty, h.sectorNumber]

theorem cacheState_ne_none (h : DirtyLoaded s) : cacheState s ≠ none := by
  intro excluded
  unfold cacheState at excluded
  split at excluded
  case h_4 loaded dirty => exact Bool.false_ne_true (loaded.symm.trans (h dirty))
  all_goals cases excluded

/-- The state with the sequencer at another position. -/
def withSeq (q : Seq) (s : State) : State := { s with seq := q }

@[simp] theorem withSeq_cfg (q : Seq) (s : State) : (withSeq q s).cfg = s.cfg := rfl
@[simp] theorem withSeq_chip (q : Seq) (s : State) : (withSeq q s).chip = s.chip := rfl
@[simp] theorem withSeq_choices (q : Seq) (s : State) : (withSeq q s).choices = s.choices := rfl

/-- Bus activity does not look at the sequencer's position. -/
theorem Did.withSeq {sent : List (List Byte)} (h : Did s t sent) (q : Seq) :
    Did (withSeq q s) (withSeq q t) sent :=
  ⟨⟨h.block.cfg, ⟨h.block.cache.1, h.block.cache.2, h.block.cache.3, h.block.cache.4, h.block.cache.5⟩,
    ⟨h.block.identity.1, h.block.identity.2, h.block.identity.3, h.block.identity.4⟩, rfl, h.block.cs⟩,
    ⟨h.host.inbox, h.host.responses⟩, h.result, h.frames⟩

/-- A block that may poll, without a limit, a chip that is there and busy. -/
structure PollsBusy (s : State) : Prop where
  free : Free s
  flags : cacheState s ≠ none
  unlimited : s.cfg.pollLimit = none
  present : s.chip.kind ≠ .absent
  busy : s.chip.busy ≠ .ready

/-- The chip is still busy after bus activity that leaves it so. -/
theorem PollsBusy.of_did {sent : List (List Byte)} (h : PollsBusy s) (d : Did s t sent)
    (chip : t.chip = { s.chip with txn := none }) (q : Seq) : PollsBusy (withSeq q t) where
  free := ⟨d.quiet h.free.quiet, (d.free h.free).cs, (d.free h.free).valid⟩
  flags := d.block.cache.cacheState.trans_ne h.flags
  unlimited := by rw [withSeq_cfg, d.block.cfg, h.unlimited]
  present := by simpa [chip] using h.present
  busy := by simpa [chip] using h.busy

/-- The state `z` in which a busy-wait that began in `s` ends, after `n` polls and with these answers left. -/
structure Waited (n : Nat) (more : List Byte) (s z : State) : Prop where
  did : Did (withSeq z.seq s) z (List.replicate n (wireBytes s.cfg .rdsr1))
  choices : z.choices = more
  chip : z.chip = { s.chip with busy := .ready, txn := none }

theorem run_succ_of_step (h : step s = .next t) (k : Nat) :
    Host.Core.run core (k + 1) s = Host.Core.run core k t := by
  rw [run_succ, h]

/-- A busy-wait whose polls read busy as often as there are `busys`, then ready, is over after as many further steps,
and the operation goes on from there (R140). -/
theorem run_busyWait {busys more : List Byte} {v : Byte} (hb : ∀ w ∈ busys, statusBusy w = true)
    (hv : statusBusy v = false) (op : Op) (rest : List Micro) {n : Nat} (h : PollsBusy s)
    (hc : s.choices = busys ++ v :: more) :
    ∃ z, Waited (busys.length + 1) more s z ∧
      ∀ u, settle op (drive rest z) = .next u →
        ∃ t, settle op (drive (Driver.poll s.cfg n ++ rest) s) = .next t ∧
          Host.Core.run core busys.length t = .next u := by
  induction busys generalizing s n with
  | nil =>
    obtain ⟨z, run, did, choices, chip⟩ :=
      drive_poll_ready h.free h.present (by simpa [nextAnswer, hc] using hv) n rest
    refine ⟨z, ⟨?_, by simp [choices, hc], chip⟩, fun u next => ⟨u, by rw [run, next], rfl⟩⟩
    rw [did.block.seq]
    exact did
  | cons w busys ih =>
    obtain ⟨s', run, did, choices, -, chip⟩ := drive_poll_busy h.free h.present h.busy
      (by simpa [nextAnswer, hc] using hb w) h.unlimited n rest
    have cfg : s'.cfg = s.cfg := did.block.cfg
    have busy := h.of_did did chip (.run op (Driver.poll s.cfg (n + 1) ++ rest))
    obtain ⟨z, waited, last⟩ := ih (fun x hx => hb x (List.mem_cons_of_mem _ hx)) (n := n + 1) busy
      (by simp [choices, hc])
    refine ⟨z, ⟨?_, waited.choices, by simp [waited.chip, chip]⟩, fun u next => ?_⟩
    · have all := (did.withSeq z.seq).trans waited.did
      rw [withSeq_cfg, cfg] at all
      exact all
    · obtain ⟨t, first, steps⟩ := last u next
      rw [withSeq_cfg, cfg, ← step_run busy.flags busy.free.quiet rfl] at first
      exact ⟨_, congrArg (settle op) run, (run_succ_of_step first _).trans steps⟩

/-- WREN and CE leave a chip that is erased and busy (R121, R128). -/
theorem ran_wren_ce (f : Free s) (h : ChipReady s) :
    ∃ u, Ran (Driver.wren s.cfg ++ Driver.ce s.cfg) s u ([.wren, .ce].map (wireBytes s.cfg)) ∧ u.choices = s.choices ∧
      u.chip = { s.chip with mem := [], busy := .other, wel := false, txn := none } := by
  obtain ⟨m, wren, choices, -, chip⟩ := ran_wren f h
  have cfg : m.cfg = s.cfg := wren.did.block.cfg
  obtain ⟨u, ce, choices', -, chip'⟩ :=
    ran_ce (wren.did.free f) (by rw [ChipReady, chip]; exact h) (by rw [chip])
  rw [cfg] at ce
  exact ⟨u, wren.append ce, choices'.trans choices, by rw [chip', chip]⟩

/-- Settles O52: after WREN and CE the chip is busy, and the REFORMAT is its busy-wait and then the empty cache. -/
theorem reformatEndsWhenThePollReadsReady : Obligations.ReformatEndsWhenThePollReadsReady := by
  intro s busys more v sv hl hc hb hv
  obtain ⟨m, ran, choices, chip⟩ := ran_wren_ce sv.calm.free sv.chip
  have cfg : m.cfg = s.cfg := ran.did.block.cfg
  have busy : PollsBusy m := ⟨ran.did.free sv.calm.free,
    ran.did.block.cache.cacheState.trans_ne (cacheState_ne_none sv.flags), by rwa [cfg],
    by simpa [chip] using sv.chip.1, by simp [chip]⟩
  obtain ⟨z, waited, last⟩ := run_busyWait hb hv .reformat [.invalidate] (n := 0) busy (choices.trans hc)
  have did := (ran.did.withSeq z.seq).trans waited.did
  have ended : settle .reformat (drive [.invalidate] z) = .next (complete .reformat (emptied z)) := by
    rw [drive_write (did.quiet sv.calm.free.quiet) rfl]; rfl
  obtain ⟨t, first, steps⟩ := last _ ended
  have exec : exec .reformat s = .next t := by
    rw [exec_reformat sv.idle sv.initialized sv.free, ← first, cfg]
    unfold start Driver.eraseChip
    rw [List.append_assoc, ran.then]; rfl
  have erasedChip : z.chip = { s.chip with mem := [], busy := .ready, wel := false, txn := none } := by
    rw [waited.chip, chip]
  have erased := flash_of_mem_nil (s := s) (t := z) did.block.cfg (by rw [erasedChip])
  have sent : SentAfter s (complete .reformat (emptied z)) _ := did.moved.emptied.sentAfter
  refine ⟨t, _, exec, steps, rfl, rfl, waited.choices, ?_, erased.2, ?_, ?_⟩
  · simpa [ChipReady, emptied, erasedChip] using sv.chip.1
  · exact congrArg (List.length · + 1) did.host.responses
  · have count := transactionCount_of_sentAfter sent
    simp only [List.length_append, List.length_map, List.length_cons, List.length_nil, List.length_replicate] at count
    omega

end Sys2Proof.Machine
end

section
/-! Cache operations (42_cache_operations.md): a dropped request; a hit; a miss from Empty or Clean, and from Dirty; FLUSH
and REFORMAT. A read or write is its `ensureSector` and what follows it, so each is settled by what its `ensureSector`
does. -/

namespace Sys2Proof.Machine

variable {s t u : State} {blk : Word32} {d : List Byte} {sent : List (List Byte)}

/-! ### A request while the guard is taken (R165, R200, R202) -/

/-- A dropped request answers with success and changes nothing else. -/
theorem dropGuarded_dropped (s : State) :
    ∃ t, dropGuarded s = .next t ∧ Dropped (some s.cfg.statusSuccess) s t :=
  ⟨_, rfl, ⟨rfl, ⟨rfl, rfl, rfl, rfl, rfl⟩, ⟨rfl, rfl, rfl, rfl⟩, rfl, rfl⟩, ⟨rfl, rfl, rfl, rfl⟩, rfl,
    ⟨_, rfl, by simp, by simp, by simp⟩⟩

/-- An idle block is not occupied, nor is one whose running operation holds the guard (R180). -/
theorem occupied_eq_false (hb : s.busy = true)
    (hs : s.seq = .idle ∨ ∃ op rest, s.seq = .run op rest ∧ op.holdsBusy = true) : occupied s = false := by
  unfold occupied
  rcases hs with idle | ⟨op, rest, run, holds⟩
  · rw [idle]
  · simp [run, holds, hb]

/-- The checks a data operation passes whatever the guard is (R208). -/
theorem admitted_of_not_occupied {k : Host.Outcome State Fault Refusal} (ho : occupied s = false)
    (hi : s.initialized = true) : admitted s k = k := by
  simp [admitted, ho, hi]

theorem inRange_of_lt {k : Host.Outcome State Fault Refusal} (hr : blk.toNat < blockCountOf s) :
    inRange blk s k = k := if_neg (Nat.not_le.2 hr)

/-- Settles O33: each passes the checks before the guard's, and is dropped there. -/
theorem busyRequestsDropped : Obligations.BusyRequestsDropped := by
  intro s blk d hi hb hs
  have ho := occupied_eq_false hb hs
  have drop := dropGuarded_dropped s
  refine ⟨fun hr => ?_, fun hr hl => ?_, ?_⟩
  · rwa [exec, execReadBlock, admitted_of_not_occupied ho hi, inRange_of_lt hr, if_pos hb]
  · rwa [exec, execWriteBlock, admitted_of_not_occupied ho hi, inRange_of_lt hr, if_neg (not_not.2 hl), if_pos hb]
  · rwa [exec, execFlush, admitted_of_not_occupied ho hi, if_pos hb]

/-! ### From `ensureSector` to the request's answer (R166, R167) -/

/-- The block takes up a read or write of this block number at once (R208). -/
structure TakesUp (s : State) (blk : Word32) : Prop where
  idle : s.seq = .idle
  initialized : s.initialized = true
  free : s.busy = false
  inDevice : blk.toNat < blockCountOf s

theorem Serving.takesUp (sv : Serving s) (hr : blk.toNat < blockCountOf s) : TakesUp s blk :=
  ⟨sv.idle, sv.initialized, sv.free, hr⟩

/-- The block's `ensureSector`, run from `s` with the guard taken, ends in `u` and has sent these transactions. -/
structure Ensured (s : State) (blk : Word32) (u : State) (sent : List (List Byte)) : Prop where
  run : drive (Cache.ensureSector s (resolve s.cfg blk.toNat).1) { s with busy := true } = .done u
  moved : Moved { s with busy := true } u sent
  kind : u.chip.kind = s.chip.kind

/-- `readBlock` is its `ensureSector` and the copy of the block out of the cache (R166). -/
theorem Ensured.readBlock (h : Ensured s blk u sent) (a : TakesUp s blk) :
    ∃ t, t = complete (.readBlock (resolve s.cfg blk.toNat).2) u ∧ exec (.readBlock blk) s = .next t ∧
      ServedFrame s t ∧ SentAfter s t sent ∧
      Responded s t (some s.cfg.statusSuccess) none
        (some (slice u.buffer (resolve s.cfg blk.toNat).2 s.cfg.blockSize)) := by
  refine ⟨_, rfl, ?_, servedFrame_complete true h.moved h.kind rfl (by simp), sentAfter_complete true h.moved, ?_⟩
  · rw [exec_readBlock a.idle a.initialized a.free a.inDevice]
    exact start_done h.run
  · have answer := (responded_complete true h.moved).1 (resolve s.cfg blk.toNat).2
    rwa [h.moved.cfg] at answer

/-- `writeBlock` is its `ensureSector`, the copy of the data into the cache, and the Dirty mark (R167). -/
theorem Ensured.writeBlock (h : Ensured s blk u sent) (a : TakesUp s blk) (quiet : quiet s = true)
    (hl : d.length = s.cfg.blockSize) :
    ∃ t, t = complete .writeBlock (copied (resolve s.cfg blk.toNat).2 d u) ∧ exec (.writeBlock blk d) s = .next t ∧
      ServedFrame s t ∧ SentAfter s t sent ∧ Responded s t (some s.cfg.statusSuccess) none none := by
  have moved := h.moved.copied (resolve s.cfg blk.toNat).2 d
  refine ⟨_, rfl, ?_, servedFrame_complete true moved h.kind rfl (by simp), sentAfter_complete true moved, ?_⟩
  · rw [exec_writeBlock a.idle a.initialized a.free a.inDevice hl]
    refine start_done ?_
    rw [writeBody, drive_trans h.run]
    exact drive_copyIn ((quiet_congr h.moved.host.inbox).trans quiet)
  · have answer := (responded_complete true moved).2.1
    rwa [moved.cfg] at answer

/-! ### A hit (R164) -/

/-- `ensureSector` of the cached sector does nothing. -/
theorem ensured_of_hit (hl : s.loaded = true) (hs : s.sectorNumber.toNat = (resolve s.cfg blk.toNat).1) :
    Ensured s blk { s with busy := true } [] := by
  refine ⟨?_, .refl _, rfl⟩
  rw [Cache.ensureSector, if_pos ((hit_iff (resolve_lt blk)).2 ⟨hl, hs⟩)]
  rfl

/-- Settles O34: a hit ends in the state it started from, but for the guard. -/
theorem readHitServesTheCache : Obligations.ReadHitServesTheCache := by
  intro s blk idle init free hr hl hs
  obtain ⟨t, rfl, run, -, -, answer⟩ := (ensured_of_hit hl hs).readBlock ⟨idle, init, free, hr⟩
  exact ⟨_, run, ⟨rfl, ⟨rfl, rfl, rfl, rfl, free.symm⟩, ⟨rfl, rfl, rfl, rfl⟩, idle.symm, rfl⟩, ⟨rfl, rfl, rfl, rfl⟩, rfl,
    answer⟩

/-- Settles O37: after the hit the block is copied into its slice of the buffer. -/
theorem writeHitStaysInTheCache : Obligations.WriteHitStaysInTheCache := by
  intro s blk d idle quiet hv full init free hr hl loaded sector
  obtain ⟨t, rfl, run, frame, -, answer⟩ :=
    (ensured_of_hit loaded sector).writeBlock ⟨idle, init, free, hr⟩ quiet hl
  have fits : (resolve s.cfg blk.toNat).2 + d.length ≤ s.buffer.length := by
    rw [hl, full]; exact resolve_fits hv blk.toNat
  refine ⟨_, run, frame, ⟨rfl, rfl, rfl, rfl⟩, answer, loaded, rfl, rfl, length_splice.trans full, ?_, fun i hi => ?_⟩
  · rw [← hl]; exact slice_splice fits
  · exact (getElem?_splice fits).trans (if_neg (by omega))

/-! ### A miss from Empty or Clean (R162) -/

theorem SameChip.congr (h : SameChip s u) (chip : t.chip = u.chip) : SameChip s t :=
  ⟨by rw [chip, h.kind], by rw [chip, h.mem], by rw [chip, h.busy], by rw [chip, h.wel]⟩

/-- Settles O35: the load leaves the sector's flash bytes in the buffer, and the answer is the block's slice of them. -/
theorem readMissLoadsTheSector : Obligations.ReadMissLoadsTheSector := by
  intro s blk sv hr hd miss
  obtain ⟨u, run, moved, loaded, clean, sector, chip, choices, buffer⟩ := drive_ensure_clean sv hr hd miss
  obtain ⟨t, rfl, next, frame, sent, answer⟩ := Ensured.readBlock ⟨run, moved, chip.kind⟩ (sv.takesUp hr)
  rw [buffer, slice_block sv.valid] at answer
  exact ⟨_, next, frame, chip.congr rfl, choices, answer, loaded, clean, sector, buffer, sent⟩

/-- Settles O38: the load, then the copy into the buffer. -/
theorem writeMissLoadsTheSector : Obligations.WriteMissLoadsTheSector := by
  intro s blk d sv hr hl hd miss
  obtain ⟨u, run, moved, loaded, -, sector, chip, choices, buffer⟩ := drive_ensure_clean sv hr hd miss
  obtain ⟨t, rfl, next, frame, sent, answer⟩ :=
    Ensured.writeBlock ⟨run, moved, chip.kind⟩ (sv.takesUp hr) sv.calm.free.quiet hl
  exact ⟨_, next, frame, chip.congr rfl, choices, answer, loaded, rfl, sector, congrArg (splice · _ d) buffer, sent⟩

/-! ### A miss from Dirty (R164) -/

/-- What a flush of the `n` bytes from `base` leaves of the flash outside them. -/
theorem flash_outside {base n : Nat} {v : Nat → Byte}
    (h : ∀ x, flash t x = if base ≤ x ∧ x < base + n then v x else flash s x) :
    ∀ x, x < base ∨ base + n ≤ x → flash t x = flash s x :=
  fun x hx => (h x).trans (if_neg (by omega))

/-- Settles O36: the eviction writes the old sector back, and the load finds the new sector's bytes untouched by it. -/
theorem readEvictsADirtySector : Obligations.ReadEvictsADirtySector := by
  intro s blk sv hr hd miss hv
  obtain ⟨u, run, moved, loaded, clean, sector, ready, kind, wf, choices, buffer, bytes⟩ :=
    drive_ensure_dirty sv hr hd miss hv
  obtain ⟨t, rfl, next, frame, sent, answer⟩ := Ensured.readBlock ⟨run, moved, kind⟩ (sv.takesUp hr)
  rw [buffer, slice_block sv.valid] at answer
  exact ⟨_, next, frame, ready, wf, choices, answer, loaded, clean, sector, buffer,
    flashBytes_written (s := s) sv.buffer bytes, flash_outside bytes, sent⟩

/-- Settles O39: the same eviction and load, then the copy into the buffer. -/
theorem writeEvictsADirtySector : Obligations.WriteEvictsADirtySector := by
  intro s blk d sv hr hl hd miss hv
  obtain ⟨u, run, moved, loaded, -, sector, ready, kind, wf, choices, buffer, bytes⟩ :=
    drive_ensure_dirty sv hr hd miss hv
  obtain ⟨t, rfl, next, frame, sent, answer⟩ :=
    Ensured.writeBlock ⟨run, moved, kind⟩ (sv.takesUp hr) sv.calm.free.quiet hl
  exact ⟨_, next, frame, ready, wf, choices, answer, loaded, rfl, sector, congrArg (splice · _ d) buffer,
    flashBytes_written (s := s) sv.buffer bytes, flash_outside bytes, sent⟩

/-! ### FLUSH (R163, R168) -/

/-- Three transactions for the erase, and three for each page (R171). -/
theorem length_flushCommands (c : Config) (sector : Nat) (buffer : List Byte) :
    (flushCommands c sector buffer).length = 3 * (c.pagesPerSector + 1) := by
  simp [flushCommands, programCommands, List.length_flatMap]
  omega

/-- Settles O40: what `flushCache` leaves, with the response. -/
theorem flushWritesBack : Obligations.FlushWritesBack := by
  intro s sv hd hv
  have hl : s.loaded = true := sv.flags hd
  obtain ⟨u, run, moved, loaded, clean, sector, buffer, choices, -, ready, kind, -, wf, bytes⟩ :=
    drive_flushSector sv.calm.free sv.chip sv.flash hv sv.buffer (sv.cached_fits hl)
  have moved := moved.of_busy_false sv.free
  have sent := sentAfter_complete (op := .flush) false moved
  refine ⟨complete .flush u, ?_, servedFrame_complete false moved kind rfl (by simp), ready, wf, choices,
    (responded_complete false moved).2.2.1, loaded.trans hl, clean, sector, buffer,
    flashBytes_written (s := s) sv.buffer bytes, flash_outside bytes, sent, ?_⟩
  · rw [exec_flush sv.idle sv.initialized sv.free, Cache.flushCache, if_pos hd]
    exact start_done run
  · rw [transactionCount_of_sentAfter sent, List.length_map, length_flushCommands]

/-- Settles O41: a FLUSH that is not to write anything back is its response. -/
theorem flushWhenNotDirtyDoesNothing : Obligations.FlushWhenNotDirtyDoesNothing := by
  intro s idle init free hd
  have moved := (Moved.refl s).of_busy_false free
  refine ⟨complete .flush s, ?_, ⟨rfl, ⟨rfl, rfl, rfl, rfl, rfl⟩, ⟨rfl, rfl, rfl, rfl⟩, idle.symm, rfl⟩,
    ⟨rfl, rfl, rfl, rfl⟩, rfl, rfl, (responded_complete false moved).2.2.1⟩
  rw [exec_flush idle init free, Cache.flushCache, if_neg (by simp [hd])]
  exact start_done rfl

/-! ### REFORMAT (R169) -/

/-- Settles O42: the chip erase, then the empty cache; the buffer is not looked at. -/
theorem reformatErasesAndForgets : Obligations.ReformatErasesAndForgets := by
  intro s sv hv
  obtain ⟨u, ran, choices, -, chip⟩ := ran_eraseChip sv.calm.free sv.chip hv
  have moved := ran.did.moved.emptied.of_busy_false sv.free
  have erased := flash_of_mem_nil (s := s) (t := u) ran.did.block.cfg (by rw [chip])
  refine ⟨complete .reformat (emptied u), ?_, servedFrame_complete false moved (by simp [emptied, chip]) rfl (by simp),
    ?_, erased.1, choices, (responded_complete false moved).2.2.2, rfl, rfl, ran.did.block.cache.sectorNumber,
    ran.did.block.cache.buffer, erased.2, sentAfter_complete false moved⟩
  · rw [exec_reformat sv.idle sv.initialized sv.free]
    refine start_done ?_
    rw [ran.then]
    exact drive_write (ran.did.free sv.calm.free).quiet rfl
  · simpa [ChipReady, emptied, chip] using sv.chip.1

end Sys2Proof.Machine
end

section
/-! The host interface (43_host_interface.md): INITIALIZE and what it makes of the identifier received; the step that runs a
decoded frame; the refusals of R208's checks; the five queries. -/

namespace Sys2Proof.Machine

variable {s t u : State}

/-! ### The identifier of a part (R29, R79) -/

/-- The table lists the known identifiers and no others (R29). -/
theorem lookup_bne_unknown {c : Config} (hv : c.Valid) (id : Word16) :
    (lookup c id != c.capUnknown) = knownId c id := by
  rw [knownId_eq, Bool.eq_iff_iff, bne_iff_ne, decide_eq_true_iff]
  refine ⟨fun h => ?_, lookup_ne_unknown hv⟩
  by_contra unknown
  obtain ⟨notA, notB⟩ := not_or.1 unknown
  exact h (by rw [lookup, if_neg notA, if_neg notB])

/-- A part of the table has a known identifier, and its capacity there is the part's size (R29, R79). -/
theorem lookup_identifier {c : Config} (hv : c.Valid) {kind : ChipKind} (hk : kind ≠ .absent) :
    knownId c (Chip.identifier c kind) = true ∧ (lookup c (Chip.identifier c kind)).toNat = Chip.size kind := by
  have distinct : c.idB ≠ c.idA := hv.2.2.2.2.1.symm
  cases kind with
  | partA => simp [knownId, Chip.identifier, lookup, Chip.size, Config.capA]
  | partB => simp [knownId, Chip.identifier, lookup, Chip.size, Config.capB, distinct]
  | absent => exact absurd rfl hk

/-- The two capacities of a right record (R29). -/
theorem capacity_of_recordOk (hr : RecordOk s) :
    s.capacity.toNat = if s.deviceId = s.cfg.idA then Config.capA else Config.capB := by
  obtain ⟨table, known, -⟩ := hr
  unfold lookup at table
  split_ifs at table with isA
  · rw [table, if_pos isA]; rfl
  · rw [table, if_neg isA]; rfl
  · exact absurd table known

/-- The pages of a right record fill the capacity (R30). -/
theorem pageCount_of_recordOk (hr : RecordOk s) : s.pageCount.toNat = s.capacity.toNat / s.cfg.pageSize := by
  rw [hr.2.2, BitVec.toNat_ofNat, Nat.mod_eq_of_lt (lt_of_le_of_lt (Nat.div_le_self _ _) s.capacity.isLt)]

/-! ### INITIALIZE (R181) -/

/-- A busy time that is over is no bus activity. -/
theorem did_chipFinished (s : State) : Did s s.chipFinished [] :=
  ⟨⟨rfl, ⟨rfl, rfl, rfl, rfl, rfl⟩, ⟨rfl, rfl, rfl, rfl⟩, rfl, rfl⟩, ⟨rfl, rfl⟩, rfl, rfl⟩

/-- A part that takes the command answers `detect` with its identifier; one that was busy is ready after it, and has used up
the answer that said so (R79, log 30). -/
theorem ran_detect_taken (f : Free s) (h : ChipTakes s) :
    ∃ u, Ran (Driver.detect s.cfg) s u [wireBytes s.cfg .rdid] ∧
      receivedId u = Chip.identifier s.cfg s.chip.kind ∧ u.chip = { s.chip with busy := .ready, txn := none } ∧
      u.choices = if s.chip.busy = .ready then s.choices else s.choices.tail := by
  obtain ⟨present, takes⟩ := h
  by_cases ready : s.chip.busy = .ready
  · obtain ⟨u, ran, rx, choices, -, chip⟩ := ran_rdid f ⟨present, ready⟩
    exact ⟨u, ran, (receivedId_of_rx rx).trans (joinId_idBytes _), by rw [chip, ← ready],
      by rw [choices, if_pos ready]⟩
  · have rdid : s.cfg.opRdid ≠ s.cfg.opRdsr1 := ne_opRdsr1 f.valid (by simp [otherOpcodes])
    have late : drive (Driver.rdid s.cfg) s = drive (Driver.rdid s.cfg) s.chipFinished := by
      simpa [Driver.rdid] using
        drive_transaction_finished f present ready (takes.resolve_left ready) rdid [0, 0, 0] 2 []
    obtain ⟨u, ran, rx, choices, -, chip⟩ := ran_rdid ((did_chipFinished s).free f) ⟨present, rfl⟩
    exact ⟨u, ⟨late.trans ran.run, (did_chipFinished s).trans ran.did⟩,
      (receivedId_of_rx rx).trans (joinId_idBytes _), chip, by rw [if_neg ready]; exact choices⟩

/-- The state after INITIALIZE's four writes (R181). -/
def identified (u : State) : State :=
  let v := latchPageCount { u with deviceId := receivedId u, capacity := lookup u.cfg (receivedId u) }
  { v with initialized := v.capacity != v.cfg.capUnknown }

theorem drive_latches (q : quiet u = true) :
    drive [.latchId, .latchCapacity, .latchPageCount, .latchInitialized] u = .done (identified u) := by
  rw [drive_go q rfl, drive_go (by exact q) rfl, drive_go (by exact q) rfl]
  exact drive_write ((quiet_congr (latchPageCount_inbox _)).trans q) rfl

/-- What INITIALIZE leaves when it has received this identifier: its record and its response, one RDID on the bus, the cache
and the host's inputs as they were. -/
structure Initialized (s : State) (id : Word16) (t : State) : Prop where
  deviceId : t.deviceId = id
  capacity : t.capacity = lookup s.cfg id
  initialized : t.initialized = knownId s.cfg id
  record : knownId s.cfg id = true → RecordOk t
  response : Responded s t (some (if knownId s.cfg id then s.cfg.statusSuccess else s.cfg.statusFailure)) none none
  sent : SentAfter s t [wireBytes s.cfg .rdid]
  cache : SameCache s t
  cfg : t.cfg = s.cfg
  seq : t.seq = .idle
  cs : t.cs = false
  inbox : t.inbox = s.inbox

theorem Initialized.success {id : Word16} (h : Initialized s id t) (known : knownId s.cfg id = true) :
    Responded s t (some s.cfg.statusSuccess) none none := by
  have response := h.response
  rwa [if_pos known] at response

/-- The four writes and the response, after an RDID. -/
theorem initialized_of_did (f : Free s) (did : Did s u [wireBytes s.cfg .rdid]) :
    Initialized s (receivedId u) (complete .init (identified u)) := by
  have cfg : u.cfg = s.cfg := did.block.cfg
  have cfg' : (identified u).cfg = s.cfg := by simp [identified, cfg]
  have capacity : (identified u).capacity = lookup s.cfg (receivedId u) := by simp [identified, cfg]
  have initialized : (identified u).initialized = knownId s.cfg (receivedId u) := by
    simp [identified, cfg, lookup_bne_unknown f.valid]
  have status : initStatus (identified u) =
      if knownId s.cfg (receivedId u) then s.cfg.statusSuccess else s.cfg.statusFailure := by
    rw [initStatus, initialized, cfg']
  have responses : (identified u).responses = s.responses := by simpa [identified] using did.host.responses
  refine {
    deviceId := by simp [identified]
    capacity := capacity
    initialized := initialized
    record := fun known => ?record
    response := ⟨_, congrArg (List.cons _) responses, fun _ hx => status.trans (Option.some.inj hx), by simp, by simp⟩
    sent := ?sent
    cache := ?cache
    cfg := by simp [cfg']
    seq := by simp
    cs := by simp [identified, did.block.cs, f.cs]
    inbox := by simp [identified, did.host.inbox] }
  case record =>
    have known' : lookup u.cfg (receivedId u) ≠ u.cfg.capUnknown := by
      rw [cfg]
      simpa using (lookup_bne_unknown f.valid (receivedId u)).trans known
    exact ⟨by simp [identified], by simpa [identified] using known', by simp [identified, latchPageCount, known']⟩
  case sent =>
    have sent := did.sentAfter
    unfold SentAfter frames at *
    simpa [identified] using sent
  case cache =>
    have same := did.block.cache
    exact ⟨by simp [identified, same.loaded], by simp [identified, same.dirty], by simp [identified, same.sectorNumber],
      by simp [identified, same.buffer], by simp [identified, same.busy, Op.holdsBusy]⟩

/-- INITIALIZE is its RDID, and what it makes of the identifier received (R181). -/
theorem exec_init_of_ran (hc : Calm s) (hi : s.initialized = false) (hb : s.busy = false)
    (ran : Ran (Driver.detect s.cfg) s u [wireBytes s.cfg .rdid]) :
    ∃ t, exec .init s = .next t ∧ Initialized s (receivedId u) t ∧ t.chip = u.chip ∧ t.choices = u.choices := by
  refine ⟨_, ?_, initialized_of_did hc.free ran.did, by simp [identified], by simp [identified]⟩
  have run : exec .init s = start .init (initBody s.cfg) s := by simp [exec, execInit, occupied, hc.1, hi, hb]
  rw [run]
  refine start_done ?_
  rw [initBody, drive_go hc.free.quiet rfl, ran.then]
  exact drive_latches (ran.did.quiet hc.free.quiet)

/-- INITIALIZE with a part that takes the command. -/
theorem exec_init_taken (hc : Calm s) (h : ChipTakes s) (hi : s.initialized = false) (hb : s.busy = false) :
    ∃ t, exec .init s = .next t ∧ Initialized s (Chip.identifier s.cfg s.chip.kind) t ∧
      t.chip = { s.chip with busy := .ready, txn := none } ∧
      t.choices = if s.chip.busy = .ready then s.choices else s.choices.tail := by
  obtain ⟨u, ran, id, chip, choices⟩ := ran_detect_taken hc.free h
  obtain ⟨t, next, done, chip', choices'⟩ := exec_init_of_ran hc hi hb ran
  exact ⟨t, next, id ▸ done, chip'.trans chip, choices'.trans choices⟩

/-- A reset at any moment leaves what INITIALIZE asks for, if the chip's busy time is over by then (R230, log 30). -/
theorem resetEvent_takes (q : quiet s = true) (hv : s.cfg.Valid) (hk : s.chip.kind ≠ .absent)
    (ended : statusBusy (nextAnswer s) = false) :
    ∃ t, resetEvent s = .next t ∧ Calm t ∧ ChipTakes t ∧ t.initialized = false ∧ t.busy = false ∧ t.cfg = s.cfg :=
  ⟨_, rfl, ⟨rfl, rfl, q, hv⟩, ⟨by rw [blockReset_chip, (chipAfterCut_chip s).1]; exact hk, .inr ended⟩, rfl, rfl, rfl⟩

/-- Settles O28: the identifier received is the part's, which the table knows; a reset brings back what INITIALIZE asks. -/
theorem initializeDetectsThePart : Obligations.InitializeDetectsThePart := by
  refine ⟨fun s hc h hi hb => ?_, fun s q hv hk ended => ?_⟩
  · obtain ⟨t, next, done, chip, choices⟩ := exec_init_taken hc h hi hb
    obtain ⟨known, size⟩ := lookup_identifier hc.free.valid h.1
    have record := done.record known
    have capacity : t.capacity.toNat = flashSize s := (congrArg _ done.capacity).trans size
    refine ⟨t, next, done.success known, done.deviceId, capacity, ?_, done.initialized.trans known,
      record, done.sent, done.cache, (congrArg Chip.kind chip :), (congrArg Chip.mem chip :), (congrArg Chip.wel chip :),
      (congrArg Chip.busy chip :), done.cfg, done.seq, done.cs, done.inbox, choices⟩
    rw [pageCount_of_recordOk record, capacity, done.cfg]
  · obtain ⟨t, reset, hc, h, hi, hb, cfg⟩ := resetEvent_takes q hv hk ended
    obtain ⟨u, next, done, -⟩ := exec_init_taken hc h hi hb
    obtain ⟨known, -⟩ := lookup_identifier hc.free.valid h.1
    exact ⟨t, u, reset, next, done.initialized.trans known, done.record known, cfg ▸ done.success known⟩

/-- Settles O29: the two bytes are the identifier received, and the response and `initialized` say whether it is known. -/
theorem initializeTakesWhatItReceives : Obligations.InitializeTakesWhatItReceives := by
  intro s h l more hc absent answers hi hb
  obtain ⟨u, ran, -, chip, kept⟩ := ran_absent hc.free absent [s.cfg.opRdid, 0, 0, 0] 2
  obtain ⟨rx, choices, -⟩ := kept (by simp [answers])
  have id : receivedId u = h ++ l := receivedId_of_rx (by simp [rx, answers])
  obtain ⟨t, next, done, chip', choices'⟩ := exec_init_of_ran hc hi hb ran
  rw [id] at done
  have knows := knownId_eq s.cfg (h ++ l)
  refine ⟨t, next, done.deviceId, done.capacity, fun ⟨notA, notB⟩ => ?_, fun isOne => ?_, done.sent, done.cache,
    .of_txn (chip'.trans chip), done.cfg, done.seq, done.cs, done.inbox, by rw [choices', choices, answers]; rfl⟩
  · have unknown : knownId s.cfg (h ++ l) = false := by simp [knows, notA, notB]
    exact ⟨by simpa [unknown] using done.response, done.initialized.trans unknown⟩
  · have known : knownId s.cfg (h ++ l) = true := by simpa [knows] using isOne
    exact ⟨done.success known, done.initialized.trans known, done.record known⟩

/-! ### The step (R180, R104) -/

theorem step_of_presented {input : Input} {rest : List Arrival} (hc : cacheState s ≠ none)
    (hp : presented s = some (input, rest)) : step s = accept input { s with inbox := rest } := by
  rw [step, if_neg hc, hp]

theorem accept_frame {f : Frame} {i : Instr} (h : decode s.cfg f = .ok i) : accept (.frame f) s = exec i s := by
  rw [accept, h]

/-- Settles O7: in both cases the frame is the input presented, and `withFetchWord` places one that is due. -/
theorem stepRunsTheDecodedInstruction : Obligations.StepRunsTheDecodedInstruction := by
  have run : ∀ {s : State} {f : Frame} {rest : List Arrival} {i : Instr}, cacheState s ≠ none →
      presented s = some (.frame f, rest) → decode s.cfg f = .ok i → step s = exec i { s with inbox := rest } :=
    fun hc hp h => (step_of_presented hc hp).trans (accept_frame h)
  refine ⟨fun s f rest i hc arrives h => run hc ?_ h, fun s nbits w i hc h => run hc rfl h⟩
  rcases arrives with due | ⟨waits, idle⟩
  · simp only [presented, due]
  · simp only [presented, waits, idle, if_true]

/-! ### Refusals (R208) -/

theorem direct_of_run {op : Op} {rest prog : List Micro} {r : Returns} (hs : s.seq = .run op rest) :
    direct r prog s = .refused .sequencerOccupied := if_neg (by simp [hs])

theorem occupied_of_run {op : Op} {rest : List Micro} (hs : s.seq = .run op rest) (hop : op.holdsBusy = false) :
    occupied s = true := by simp [occupied, hs, hop]

theorem admitted_of_occupied {k : Host.Outcome State Fault Refusal} (ho : occupied s = true) :
    admitted s k = .refused .sequencerOccupied := if_pos ho

theorem admitted_of_not_initialized {k : Host.Outcome State Fault Refusal} (ho : occupied s = false)
    (hi : s.initialized = false) : admitted s k = .refused .notInitialized := by
  simp [admitted, ho, hi]

theorem inRange_of_le {k : Host.Outcome State Fault Refusal} {blk : Word32} (hr : blockCountOf s ≤ blk.toNat) :
    inRange blk s k = .refused .blockOutOfRange := if_pos hr

/-- Settles O30: each state-changing request checks the sequencer first, and a command or primitive right before it starts. -/
theorem occupiedSequencerRefuses : Obligations.OccupiedSequencerRefuses := by
  intro s op rest hs
  refine ⟨fun hop blk d => ?_, fun i hi hw => ?_, fun p hp => ?_, fun a n g d => ⟨direct_of_run hs, fun page full => ?_,
    fun hg ha => ?_⟩⟩
  · have ho := occupied_of_run hs hop
    exact ⟨if_pos ho, admitted_of_occupied ho, admitted_of_occupied ho, admitted_of_occupied ho, admitted_of_occupied ho⟩
  · obtain ⟨r, op, bs, kept, run, -⟩ := exec_wire hi hw
    exact run.trans (direct_of_run hs)
  · simp only [List.mem_cons, List.not_mem_nil, or_false] at hp
    rcases hp with rfl | rfl | rfl | rfl | rfl | rfl
    all_goals exact direct_of_run hs
  · simp [callPrimitive, isMultiple, page, full, direct_of_run hs]
  · simp [callPrimitive, isMultiple, hg, ha, direct_of_run hs]

/-- Settles O32: the first check that fails, in R208's order. -/
theorem admissionRefusals : Obligations.AdmissionRefusals := by
  intro s blk d ho
  refine ⟨fun hi hr => ⟨?_, ?_⟩, fun hi => ?_, fun hi hb => ?_, fun hi hb => ?_⟩
  · rw [exec, execReadBlock, admitted_of_not_occupied ho hi, inRange_of_le hr]
  · rw [exec, execWriteBlock, admitted_of_not_occupied ho hi, inRange_of_le hr]
  · simp [exec, execInit, ho, hi]
  · simp [exec, execInit, ho, hi, hb]
  · rw [exec, execReformat, admitted_of_not_occupied ho hi, if_pos hb]

/-! ### The queries (R186 to R191) -/

/-- A query's answer is one response with its value, and changes nothing else. -/
theorem queried_respond (value : Option Word32) (s : State) : Queried value s (respond none value none s) :=
  ⟨⟨rfl, ⟨rfl, rfl, rfl, rfl, rfl⟩, ⟨rfl, rfl, rfl, rfl⟩, rfl, rfl⟩, ⟨rfl, rfl, rfl, rfl⟩, rfl, rfl,
    _, rfl, by simp, fun x hx => by simp [hx], by simp⟩

/-- BLOCK_COUNT and TOTAL_SIZE before a successful INITIALIZE (U6). -/
theorem answerSized_of_not_initialized (hi : s.initialized = false) (value : Word32) :
    answerSized value s = answerQuery none s := by simp [answerSized, hi]

/-- Settles O31: the four requests fail at the check of `initialized`, and the queries do not make it. -/
theorem refusedBeforeInitialize : Obligations.RefusedBeforeInitialize := by
  intro s blk d hi
  refine ⟨fun ho => ?_, ⟨_, rfl, queried_respond _ s⟩, ⟨_, rfl, queried_respond _ s⟩, ⟨_, rfl, queried_respond _ s⟩,
    ⟨_, answerSized_of_not_initialized hi _, queried_respond _ s⟩,
    ⟨_, answerSized_of_not_initialized hi _, queried_respond _ s⟩⟩
  exact ⟨admitted_of_not_initialized ho hi, admitted_of_not_initialized ho hi, admitted_of_not_initialized ho hi,
    admitted_of_not_initialized ho hi⟩

/-- Half the pages of each device, with pages of 256 bytes (R186). -/
theorem blockCount_of_recordOk (hp : s.cfg.pageSize = 256) (hr : RecordOk s) :
    s.pageCount.toNat / 2 = if s.deviceId = s.cfg.idA then 2048 else 16384 := by
  rw [pageCount_of_recordOk hr, capacity_of_recordOk hr, hp]
  split_ifs <;> rfl

/-- The blocks of a detected device fill its capacity (R187). -/
theorem totalSize_of_recordOk (hv : s.cfg.Valid) (hr : RecordOk s) :
    BitVec.ofNat 32 (s.pageCount.toNat / 2 * (2 * s.cfg.pageSize)) = s.capacity := by
  have fills : s.pageCount.toNat / 2 * (2 * s.cfg.pageSize) = s.capacity.toNat := (record_fills hv hr).1
  rw [fills, BitVec.ofNat_toNat, BitVec.setWidth_eq]

/-- Settles O43, with the two capacities of a right record. -/
theorem sizeQueries : Obligations.SizeQueries := by
  intro s
  refine ⟨⟨_, rfl, queried_respond _ s, fun hp hi hr => ?_⟩, ⟨_, rfl, queried_respond _ s, fun hv hi hr => ?_⟩⟩
  · have value : (if s.deviceId = s.cfg.idA then (2048 : Word32) else 16384) = BitVec.ofNat 32 (blockCountOf s) := by
      rw [blockCountOf, Config.pagesPerBlock, blockCount_of_recordOk hp hr]
      split_ifs <;> rfl
    rw [value, if_pos hi]
    exact queried_respond _ s
  · rw [← totalSize_of_recordOk hv hr, if_pos hi]
    exact queried_respond _ s

/-- Settles O44: none of the three looks at the sequencer, and under the guard's invariant the flag is the running
operation's. -/
theorem constantQueriesAndIsBusy : Obligations.ConstantQueriesAndIsBusy := by
  intro s
  refine ⟨⟨_, rfl, queried_respond _ s⟩, ⟨_, rfl, queried_respond _ s⟩, _, rfl, queried_respond _ s, fun guard => ?_⟩
  cases hs : s.seq with
  | idle =>
    rw [busy_of_guardInv_idle guard hs]
    exact queried_respond _ s
  | run op rest =>
    rw [busy_of_guardInv_run guard hs]
    cases op with
    | readBlock _ | writeBlock | init | flush | reformat | direct _ => exact queried_respond _ s

end Sys2Proof.Machine
end

section
/-! Abnormal outcomes (60_exceptions.md): the loss of power, and the busy-wait of a chip that stays busy. -/

namespace Sys2Proof.Machine

variable {s t u : State}

/-! ### Loss of power (R216, G14) -/

/-- Settles O12: the cut changes bytes of `cutReach` alone, and the return of power a page that was being programmed before
the cut or by the program command it cut. -/
theorem powerLossKeepsFinishedPages : Obligations.PowerLossKeepsFinishedPages := by
  intro s hw
  obtain ⟨kind, cutWf⟩ := chipAfterCut_chip s
  have wf := cutWf hw
  refine ⟨_, rfl, restarted (powerUp_chip.1.trans kind) _, powerUp_chip.2 wf, fun x hx page reach => ?_,
    fun notProgramming notCut x _ => ?_⟩
  · have outside : ∀ p, (chipAfterCut s).busy = .programming p → x < p ∨ p + s.cfg.pageSize ≤ x := fun p hp =>
      (chipAfterCut_busy hp).elim (page p) fun ⟨cut, _⟩ => reach _ cut
    exact (powerUp_read wf outside).trans (chipAfterCut_read hw hx reach)
  · have idle : ∀ p, (chipAfterCut s).busy ≠ .programming p := fun p hp => by
      rcases chipAfterCut_busy hp with before | ⟨-, y, hy, program⟩
      · simp [before] at notProgramming
      · exact notCut y hy program
    have kept := fun d => powerUp_read (d := d) (x := x) wf fun p hp => absurd hp (idle p)
    exact (chipAfterCut_read_or notCut x).imp (kept _).trans (kept _).trans

/-! ### The hang (R140, R203) -/

/-- What `n` polls that read busy make of `s`: as many RDSR1 transactions, as many answers used up, and nothing else but
the sequencer's position. -/
structure Polled (n : Nat) (s t : State) : Prop where
  did : Did (withSeq t.seq s) t (List.replicate n (wireBytes s.cfg .rdsr1))
  chip : SameChip s t
  choices : t.choices = s.choices.drop n

theorem Polled.refl (s : State) : Polled 0 s s := ⟨.refl s, .refl s, rfl⟩

theorem Polled.cfg {n : Nat} (h : Polled n s t) : t.cfg = s.cfg := h.did.block.cfg

theorem Polled.cache {n : Nat} (h : Polled n s t) : SameCache s t :=
  have same := h.did.block.cache
  ⟨same.loaded, same.dirty, same.sectorNumber, same.buffer, same.busy⟩

theorem Polled.identity {n : Nat} (h : Polled n s t) : SameIdentity s t :=
  have same := h.did.block.identity
  ⟨same.deviceId, same.capacity, same.pageCount, same.initialized⟩

theorem Polled.trans {m n : Nat} (h : Polled m s t) (k : Polled n t u) : Polled (m + n) s u where
  did := by
    have did := (h.did.withSeq u.seq).trans k.did
    rw [h.cfg, List.replicate_append_replicate] at did
    exact did
  chip := h.chip.trans k.chip
  choices := by rw [k.choices, h.choices, List.drop_drop]

/-- One step of a busy-wait whose poll reads busy: the poll, and the busy-wait is to go on. -/
theorem step_poll_busy {op : Op} {polls : Nat} {rest : List Micro} (h : PollsBusy s)
    (hs : s.seq = .run op (Driver.poll s.cfg polls ++ rest)) (hv : statusBusy (nextAnswer s) = true) :
    ∃ t, step s = .next t ∧ PollsBusy t ∧ Polled 1 s t ∧ t.seq = .run op (Driver.poll s.cfg (polls + 1) ++ rest) := by
  obtain ⟨u, run, did, choices, -, chip⟩ := drive_poll_busy h.free h.present h.busy hv h.unlimited polls rest
  refine ⟨withSeq (.run op (Driver.poll s.cfg (polls + 1) ++ rest)) u, ?_, h.of_did did chip _,
    ⟨did.withSeq _, .of_txn chip, by simp [choices]⟩, rfl⟩
  rw [step_run h.flags h.free.quiet hs, run]
  rfl

/-- As many steps as there are answers that read busy, and the busy-wait is to go on. -/
theorem run_polls_busy {op : Op} {rest : List Micro} {busys more : List Byte} (busy : ∀ v ∈ busys, statusBusy v = true)
    {polls : Nat} (h : PollsBusy s) (hs : s.seq = .run op (Driver.poll s.cfg polls ++ rest))
    (hc : s.choices = busys ++ more) :
    ∃ t, Host.Core.run core busys.length s = .next t ∧ Polled busys.length s t ∧
      t.seq = .run op (Driver.poll s.cfg (polls + busys.length) ++ rest) := by
  induction busys generalizing s polls with
  | nil => exact ⟨s, rfl, .refl s, hs⟩
  | cons v busys ih =>
    obtain ⟨m, first, hm, polled, seq⟩ := step_poll_busy h hs (by simpa [nextAnswer, hc] using busy v)
    rw [← polled.cfg] at seq
    obtain ⟨t, run, polled', seq'⟩ :=
      ih (fun w hw => busy w (List.mem_cons_of_mem v hw)) hm seq (by simp [polled.choices, hc])
    rw [polled.cfg, Nat.add_right_comm] at seq'
    refine ⟨t, (run_succ_of_step first _).trans run, ?_, seq'⟩
    rw [List.length_cons, Nat.add_comm]
    exact polled.trans polled'

/-- Settles O51: the `k` answers settled on are `k` polls that read busy, one a step. -/
theorem busyWaitGoesOnWhileTheChipIsBusy : Obligations.BusyWaitGoesOnWhileTheChipIsBusy := by
  intro s op polls k rest hs cs q valid flags unlimited present chipBusy enough busy
  obtain ⟨t, run, polled, seq⟩ := run_polls_busy busy ⟨⟨q, cs, valid⟩, flags, unlimited, present, chipBusy⟩ hs
    (List.take_append_drop k s.choices).symm
  rw [List.length_take_of_le enough] at run polled seq
  obtain ⟨block, host, -, -⟩ := polled.did
  exact ⟨t, run, seq, polled.cache, polled.identity, polled.chip, host.responses, host.inbox, block.cs.trans cs,
    polled.cfg, polled.choices, polled.did.sentAfter⟩

end Sys2Proof.Machine
end

section
/-! Reset (70_reset_and_hazards.md): the reset event at any moment. -/

namespace Sys2Proof.Machine

/-- Settles O11: the reset event only ends the transaction in progress, so the flash it leaves is the flash of that cut,
which differs from what it was in bytes of `cutReach` alone, and in erased bytes alone unless a program command was cut. -/
theorem resetEventKeepsTheFlash : Obligations.ResetEventKeepsTheFlash := by
  intro s hw
  obtain ⟨kind, cutWf⟩ := chipAfterCut_chip s
  exact ⟨_, rfl, restarted kind _, cutWf hw, chipAfterCut_mem, fun _ hx outside => chipAfterCut_read hw hx outside,
    fun notProgram x _ => chipAfterCut_read_or notProgram x⟩

end Sys2Proof.Machine
end
